-- ==== Sys2Proof/Word.lean ====
section
/-! DEFINITION. The word types of the block and nothing else: every data path is 8 bits (00_scope.md R17), a virtual
address is 7 bits (R15), an I2C address is 7 bits (R10), a command word 16, a response word 10, a transaction descriptor
17 bits (30_encoding.md R90). -/

namespace Sys2Proof

/-- One byte: a physical register, a virtual register, a select byte or a data byte (R17). -/
abbrev Byte := BitVec 8

/-- A virtual address, 0x00 to 0x7F (R15). -/
abbrev VAddr := BitVec 7

/-- A 7-bit I2C address (R10). -/
abbrev DevAddr := BitVec 7

/-- A command word `CMDW` (R91). -/
abbrev CmdWord := BitVec 16

/-- A response word `RSP` (R95). -/
abbrev RspWord := BitVec 10

/-- A transaction descriptor `TXD` (R96). -/
abbrev Txd := BitVec 17

end Sys2Proof
end

