-- ==== Sys2Proof/Config.lean ====
section
/-! DEFINITION. What an instance fixes (00_scope.md R10 to R16, 42_consumer_sequences.md R168, R173, R174, R178), and the
free values: opaque constants for what the spec leaves open. -/

namespace Sys2Proof

/-! ## Fixed numbers (R11 to R14) -/

/-- Physical address of STATUS (R11). -/
def Config.regStatus : Byte := 0x00#8
/-- Physical address of WRITE (R11). -/
def Config.regWrite : Byte := 0x01#8
/-- Physical address of READ (R11). -/
def Config.regRead : Byte := 0x02#8

/-- Nominal delay between two polls, in milliseconds (R14). The machine has no clock: no step depends on it (R268). -/
def Config.pollDelayMs : Nat := 5

/-! ## Parameters of an instance -/

/-- The clamp policies of the consumer layer: to the default 0, to the maximum 3, or reject (R173, R174, D20). -/
inductive Clamp where
  | toZero
  | toThree
  | reject
deriving DecidableEq, Repr

/-- The parameters of one instance, chosen at construction and never changed by a step (R10, R16).
`none` in `tempSigned` and `oneShotMode` means that the open parameter is left open (D23, D24). -/
structure Params where
  /-- `DEV_ADDR` (R10). -/
  devAddr : DevAddr
  /-- `POLL_LIMIT`: `none`, or the positive number of polls one loop may take (R16). -/
  pollLimit : Option Nat
  /-- `GAIN_CLAMP` (R173). -/
  gainClamp : Clamp
  /-- `MODE_CLAMP` (R174). -/
  modeClamp : Clamp
  /-- `TEMP_SIGNED` (R168). -/
  tempSigned : Option Bool
  /-- `ONE_SHOT_MODE` (R178). -/
  oneShotMode : Option (BitVec 2)
deriving DecidableEq, Repr

/-- The defaults of R10, R16, R173 and R174; the two parameters without a default stay open. -/
def Params.default : Params :=
  { devAddr := 0x49#7, pollLimit := none, gainClamp := .toZero, modeClamp := .toThree,
    tempSigned := none, oneShotMode := none }

/-! ## Free values -/

/-- How the environment answers one transaction: it completes (a read returns the byte, a write ignores it) or it fails,
and then the failed transaction may or may not have taken effect on the device (R158, R161, R200). -/
inductive BusReply where
  | ok (b : Byte)
  | fail (took : Bool)
deriving DecidableEq, Repr, Inhabited

/-- Free value: what the oracle answers to the `n`-th transaction when State names no answer (R200). Log 6. -/
opaque Config.freeReply : Nat → BusReply

/-- Free value: RSP.RDATA where it 'holds no value' (R95), after `n` transactions. Log 15. -/
opaque Config.freeRspData : Nat → Byte

/-- Free value: the signedness of the temperature byte where the parameter is left open (R168, D23). Log 17. -/
opaque Config.tempSigned : Bool

/-- Free value: the number of the one-shot mode where the parameter is left open (R178, D24). Log 17. -/
opaque Config.oneShotMode : BitVec 2

/-- Free value: the `integrationTimeRegister` that `triggerOneShotSync` multiplies by 6 (R179, N9). Log 18. -/
opaque Config.integrationTimeRegister : Nat → Byte

end Sys2Proof
end

