-- ==== Sys2Proof/Syntax.lean ====
section
/-! DEFINITION. The instructions: one constructor per row of spec/opcode_table.json. `RDV` and `WRV` are the two commands
of the block (40_transport_commands.md R125, R126, R129), the other three are the micro-operations the sequencer issues
(41_physical_transactions.md R150 to R152). Operands have the exact width of their field, so an operand out of range is
not a term. -/

namespace Sys2Proof

/-- The five rows of the opcode table. -/
inductive Instr where
  /-- `RDV a`: read the virtual register `a`. `x` is the ignored data field, latched and never used (R91, R100). -/
  | rdv (a : VAddr) (x : Byte)
  /-- `WRV a, d`: write `d` to the virtual register `a` (R91). -/
  | wrv (a : VAddr) (d : Byte)
  /-- `PRD STATUS`: read STATUS once (R150). -/
  | prdStatus
  /-- `PRD READ`: read READ once (R151). -/
  | prdRead
  /-- `PWR WRITE, v`: write `v` to WRITE (R152). -/
  | pwrWrite (v : Byte)
deriving DecidableEq, Repr

/-- The command constructors: 'exactly two operations' (R3, R129). -/
def Instr.isCommand : Instr → Bool
  | .rdv _ _ => true
  | .wrv _ _ => true
  | .prdStatus => false
  | .prdRead => false
  | .pwrWrite _ => false

end Sys2Proof
end

