-- ==== Sys2Proof/WellFormed.lean ====
section
/-! DEFINITION. Well-formedness of what is written from outside. A term of `Instr` cannot be ill-formed (its operands have
their field's width), so the checks stand where a value can be out of range: in the assembler's lines, whose operands are
numbers (30_encoding.md R106, R100), and in an instance's parameters (00_scope.md R16). -/

namespace Sys2Proof

/-- A line of the assembler syntax of R106, with operands as the numbers written. -/
inductive AsmLine where
  | rdv (a : Nat)
  | wrv (a d : Nat)
  | prdStatus
  | prdRead
  | pwrWrite (v : Nat)
deriving DecidableEq, Repr

/-- `a in 0x00..0x7F`, `d in 0x00..0xFF` (R106). An address of 0x80 or above has no command word (R100). -/
def AsmLine.wellFormed : AsmLine → Bool
  | .rdv a => decide (a < 128)
  | .wrv a d => decide (a < 128) && decide (d < 256)
  | .prdStatus => true
  | .prdRead => true
  | .pwrWrite v => decide (v < 256)

/-- The instruction a well-formed line stands for; assemblers emit 0x00 in the ignored field of `RDV` (R91, R106). -/
def AsmLine.assemble (l : AsmLine) : Option Instr :=
  if l.wellFormed then
    match l with
    | .rdv a => some (.rdv (BitVec.ofNat 7 a) 0#8)
    | .wrv a d => some (.wrv (BitVec.ofNat 7 a) (BitVec.ofNat 8 d))
    | .prdStatus => some .prdStatus
    | .prdRead => some .prdRead
    | .pwrWrite v => some (.pwrWrite (BitVec.ofNat 8 v))
  else none

/-- `POLL_LIMIT` is `none` or a positive integer (R16). -/
def Params.wellFormed (p : Params) : Bool :=
  match p.pollLimit with
  | none => true
  | some n => decide (1 ≤ n)

end Sys2Proof
end

