-- ==== Sys2Proof/Decode.lean ====
section
/-! DEFINITION. Encodings (30_encoding.md): the decoder of command words and transaction descriptors, total and rejecting
by name, then the encoder, then the words as bytes and the select byte on the wire. -/

namespace Sys2Proof

/-! ## Decoding -/

/-- Why a word or a list of bytes is not an instruction. -/
inductive DecodeError where
  /-- A write to STATUS, which is read-only (R102, R153). -/
  | statusIsReadOnly
  /-- A write to READ, which is read-only (R102, R153). -/
  | readIsReadOnly
  /-- A read of WRITE, which is write-only (R102, R153). -/
  | writeIsWriteOnly
  /-- A physical address above 0x02: 'there is no other physical addressing' (R39, R102, R153). -/
  | noSuchRegister
  /-- Fewer than two bytes where a command word is read (R108). -/
  | truncated
deriving DecidableEq, Repr

/-- The direction bit of a command word, set for a write (R91). -/
def cmdDir (w : CmdWord) : Bool := w.getLsbD 15

/-- The address field of a command word (R91). -/
def cmdVaddr (w : CmdWord) : VAddr := w.extractLsb' 8 7

/-- The data field of a command word (R91). -/
def cmdWdata (w : CmdWord) : Byte := w.extractLsb' 0 8

/-- Decoding a command word takes one bit, and every word is legal (R99, R100). -/
def decodeCmd (w : CmdWord) : Instr :=
  if cmdDir w then .wrv (cmdVaddr w) (cmdWdata w) else .rdv (cmdVaddr w) (cmdWdata w)

/-- The read/write bit of a descriptor, set for a write (R96). -/
def txdRw (t : Txd) : Bool := t.getLsbD 16

/-- The physical register address of a descriptor (R96). -/
def txdReg (t : Txd) : Byte := t.extractLsb' 8 8

/-- The data field of a descriptor (R96). -/
def txdData (t : Txd) : Byte := t.extractLsb' 0 8

/-- Decoding a descriptor: three values of TXD[16:8] are issued, every other is refused by name (R96, R99, R102).
The data field of a read is absent and is not looked at. -/
def decodeTxd (t : Txd) : Except DecodeError Instr :=
  if txdRw t then
    if txdReg t = Config.regWrite then .ok (.pwrWrite (txdData t))
    else if txdReg t = Config.regStatus then .error .statusIsReadOnly
    else if txdReg t = Config.regRead then .error .readIsReadOnly
    else .error .noSuchRegister
  else
    if txdReg t = Config.regStatus then .ok .prdStatus
    else if txdReg t = Config.regRead then .ok .prdRead
    else if txdReg t = Config.regWrite then .error .writeIsWriteOnly
    else .error .noSuchRegister

/-- The two encoded objects that stand for an instruction: a word at the command port, or a descriptor handed to the bus
capability (R90). -/
inductive Encoded where
  | cmd (w : CmdWord)
  | txd (t : Txd)
deriving DecidableEq, Repr

/-- The decoder. -/
def decode : Encoded → Except DecodeError Instr
  | .cmd w => .ok (decodeCmd w)
  | .txd t => decodeTxd t

/-- A command word read from bytes, the select byte first (R108), with the bytes that follow it. -/
def decodeBytes : List Byte → Except DecodeError (Instr × List Byte)
  | sel :: data :: rest => .ok (decodeCmd (sel ++ data), rest)
  | [_] => .error .truncated
  | [] => .error .truncated

/-- The decoder on the table's numbering of the bits: 16 bits are a command word, 17 bits (24 in whole bytes) a
descriptor, whose bits above bit 16 are zero. Any other width or a word too large is no instruction. -/
def decodeTableWord (nbits w : Nat) : Option Instr :=
  if nbits = 16 then
    if w < 2 ^ 16 then some (decodeCmd (BitVec.ofNat 16 w)) else none
  else if nbits = 17 ∨ nbits = 24 then
    if w < 2 ^ 17 then (decodeTxd (BitVec.ofNat 17 w)).toOption else none
  else none

/-! ## Encoding -/

/-- The select byte SEL: the direction in bit 7, the virtual address below it (R92, R98). -/
def selectByte (write : Bool) (a : VAddr) : Byte := BitVec.ofBool write ++ a

/-- A command word: its upper byte is the select byte, its lower byte the data field (R91). -/
def encodeCmd (write : Bool) (a : VAddr) (d : Byte) : CmdWord := selectByte write a ++ d

/-- A descriptor from its three fields (R96). -/
def encodeTxd (write : Bool) (reg data : Byte) : Txd := BitVec.ofBool write ++ reg ++ data

/-- The encoder. The absent data field of a read descriptor is written as zero. -/
def encode : Instr → Encoded
  | .rdv a x => .cmd (encodeCmd false a x)
  | .wrv a d => .cmd (encodeCmd true a d)
  | .prdStatus => .txd (encodeTxd false Config.regStatus 0#8)
  | .prdRead => .txd (encodeTxd false Config.regRead 0#8)
  | .pwrWrite v => .txd (encodeTxd true Config.regWrite v)

/-- A command word as bytes, the select byte first (R108). -/
def cmdBytes (w : CmdWord) : List Byte := [w.extractLsb' 8 8, w.extractLsb' 0 8]

/-- What a command puts on the wire to WRITE: one byte for a read, the select byte and the data byte for a write (R105).
A micro-operation puts a byte there only when it is the write of one. -/
def wireBytes : Instr → List Byte
  | .rdv a _ => [selectByte false a]
  | .wrv a d => [selectByte true a, d]
  | .prdStatus => []
  | .prdRead => []
  | .pwrWrite v => [v]

end Sys2Proof
end

