-- ==== Sys2Proof/Machine/Types.lean ====
section
/-! DEFINITION. The data types State is made of: phases, responses, events, transactions (the controller's side), the
device and its environment, the host agent. -/

namespace Sys2Proof.Machine

/-! ## The controller's side -/

/-- The 15 legal values of PHASE, named as R97 names them. Value 15 has no constructor (R103). -/
inductive Phase where
  | idle
  | r1Stat
  | r1Flush
  | r2Poll
  | r2Wait
  | r3Sel
  | r4Poll
  | r4Wait
  | r5Data
  | w1Poll
  | w1Wait
  | w2Sel
  | w3Poll
  | w3Wait
  | w4Data
deriving DecidableEq, Repr

/-- The two conditions the block raises (R220). -/
inductive Err where
  /-- A transaction failed (R221). -/
  | busError
  /-- A poll loop reached its limit (R222). -/
  | timeout
deriving DecidableEq, Repr

/-- A response, as the data type of R95. -/
inductive Rsp where
  | okRd (b : Byte)
  | okWr
  | err (e : Err)
deriving DecidableEq, Repr

/-- A physical-register transaction the controller performs (R150, R151, R152); no other exists (R153). -/
inductive Tx where
  | status
  | read
  | write (v : Byte)
deriving DecidableEq, Repr

/-- The kind of a transaction, as the event `FAIL(k)` names it (R22). -/
inductive TxKind where
  | rs
  | rr
  | ww
deriving DecidableEq, Repr

/-- The event alphabet of R22. -/
inductive Event where
  | acc (c : CmdWord)
  | rs (s : Byte)
  | rr (b : Byte)
  | ww (v : Byte)
  | dly
  | fail (k : TxKind)
  | rsp (x : Rsp)
deriving DecidableEq, Repr

/-! ## The device and its environment -/

/-- The virtual registers as memory: address and byte, addresses rising, no byte equal to what an unlisted address reads
as (R45, R63, R203). -/
abbrev Memory := List Host.Cell

/-- The reference echo device (R203). STATUS is not stored: TX_VALID is `inbox ≠ none`, RX_VALID is `rxv` (R204). -/
structure Red where
  /-- `VR[0..127]`. -/
  vr : Memory
  /-- `INBOX`: the byte written to WRITE and not yet consumed (R41, R51). -/
  inbox : Option Byte
  /-- `WPEND`: the address of a pending write-select (R49). -/
  wpend : Option VAddr
  /-- `RPEND`: the address of a read-select whose result is not yet produced. -/
  rpend : Option VAddr
  /-- `RBUF`: the content of READ (R44). -/
  rbuf : Byte
  /-- `RXV`: RX_VALID (R42). -/
  rxv : Bool
  /-- `OVERRUN`, sticky (R207). -/
  overrun : Bool
  /-- Transaction boundaries at which `CONSUME` was enabled and did not fire (R210, lazy-k). -/
  ageConsume : Nat
  /-- The same for `PRODUCE`. -/
  ageProduce : Nat
deriving DecidableEq, Repr

/-- The internal steps of the reference device (R208, R209). -/
inductive DevStep where
  | consume
  | produce
deriving DecidableEq, Repr

/-- Which environment answers: the unconstrained oracle (R200) or the reference echo device (R202). -/
inductive EnvMode where
  | oracle
  | red
deriving DecidableEq, Repr

/-- The environment's choice for one transaction. -/
structure Choice where
  /-- Device steps fired just before the transaction, in this order (R210); `none` leaves them to the scheduler.
  The oracle has no device steps. -/
  fire : Option (List DevStep)
  /-- The answer. The reference device answers a completed read itself and ignores the byte here. -/
  reply : BusReply
  /-- The reset input is asserted while the transaction is in flight (R252). -/
  reset : Bool
deriving DecidableEq, Repr

/-- The environment of the block: R200 to R211. -/
structure Env where
  mode : EnvMode
  /-- The choices for the next transactions; when it is empty the oracle answers with free values and the reference
  device without failing. -/
  script : List Choice
  /-- The device's moves while the controller is IDLE and the host has nothing to do, one a step, in this order: an
  internal step, or none (R210). When it is empty the device steps `CONSUME` first until it is quiescent. -/
  idle : List (Option DevStep)
  /-- Transactions so far: the index of the free values. -/
  tx : Nat
  /-- The scheduler's `k`: 0 is eager (R210). -/
  lazyK : Nat
  red : Red
deriving DecidableEq, Repr

/-! ## The host agent (outside the block, R7) -/

/-- The Device Model operations (R167 to R182), with the arguments as the caller gives them. -/
inductive ConsumerOp where
  | sensorType
  | temperatureCelsius
  | setIndicatorLED (on : Bool)
  | setIndicatorCurrent (level : Int)
  | setBulbLED (on : Bool)
  | setBulbCurrent (level : Int)
  | setGain (level : Int)
  | setMeasurementMode (mode : Int)
  | setIntegrationTime (value : Int)
  | dataReady
  | clearDataReady
  | triggerOneShotAsync
  | triggerOneShotSync
  | rawChannel (i : Fin 6)
  | calibratedChannel (i : Fin 6)
  | allCalibratedChannels
deriving DecidableEq, Repr

/-- One command of an operation's expansion (R165, R166). -/
inductive HostCmd where
  /-- `RDV a`. -/
  | rd (a : VAddr)
  /-- `WRV a, d`. -/
  | wr (a : VAddr) (d : Byte)
  /-- The write of a read-modify-write: `WRV a, (old & ~mask) | ((val << shift) & mask)`, `old` the byte read last. -/
  | wrField (a : VAddr) (mask : Byte) (shift : Nat) (val : Byte)
deriving DecidableEq, Repr

/-- What a Device Model operation gives its caller. -/
inductive HostResult where
  | byte (b : Byte)
  | celsius (t : Int)
  | ready (b : Bool)
  | raw (v : BitVec 16)
  /-- The bit pattern of an IEEE-754 single (R185). -/
  | single (bits : BitVec 32)
  | singles (l : List (BitVec 32))
  | done
  /-- Returned after the heuristic wait of R179, in milliseconds. -/
  | waited (ms : Nat)
  /-- A command of the operation answered `ERR` (R165). -/
  | error (e : Err)
  /-- Rejected by a clamp policy (R173, R174, R223). -/
  | invalidArgument
  /-- An argument for which the spec defines no operation (U15); no command was issued. -/
  | outOfDomain
  /-- The host reset the controller while the operation waited for a response (R252). -/
  | abandoned
deriving DecidableEq, Repr

/-- What the host will do: offer a command word, or run an operation. -/
inductive HostItem where
  | cmd (w : CmdWord)
  | op (o : ConsumerOp)
deriving DecidableEq, Repr

/-- An operation in progress. -/
structure Running where
  op : ConsumerOp
  /-- Its commands not yet offered. -/
  rest : List HostCmd
  /-- The bytes it has read, oldest first. -/
  got : List Byte
deriving DecidableEq, Repr

/-- The host agent. -/
structure HostAgent where
  todo : List HostItem
  running : Option Running
  /-- Results, newest first. -/
  results : List HostResult
  /-- The reset input as the host drives it at the steps to come, one entry a step; past its end the input is not asserted
  (R272: at any time). -/
  resets : List Bool
deriving DecidableEq, Repr

end Sys2Proof.Machine
end

