-- ==== Sys2Proof/Machine/State.lean ====
section
/-! DEFINITION. The state of the machine, its faults and refusals, and the state after reset (10_state.md R30 to R53,
70_reset_and_hazards.md R250). INVENTORY.md lists every field with the rule that names it. -/

namespace Sys2Proof.Machine

/-- Why the machine stops with a fault. -/
inductive Fault where
  /-- The reference device's run is marked faulted: a byte was written to WRITE while its inbox was full, and 'the RED
  defines nothing after that' (R207, U1). Raised by `step`, never by an instruction. Safe. -/
  | redOverrun
deriving DecidableEq, Repr

/-- Why an instruction has no meaning where it stands. -/
inductive Refusal where
  /-- The instruction of this mnemonic has no meaning in the model yet. Raised by `exec` alone. Safe. -/
  | notModelled (mnemonic : String)
  /-- A micro-operation in a phase that does not issue it: it is no step of the machine (R4, R128, R150 to R152). Raised
  by the three micro-operations' meanings, never by `step`. Safe. -/
  | notIssuedInPhase
  /-- A descriptor the bus capability does not know (R102, R153). Raised by `step`; the sequencer issues none. Safe. -/
  | noSuchTransaction
deriving DecidableEq, Repr

/-- The state: the controller's seven registers (R30), the instance's parameters, the ports, the record of what was
observed (R22), and the agents around the controller (R25). -/
structure State where
  /-- `PHASE` (R31). -/
  phase : Phase
  /-- `DIR`, true for a write (R32). -/
  dir : Bool
  /-- `VADDR` (R33). -/
  vaddr : VAddr
  /-- `WDATA` (R34). -/
  wdata : Byte
  /-- `STAT` (R35). -/
  stat : Byte
  /-- `RDATA` (R36). -/
  rdata : Byte
  /-- `POLLS` (R37). -/
  polls : Nat
  /-- The parameters of this instance (R10, R16). -/
  params : Params
  /-- The command port: the word the host offers, if any (R120). -/
  port : Option CmdWord
  /-- The response port: the response delivered to the last command, until the next command is accepted (R122). -/
  rsp : Option Rsp
  /-- The reset input, asserted at the next step (R250); the host drives it at steps to come by `HostAgent.resets`. -/
  resetReq : Bool
  /-- Descriptors handed to the bus capability, each with the device address that accompanies it (R96), newest first. -/
  bus : List (DevAddr × Txd)
  /-- The events so far (R22), newest first. -/
  trace : List Event
  /-- The device and the bus (R195 to R211). -/
  env : Env
  /-- The host (R120, R165, R272). -/
  host : HostAgent
deriving DecidableEq, Repr

/-- The reference device with nothing in it. The spec gives the device no reset values (R54); log 9. -/
def Red.blank : Red :=
  { vr := [], inbox := none, wpend := none, rpend := none, rbuf := 0#8, rxv := false, overrun := false,
    ageConsume := 0, ageProduce := 0 }

/-- The machine right after reset (R53, R250): IDLE, no polls, nothing pending, the parameters at their defaults, the
unconstrained environment. DIR, VADDR, WDATA, STAT and RDATA have no value in the spec: DESIGN CHOICE zero, log 1. -/
def State.reset : State :=
  { phase := .idle
    dir := false
    vaddr := 0#7
    wdata := 0#8
    stat := 0#8
    rdata := 0#8
    polls := 0
    params := Params.default
    port := none
    rsp := none
    resetReq := false
    bus := []
    trace := []
    env := { mode := .oracle, script := [], idle := [], tx := 0, lazyK := 0, red := Red.blank }
    host := { todo := [], running := none, results := [], resets := [] } }

end Sys2Proof.Machine
end

