-- ==== Sys2Proof/Machine/Flags.lean ====
section
/-! DEFINITION. The two flags of the STATUS byte (10_state.md R40 to R42, R55; 30_encoding.md R94, R98, R101): their
tests, and the byte the reference device shows. The controller has no flag of its own (R38). -/

namespace Sys2Proof.Machine

/-- RX_VALID, bit 0 of a STATUS byte: a read result is available (R42). Bits 7:2 are not looked at (R101). -/
def rxValid (s : Byte) : Bool := s.getLsbD 0

/-- TX_VALID, bit 1 of a STATUS byte: the device has not consumed the last byte written (R41). -/
def txValid (s : Byte) : Bool := s.getLsbD 1

/-- The exit test of `POLL(1, 0)`: TX_VALID is clear (R98, R124). -/
def txClear (s : Byte) : Bool := !txValid s

/-- TX_VALID of the reference device: a byte is unconsumed (R203). -/
def Red.txValid (r : Red) : Bool := r.inbox.isSome

/-- STATUS of the reference device; bits 7:2 are zero, a property of the reference device only (R204). -/
def Red.status (r : Red) : Byte :=
  (if r.txValid then 0x02#8 else 0x00#8) ||| (if r.rxv then 0x01#8 else 0x00#8)

end Sys2Proof.Machine
end

