-- ==== Sys2Proof/Machine/Operands.lean ====
section
/-! DEFINITION. The encoded objects at the block's ports: phase numbers, response words, transaction descriptors and
their lowering to the raw bus capability (30_encoding.md R95 to R97, 41_physical_transactions.md R159, R160). The
select byte, the only operand the controller assembles (R98), stands in Decode.lean. -/

namespace Sys2Proof.Machine

/-! ## Phase numbers -/

/-- The number of a phase (R97). -/
def Phase.number : Phase → BitVec 4
  | .idle => 0#4
  | .r1Stat => 1#4
  | .r1Flush => 2#4
  | .r2Poll => 3#4
  | .r2Wait => 4#4
  | .r3Sel => 5#4
  | .r4Poll => 6#4
  | .r4Wait => 7#4
  | .r5Data => 8#4
  | .w1Poll => 9#4
  | .w1Wait => 10#4
  | .w2Sel => 11#4
  | .w3Poll => 12#4
  | .w3Wait => 13#4
  | .w4Data => 14#4

/-- Every phase, in the order of its number. -/
def Phase.all : List Phase :=
  [.idle, .r1Stat, .r1Flush, .r2Poll, .r2Wait, .r3Sel, .r4Poll, .r4Wait, .r5Data, .w1Poll, .w1Wait, .w2Sel, .w3Poll,
    .w3Wait, .w4Data]

/-- The phase of a number; 15 is reserved and names none (R97, R103). -/
def Phase.ofNumber (n : BitVec 4) : Option Phase := Phase.all[n.toNat]?

/-! ## Responses -/

/-- RSP.CODE: 0 OK, 1 BUS_ERROR, 2 TIMEOUT; 3 is never produced (R95, R104). -/
def Rsp.code : Rsp → BitVec 2
  | .okRd _ => 0#2
  | .okWr => 0#2
  | .err .busError => 1#2
  | .err .timeout => 2#2

/-- The response word: CODE, then RDATA, which is defined only for a successful read (R95); elsewhere it is `free`. -/
def Rsp.word (free : Byte) : Rsp → RspWord
  | .okRd b => (Rsp.okRd b).code ++ b
  | .okWr => Rsp.okWr.code ++ free
  | .err e => (Rsp.err e).code ++ free

/-- The word at the response port, if a response is there. Where RDATA holds no value it is a free value (log 15). -/
def State.rspWord (s : State) : Option RspWord := s.rsp.map (Rsp.word (Config.freeRspData s.env.tx))

/-! ## Transactions -/

/-- The descriptor of a transaction (R96). -/
def Tx.descriptor : Tx → Txd
  | .status => encodeTxd false Config.regStatus 0#8
  | .read => encodeTxd false Config.regRead 0#8
  | .write v => encodeTxd true Config.regWrite v

/-- The kind that `FAIL(k)` names (R22). -/
def Tx.kind : Tx → TxKind
  | .status => .rs
  | .read => .rr
  | .write _ => .ww

/-- The event of a completed transaction; `b` is the byte a read returned (R22). -/
def Tx.event (t : Tx) (b : Byte) : Event :=
  match t with
  | .status => .rs b
  | .read => .rr b
  | .write v => .ww v

/-- A call of the raw bus capability (R155). -/
inductive RawCall where
  | write (dev : DevAddr) (bytes : List Byte)
  | read (dev : DevAddr) (count : Nat)
deriving DecidableEq, Repr

/-- The raw calls of a transaction that completes, by the register-pointer convention the spec supplies from general
knowledge (R159, R160). No step of the machine depends on it. -/
def Tx.rawCalls (dev : DevAddr) : Tx → List RawCall
  | .status => [.write dev [Config.regStatus], .read dev 1]
  | .read => [.write dev [Config.regRead], .read dev 1]
  | .write v => [.write dev [Config.regWrite, v]]

end Sys2Proof.Machine
end

