-- ==== Sys2Proof/Machine/Ops.lean ====
section
/-! DEFINITION. The named operations over memory and registers, and the block's one way of taking an exception. There is
no return from an exception (60_exceptions.md R229): after the error response the controller is in IDLE and accepts the
next command as after a success. -/

namespace Sys2Proof.Machine

/-! ## The virtual registers as memory (R45, R203) -/

/-- What an unlisted virtual register of the reference device reads as (R211). -/
def Memory.unlisted : Byte := 0x00#8

/-- The byte at an address. -/
def Memory.read : Memory → Nat → Byte
  | [], _ => Memory.unlisted
  | (k, v) :: m, a => if a = k then v else Memory.read m a

/-- Put a byte at the head, unless it is what an unlisted address reads as. -/
def Memory.put (a : Nat) (b : Byte) (m : Memory) : Memory :=
  if b = Memory.unlisted then m else (a, b) :: m

/-- Write a byte, keeping the canonical form. -/
def Memory.write : Memory → Nat → Byte → Memory
  | [], a, b => Memory.put a b []
  | (k, v) :: m, a, b =>
    if a < k then Memory.put a b ((k, v) :: m)
    else if a = k then Memory.put a b m
    else (k, v) :: Memory.write m a b

/-- The canonical form of what stands at addresses `lo` and above: rising, below 128, no unlisted byte. -/
def Memory.wfFrom (lo : Nat) : Memory → Bool
  | [] => true
  | (k, v) :: m => decide (lo ≤ k) && decide (k < 128) && decide (v ≠ Memory.unlisted) && Memory.wfFrom (k + 1) m

/-- The canonical form of the virtual registers. -/
def Memory.wf (m : Memory) : Bool := Memory.wfFrom 0 m

/-! ## The sequencer's small moves (R21, R131) -/

/-- Record an event (R22). -/
def State.emit (e : Event) (s : State) : State := { s with trace := e :: s.trace }

/-- `PHASE <- p`. -/
def State.goto (p : Phase) (s : State) : State := { s with phase := p }

/-- `PHASE <- p` and `POLLS <- 0`: a poll loop entered from outside (R37, R124). -/
def State.enterLoop (p : Phase) (s : State) : State := { s with phase := p, polls := 0 }

/-- `respond(x)`: deliver a response and return to IDLE (R21, R122). -/
def State.respond (x : Rsp) (s : State) : State := { s with rsp := some x, phase := .idle, trace := .rsp x :: s.trace }

/-- Taking an exception, `raise BUS_ERROR` or `raise TIMEOUT`: the error response, and PHASE to IDLE. Nothing is saved,
nothing restored, no handler entered, nothing done on the bus (R225, R226). -/
def State.abort (e : Err) (s : State) : State := s.respond (.err e)

/-- The first phase of a command, by its direction (R121). -/
def firstPhase (write : Bool) : Phase := if write then .w1Poll else .r1Stat

/-- Accepting a command: one step, no transaction; `POLLS <- 0` on entry to the write's first loop (R121, R131). -/
def State.accept (write : Bool) (a : VAddr) (d : Byte) (s : State) : State :=
  { s with
    dir := write
    vaddr := a
    wdata := d
    phase := firstPhase write
    polls := if write then 0 else s.polls
    port := none
    rsp := none
    trace := .acc (encodeCmd write a d) :: s.trace }

/-- `POLL_LIMIT = n and POLLS >= n` (R124, R131). -/
def limitReached (limit : Option Nat) (polls : Nat) : Bool :=
  match limit with
  | none => false
  | some n => decide (n ≤ polls)

/-! ## Reset (R250, R252, R272) -/

/-- The reset input acts at this step: it stands asserted, or the host asserts it now (R272). -/
def State.resetDue (s : State) : Bool := s.resetReq || s.host.resets.head?.getD false

/-- The host's entry for this step is used up. -/
def State.tick (s : State) : State := { s with host := { s.host with resets := s.host.resets.tail } }

/-- The host's operation in progress loses its response when the controller is reset: it is abandoned unless its command
is still only offered. -/
def State.abandonedHost (s : State) : HostAgent :=
  if s.phase ≠ .idle ∨ s.port = none then
    match s.host.running with
    | some _ => { s.host with running := none, results := .abandoned :: s.host.results }
    | none => s.host
  else s.host

/-- The effect of the reset input: IDLE, `POLLS` 0, the latches as after `State.reset`, no response pending, the command in
progress abandoned without a response. The parameters, the device and an offered command stay; nothing is sent on the
bus and no event occurs. -/
def State.applyReset (s : State) : State :=
  { s with
    phase := State.reset.phase
    dir := State.reset.dir
    vaddr := State.reset.vaddr
    wdata := State.reset.wdata
    stat := State.reset.stat
    rdata := State.reset.rdata
    polls := State.reset.polls
    rsp := State.reset.rsp
    resetReq := false
    host := s.abandonedHost }

end Sys2Proof.Machine
end

