-- ==== Sys2Proof/Machine/Device.lean ====
section
/-! DEFINITION. The other side of the bus (43_device_environment.md): the reference echo device's reactions and internal
steps, its schedulers, the oracle, and one transaction as the environment plays it. -/

namespace Sys2Proof.Machine

/-! ## The reference echo device -/

/-- `CONSUME` (R208), where a byte is in the inbox; elsewhere it is not enabled and nothing changes. -/
def Red.consume (r : Red) : Red :=
  match r.inbox with
  | none => r
  | some v =>
    match r.wpend with
    | some a => { r with vr := Memory.write r.vr a.toNat v, wpend := none, inbox := none, ageConsume := 0 }
    | none =>
      if v.getLsbD 7 then { r with wpend := some (v.extractLsb' 0 7), inbox := none, ageConsume := 0 }
      else { r with rpend := some (v.extractLsb' 0 7), inbox := none, ageConsume := 0 }

/-- `PRODUCE` (R209), where a read-select awaits its result; elsewhere it is not enabled and nothing changes. -/
def Red.produce (r : Red) : Red :=
  match r.rpend with
  | none => r
  | some a => { r with rbuf := Memory.read r.vr a.toNat, rxv := true, rpend := none, ageProduce := 0 }

/-- One internal step. -/
def Red.fire (d : DevStep) (r : Red) : Red :=
  match d with
  | .consume => r.consume
  | .produce => r.produce

/-- Internal steps in the order of the list. -/
def Red.fireAll : List DevStep → Red → Red
  | [], r => r
  | d :: ds, r => Red.fireAll ds (r.fire d)

/-- The scheduler at a transaction boundary, `CONSUME`: it fires once it has been enabled at `k` earlier boundaries. -/
def Red.schedConsume (k : Nat) (r : Red) : Red :=
  if r.inbox.isSome then
    if k ≤ r.ageConsume then r.consume else { r with ageConsume := r.ageConsume + 1 }
  else r

/-- The same for `PRODUCE`. -/
def Red.schedProduce (k : Nat) (r : Red) : Red :=
  if r.rpend.isSome then
    if k ≤ r.ageProduce then r.produce else { r with ageProduce := r.ageProduce + 1 }
  else r

/-- The deterministic schedulers of R210 at one boundary; `k = 0` is eager, which fires `CONSUME` before `PRODUCE`. DESIGN
CHOICE (log 32): the same order under lazy-k for `k > 0` where both are due at one boundary, which R210 leaves open. -/
def Red.boundary (k : Nat) (r : Red) : Red := (r.schedConsume k).schedProduce k

/-- Quiescent: neither internal step is enabled (R212). -/
def Red.quiescent (r : Red) : Bool := r.inbox.isNone && r.rpend.isNone

/-- One internal step while nothing else happens, `CONSUME` first. -/
def Red.drain (r : Red) : Red := if r.inbox.isSome then r.consume else r.produce

/-- The byte the device answers to a read (R205, R206); a write answers nothing. -/
def Red.answer (r : Red) : Tx → Byte
  | .status => r.status
  | .read => r.rbuf
  | .write _ => 0x00#8

/-- What a transaction does to the device: a STATUS read nothing (R205), a READ read clears RXV and keeps RBUF (R206), a
write fills the inbox, or breaks the run if it is full (R207). -/
def Red.effect (r : Red) : Tx → Red
  | .status => r
  | .read => { r with rxv := false }
  | .write v =>
    match r.inbox with
    | none => { r with inbox := some v }
    | some _ => { r with overrun := true }

/-! ## One transaction -/

/-- How a transaction ends for the controller: it completes with a byte (a write's byte is not used), it fails (R158), or
the reset input cuts it off (R252). -/
inductive TxResult where
  | done (b : Byte)
  | failed
  | reset
deriving DecidableEq, Repr

/-- Whether a transaction with this reply took effect on the device: a failed one may or may not have (R161). -/
def BusReply.took : BusReply → Bool
  | .ok _ => true
  | .fail took => took

/-- The environment's choice for the next transaction: the script's, or else a free value from the oracle, or else a
completion by the reference device, which never fails a transaction (R214). -/
def Env.choice (e : Env) : Choice :=
  match e.script with
  | c :: _ => c
  | [] =>
    match e.mode with
    | .oracle => { fire := none, reply := Config.freeReply e.tx, reset := false }
    | .red => { fire := none, reply := .ok 0x00#8, reset := false }

/-- The reference device just before a transaction: the choice's internal steps, or the scheduler's (R210). -/
def Env.redBefore (e : Env) : Red :=
  match e.choice.fire with
  | some ds => Red.fireAll ds e.red
  | none => Red.boundary e.lazyK e.red

/-- The environment as a transaction begins: the choice is taken, the count advanced, the reference device's internal
steps fired. The oracle has none and knows of no device. -/
def Env.begin (e : Env) : Env :=
  { e with
    script := e.script.tail
    tx := e.tx + 1
    red := match e.mode with
      | .oracle => e.red
      | .red => e.redBefore }

/-- The environment after a transaction. -/
def Env.after (e : Env) (t : Tx) : Env :=
  match e.mode with
  | .oracle => e.begin
  | .red => { e.begin with red := if BusReply.took e.choice.reply then e.begin.red.effect t else e.begin.red }

/-- How the transaction ends. Under the oracle any byte may answer any read (R200). -/
def Env.result (e : Env) (t : Tx) : TxResult :=
  if e.choice.reset then .reset
  else
    match e.choice.reply with
    | .fail _ => .failed
    | .ok b =>
      match e.mode with
      | .oracle => .done b
      | .red => .done (e.begin.red.answer t)

/-- The reference device's move in IDLE: the environment's, in any order of the two steps or neither (R210). DESIGN CHOICE
(log 10): where the environment orders none, `CONSUME` first until the device is quiescent (R212). -/
def Env.redIdle (e : Env) : Red :=
  match e.idle with
  | some d :: _ => e.red.fire d
  | none :: _ => e.red
  | [] => e.red.drain

/-- The device while no transaction happens and the host has nothing to do: one move of the reference device. -/
def Env.drain (e : Env) : Env :=
  match e.mode with
  | .oracle => e
  | .red => { e with idle := e.idle.tail, red := e.redIdle }

/-- The run is marked faulted (R207). -/
def Env.overrun (e : Env) : Bool :=
  match e.mode with
  | .oracle => false
  | .red => e.red.overrun

/-! ## The controller's side of a transaction -/

/-- The state after a transaction has been handed to the bus capability and has ended there, before the controller acts
on the result (R96, R154). -/
def State.afterTx (t : Tx) (s : State) : State :=
  { s with env := s.env.after t, bus := (s.params.devAddr, t.descriptor) :: s.bus }

/-- One transaction: on completion its event and then `onDone`; on failure the events `FAIL(k) RSP(ERR(BUS_ERROR))` and
IDLE (R225); under reset the command is gone (R252). DESIGN CHOICE (log 31): a transaction cut off by reset records no
event, where the spec counts it as failed with unknown effect and does not say whether `FAIL(k)` occurs. -/
def State.transact (t : Tx) (onDone : Byte → State → State) (s : State) : State :=
  match s.env.result t with
  | .done b => onDone b ((s.afterTx t).emit (t.event b))
  | .failed => ((s.afterTx t).emit (.fail t.kind)).abort .busError
  | .reset => (s.afterTx t).applyReset

end Sys2Proof.Machine
end

