-- ==== Sys2Proof/Machine/Commands.lean ====
section
/-! DEFINITION. The two commands (40_transport_commands.md R120, R121, R125, R126). The meaning of a command word is its
acceptance, which is one whole step of the machine (R9, R121); the transactions of the command are the steps that
follow (R131), each an instruction of Machine/Transactions.lean or a delay. -/

namespace Sys2Proof.Machine

/-- A command offered in IDLE is accepted; in any other phase it is not accepted and not lost: the host is held and
nothing changes (R120). -/
def State.offer (write : Bool) (a : VAddr) (d : Byte) (s : State) : State :=
  match s.phase with
  | .idle => s.accept write a d
  | _ => s

/-- `RDV a` (R125). The ignored field is latched like a data byte (R34, R100). -/
def execRdv (a : VAddr) (x : Byte) (s : State) : Host.Outcome State Fault Refusal :=
  .next (s.offer false a x)

/-- `WRV a, d` (R126). -/
def execWrv (a : VAddr) (d : Byte) (s : State) : Host.Outcome State Fault Refusal :=
  .next (s.offer true a d)

end Sys2Proof.Machine
end

