-- ==== Sys2Proof/Machine/Transactions.lean ====
section
/-! DEFINITION. The three micro-operations (41_physical_transactions.md R150 to R152), each as the rows of
40_transport_commands.md R131 that issue it: the transaction, and what the sequencer does with its result. In a phase
that does not issue it a micro-operation is no step of the machine (R4, R128) and is refused by name. -/

namespace Sys2Proof.Machine

/-- The rest of a poll after its sample `b`: `STAT <- b`, `POLLS <- POLLS + 1`, then the exit test, the limit, the delay,
in this order (R124, R227). -/
def State.afterPoll (pass : Byte → Bool) (exit wait : Phase) (b : Byte) (s : State) : State :=
  let s := { s with stat := b, polls := s.polls + 1 }
  if pass s.stat then s.goto exit
  else if limitReached s.params.pollLimit s.polls then s.abort .timeout
  else s.goto wait

/-- Row R1_STAT after its sample: RX_VALID set means a stale result to discard; TX_VALID is not looked at (R125). -/
def State.afterFirstLook (b : Byte) (s : State) : State :=
  let s := { s with stat := b }
  if rxValid s.stat then s.goto .r1Flush else s.enterLoop .r2Poll

/-- Row R1_FLUSH: the byte is thrown away (R36, R125). -/
def State.afterFlush (_b : Byte) (s : State) : State := s.enterLoop .r2Poll

/-- Row R5_DATA: `RDATA <- b`, and the response (R125). -/
def State.afterData (b : Byte) (s : State) : State := { s with rdata := b }.respond (.okRd b)

/-- `PRD STATUS` (R150). -/
def execPrdStatus (s : State) : Host.Outcome State Fault Refusal :=
  match s.phase with
  | .r1Stat => .next (s.transact .status State.afterFirstLook)
  | .r2Poll => .next (s.transact .status (State.afterPoll txClear .r3Sel .r2Wait))
  | .r4Poll => .next (s.transact .status (State.afterPoll rxValid .r5Data .r4Wait))
  | .w1Poll => .next (s.transact .status (State.afterPoll txClear .w2Sel .w1Wait))
  | .w3Poll => .next (s.transact .status (State.afterPoll txClear .w4Data .w3Wait))
  | _ => .refused .notIssuedInPhase

/-- `PRD READ` (R151). -/
def execPrdRead (s : State) : Host.Outcome State Fault Refusal :=
  match s.phase with
  | .r1Flush => .next (s.transact .read State.afterFlush)
  | .r5Data => .next (s.transact .read State.afterData)
  | _ => .refused .notIssuedInPhase

/-- `PWR WRITE, v` (R152). -/
def execPwrWrite (v : Byte) (s : State) : Host.Outcome State Fault Refusal :=
  match s.phase with
  | .r3Sel => .next (s.transact (.write v) fun _ s => s.enterLoop .r4Poll)
  | .w2Sel => .next (s.transact (.write v) fun _ s => s.enterLoop .w3Poll)
  | .w4Data => .next (s.transact (.write v) fun _ s => s.respond .okWr)
  | _ => .refused .notIssuedInPhase

end Sys2Proof.Machine
end

