-- ==== Sys2Proof/Machine/Dispatch.lean ====
section
/-! DEFINITION. One arm per instruction. -/

namespace Sys2Proof.Machine

def exec (i : Instr) (s : State) : Host.Outcome State Fault Refusal :=
  match i with
  | .rdv a x => Sys2Proof.Machine.execRdv a x s
  | .wrv a d => Sys2Proof.Machine.execWrv a d s
  | .prdStatus => Sys2Proof.Machine.execPrdStatus s
  | .prdRead => Sys2Proof.Machine.execPrdRead s
  | .pwrWrite v => Sys2Proof.Machine.execPwrWrite v s

end Sys2Proof.Machine
end

