-- ==== Sys2Proof/Machine/Consumer.lean ====
section
/-! DEFINITION. The host agent and the Device Model operations (42_consumer_sequences.md): each operation is a list of
commands with host arithmetic between them. Outside the block (R7): the controller does not depend on this file. -/

namespace Sys2Proof.Machine

/-! ## The expansions -/

/-- `new = (old & ~mask) | ((val << shift) & mask)`, 8-bit arithmetic (R166). -/
def fieldUpdate (old mask : Byte) (shift : Nat) (val : Byte) : Byte := (old &&& ~~~mask) ||| ((val <<< shift) &&& mask)

/-- `RMW(a, mask, shift, val)` (R166): the write is issued even when nothing changes. -/
def rmw (a : VAddr) (mask : Byte) (shift : Nat) (val : Byte) : List HostCmd := [.rd a, .wrField a mask shift val]

/-- What an operation does: commands, or none at all where it is rejected or not defined. -/
inductive Plan where
  | run (cmds : List HostCmd)
  | reject
  | outOfDomain
deriving DecidableEq, Repr

/-- A level or mode in 0..3. -/
def inField (v : Int) : Bool := decide (0 ≤ v) && decide (v ≤ 3)

/-- A field setter with a clamp policy for values outside 0..3 (R173, R174). -/
def clampedRmw (c : Clamp) (a : VAddr) (mask : Byte) (shift : Nat) (v : Int) : Plan :=
  if inField v then .run (rmw a mask shift (BitVec.ofInt 8 v))
  else
    match c with
    | .toZero => .run (rmw a mask shift 0#8)
    | .toThree => .run (rmw a mask shift 3#8)
    | .reject => .reject

/-- A field setter defined for 0..3 only (R170, R172, U15). -/
def domainRmw (a : VAddr) (mask : Byte) (shift : Nat) (v : Int) : Plan :=
  if inField v then .run (rmw a mask shift (BitVec.ofInt 8 v)) else .outOfDomain

/-- The one-shot mode as a byte: the parameter, or the free value where it is open (R178). -/
def oneShotMode (p : Params) : Byte := (p.oneShotMode.getD Config.oneShotMode).setWidth 8

/-- `triggerOneShotAsync`'s four commands (R178). -/
def triggerCmds (p : Params) : List HostCmd := rmw 0x04#7 0x02#8 1 0#8 ++ rmw 0x04#7 0x0C#8 2 (oneShotMode p)

/-- The four reads of a calibrated channel, in address order (R181). -/
def calibratedCmds (i : Nat) : List HostCmd :=
  [.rd (BitVec.ofNat 7 (0x14 + 4 * i)), .rd (BitVec.ofNat 7 (0x15 + 4 * i)), .rd (BitVec.ofNat 7 (0x16 + 4 * i)),
    .rd (BitVec.ofNat 7 (0x17 + 4 * i))]

/-- A Boolean as the value of a one-bit field. -/
def onOff (on : Bool) : Byte := if on then 1#8 else 0#8

/-- The expansion of every operation, with the masks and shifts of R183. DESIGN CHOICE (log 30): `triggerOneShotSync`
issues the commands of `triggerOneShotAsync` and no `RDV 0x05`, where R179 and N9 leave open whether the
`integrationTimeRegister` is read back or remembered by the host. -/
def plan (p : Params) : ConsumerOp → Plan
  | .sensorType => .run [.rd 0x01#7]
  | .temperatureCelsius => .run [.rd 0x06#7]
  | .setIndicatorLED on => .run (rmw 0x07#7 0x01#8 0 (onOff on))
  | .setIndicatorCurrent level => domainRmw 0x07#7 0x06#8 1 level
  | .setBulbLED on => .run (rmw 0x07#7 0x08#8 3 (onOff on))
  | .setBulbCurrent level => domainRmw 0x07#7 0x30#8 4 level
  | .setGain level => clampedRmw p.gainClamp 0x04#7 0x30#8 4 level
  | .setMeasurementMode mode => clampedRmw p.modeClamp 0x04#7 0x0C#8 2 mode
  | .setIntegrationTime v =>
    if 0 ≤ v ∧ v ≤ 255 then .run [.wr 0x05#7 (BitVec.ofInt 8 v)] else .outOfDomain
  | .dataReady => .run [.rd 0x04#7]
  | .clearDataReady => .run (rmw 0x04#7 0x02#8 1 0#8)
  | .triggerOneShotAsync => .run (triggerCmds p)
  | .triggerOneShotSync => .run (triggerCmds p)
  | .rawChannel i => .run [.rd (BitVec.ofNat 7 (0x08 + 2 * i.val)), .rd (BitVec.ofNat 7 (0x09 + 2 * i.val))]
  | .calibratedChannel i => .run (calibratedCmds i.val)
  | .allCalibratedChannels => .run ([0, 1, 2, 3, 4, 5].flatMap calibratedCmds)

/-! ## The results -/

/-- The signed or unsigned reading of the temperature byte (R168). -/
def celsius (p : Params) (b : Byte) : Int :=
  if p.tempSigned.getD Config.tempSigned then b.toInt else (b.toNat : Int)

/-- `hi * 256 + lo` (R180). -/
def rawValue (hi lo : Byte) : BitVec 16 := hi ++ lo

/-- The 32-bit pattern of four bytes, most significant first (R181). -/
def singleBits (b0 b1 b2 b3 : Byte) : BitVec 32 := b0 ++ b1 ++ b2 ++ b3

/-- Bytes taken four at a time (R182). -/
def singlesOf : List Byte → List (BitVec 32)
  | b0 :: b1 :: b2 :: b3 :: rest => singleBits b0 b1 b2 b3 :: singlesOf rest
  | _ => []

/-- The value of a finite IEEE-754 single as mantissa and binary exponent, by the layout of R185; none for an infinity or
a NaN. The machine only passes patterns through. -/
def singleValue (bits : BitVec 32) : Option (Int × Int) :=
  let negative := bits.getLsbD 31
  let e := (bits.extractLsb' 23 8).toNat
  let f := (bits.extractLsb' 0 23).toNat
  let sign : Int := if negative then -1 else 1
  if e = 255 then none
  else if e = 0 then some (sign * (f : Int), -149)
  else some (sign * ((2 ^ 23 + f : Nat) : Int), (e : Int) - 150)

/-- The `i`-th byte read. -/
def nth (got : List Byte) (i : Nat) : Byte := got.getD i 0#8

/-- The heuristic wait of `triggerOneShotSync`, in milliseconds: `integrationTimeRegister × 6`, the register's value
free (R179, log 18). -/
def oneShotWait (n : Nat) : Nat := (Config.integrationTimeRegister n).toNat * 6

/-- What an operation returns after its last command, from the bytes it read; `n` indexes the free value. -/
def finish (p : Params) (n : Nat) (o : ConsumerOp) (got : List Byte) : HostResult :=
  match o with
  | .sensorType => .byte (nth got 0)
  | .temperatureCelsius => .celsius (celsius p (nth got 0))
  | .setIndicatorLED _ => .done
  | .setIndicatorCurrent _ => .done
  | .setBulbLED _ => .done
  | .setBulbCurrent _ => .done
  | .setGain _ => .done
  | .setMeasurementMode _ => .done
  | .setIntegrationTime _ => .done
  | .dataReady => .ready ((nth got 0).getLsbD 1)
  | .clearDataReady => .done
  | .triggerOneShotAsync => .done
  | .triggerOneShotSync => .waited (oneShotWait n)
  | .rawChannel _ => .raw (rawValue (nth got 0) (nth got 1))
  | .calibratedChannel _ => .single (singleBits (nth got 0) (nth got 1) (nth got 2) (nth got 3))
  | .allCalibratedChannels => .singles (singlesOf got)

/-! ## The host's moves -/

/-- The byte read last, for a read-modify-write. -/
def lastByte (got : List Byte) : Byte := got.getLastD 0#8

/-- The command word of one command of an expansion, after the bytes read so far (R106, R166). -/
def HostCmd.word (got : List Byte) : HostCmd → CmdWord
  | .rd a => encodeCmd false a 0#8
  | .wr a d => encodeCmd true a d
  | .wrField a mask shift val => encodeCmd true a (fieldUpdate (lastByte got) mask shift val)

/-- End the operation in progress with a result. -/
def State.hostFinish (x : HostResult) (s : State) : State :=
  { s with host := { s.host with running := none, results := x :: s.host.results } }

/-- Offer the operation's next command, or end it. -/
def State.hostContinue (r : Running) (s : State) : State :=
  match r.rest with
  | [] => s.hostFinish (finish s.params s.env.tx r.op r.got)
  | c :: cs => { s with port := some (c.word r.got), host := { s.host with running := some { r with rest := cs } } }

/-- Begin an operation. -/
def State.hostStart (o : ConsumerOp) (s : State) : State :=
  match plan s.params o with
  | .run cmds => s.hostContinue { op := o, rest := cmds, got := [] }
  | .reject => s.hostFinish .invalidArgument
  | .outOfDomain => s.hostFinish .outOfDomain

/-- Take the response to the operation's last command: an error ends the sequence at once and goes to the caller (R165);
a byte read is kept. -/
def State.hostTake (r : Running) (x : Rsp) (s : State) : State :=
  match x with
  | .err e => { s with rsp := none }.hostFinish (.error e)
  | .okRd b => { s with rsp := none }.hostContinue { r with got := r.got ++ [b] }
  | .okWr => { s with rsp := none }.hostContinue r

/-- The host's move in IDLE with nothing offered: take a response, offer the next command, or begin the next item of its
list. With nothing to do, the device goes on by itself (R212) or nothing changes. -/
def State.hostTurn (s : State) : State :=
  match s.host.running with
  | some r =>
    match s.rsp with
    | some x => s.hostTake r x
    | none => s
  | none =>
    match s.host.todo with
    | .cmd w :: rest => { s with port := some w, host := { s.host with todo := rest } }
    | .op o :: rest => { s with host := { s.host with todo := rest } }.hostStart o
    | [] => { s with env := s.env.drain }

end Sys2Proof.Machine
end

