-- ==== Sys2Proof/Machine/Sequencer.lean ====
section
/-! DEFINITION. What the machine does next (40_transport_commands.md R120, R131): the word at the command port in IDLE,
the descriptor the phase issues, or a delay. This is the block's fetch: it has no instruction memory (R82). -/

namespace Sys2Proof.Machine

/-- The descriptor a phase hands to the bus capability (R131); IDLE and the waits hand over none. -/
def State.issued (s : State) : Option Txd :=
  match s.phase with
  | .idle => none
  | .r1Stat => some Tx.status.descriptor
  | .r1Flush => some Tx.read.descriptor
  | .r2Poll => some Tx.status.descriptor
  | .r2Wait => none
  | .r3Sel => some (Tx.write (selectByte false s.vaddr)).descriptor
  | .r4Poll => some Tx.status.descriptor
  | .r4Wait => none
  | .r5Data => some Tx.read.descriptor
  | .w1Poll => some Tx.status.descriptor
  | .w1Wait => none
  | .w2Sel => some (Tx.write (selectByte true s.vaddr)).descriptor
  | .w3Poll => some Tx.status.descriptor
  | .w3Wait => none
  | .w4Data => some (Tx.write s.wdata).descriptor

/-- What stands to be done. -/
inductive Fetched where
  /-- An encoded instruction: the offered command word, or the descriptor of the phase. -/
  | word (e : Encoded)
  /-- A delay between two polls. -/
  | delay
  /-- IDLE with nothing offered: the controller has no step (R131). -/
  | idle
deriving DecidableEq, Repr

/-- The fetch. -/
def State.fetch (s : State) : Fetched :=
  match s.phase with
  | .idle =>
    match s.port with
    | some w => .word (.cmd w)
    | none => .idle
  | _ =>
    match s.issued with
    | some t => .word (.txd t)
    | none => .delay

/-- The poll that follows a wait; the only backward transitions (R131). -/
def afterWait : Phase → Phase
  | .r2Wait => .r2Poll
  | .r4Wait => .r4Poll
  | .w1Wait => .w1Poll
  | .w3Wait => .w3Poll
  | p => p

/-- The rows `*_WAIT`: one delay, no transaction (R131, R268). -/
def State.delay (s : State) : State := (s.emit .dly).goto (afterWait s.phase)

/-- Place an encoded instruction where the next step takes it from: a command word at the port of an idle controller, a
micro-operation as a phase that issues it, with the byte of a write in WDATA (log 21). -/
def State.place (s : State) : Encoded → State
  | .cmd w => { s with phase := .idle, port := some w }
  | .txd t =>
    match decodeTxd t with
    | .ok .prdStatus => { s with phase := .r1Stat }
    | .ok .prdRead => { s with phase := .r5Data }
    | .ok (.pwrWrite v) => { s with phase := .w4Data, wdata := v }
    | .ok (.rdv _ _) => s
    | .ok (.wrv _ _) => s
    | .error _ => s

/-- The encoded object a table word stands for, by the table's widths. -/
def tableObject (nbits w : Nat) : Option Encoded :=
  if nbits = 16 then some (.cmd (BitVec.ofNat 16 w))
  else if nbits = 17 ∨ nbits = 24 then some (.txd (BitVec.ofNat 17 w))
  else none

/-- Place a table word, with the reset input released for good and the run not marked faulted, so that the next step runs
it. -/
def State.placeWord (s : State) (nbits w : Nat) : State :=
  match tableObject nbits w with
  | none => s
  | some e =>
    { s with
      resetReq := false
      host := { s.host with resets := [] }
      env := { s.env with red := { s.env.red with overrun := false } } }.place e

end Sys2Proof.Machine
end

