-- ==== Sys2Proof/Machine/Step.lean ====
section
/-! DEFINITION. One step of the machine (00_scope.md R9): a faulted run stops, the reset input acts, and otherwise the
phase decides: decode and run what is fetched, a delay, or the host's move. -/

namespace Sys2Proof.Machine

/-- What the machine does in a step without reset: run what is fetched. -/
def act (s : State) : Host.Outcome State Fault Refusal :=
  match s.fetch with
  | .word e =>
    match decode e with
    | .ok i => exec i s
    | .error _ => .refused .noSuchTransaction
  | .delay => .next s.delay
  | .idle => .next s.hostTurn

/-- One step. -/
def step (s : State) : Host.Outcome State Fault Refusal :=
  if s.env.overrun then .fault .redOverrun
  else if s.resetDue then .next s.tick.applyReset
  else act s.tick

/-- The state with a table word placed where `step` takes its next instruction from. -/
def State.withFetchWord (s : State) (nbits w : Nat) : State := s.placeWord nbits w

end Sys2Proof.Machine
end

