-- ==== Sys2Proof/Machine/BigStep.lean ====
section
/-! DEFINITION. The big-step reading of the commands: the numbered pseudocode of 40_transport_commands.md R124, R125 and
R126 over a list of bus replies, one per transaction. It is independent of the sequencer's table; R132 says that the two
define the same traces and responses. -/

namespace Sys2Proof.Machine

/-- How a piece of pseudocode ends: with a value, by raising an exception, or not yet (the replies are used up). `evs` are
its events, oldest first, and `rest` the replies not used. -/
inductive Big (α : Type) where
  | ok (evs : List Event) (a : α) (rest : List BusReply)
  | raised (evs : List Event) (e : Err) (rest : List BusReply)
  | running (evs : List Event)
deriving DecidableEq, Repr

/-- The events of a piece of pseudocode. -/
def Big.events {α : Type} : Big α → List Event
  | .ok evs _ _ => evs
  | .raised evs _ _ => evs
  | .running evs => evs

/-- Put events before what has happened. -/
def Big.after {α : Type} (before : List Event) : Big α → Big α
  | .ok evs a rest => .ok (before ++ evs) a rest
  | .raised evs e rest => .raised (before ++ evs) e rest
  | .running evs => .running (before ++ evs)

/-- One thing after another: an exception or an unfinished first part ends the whole (R127). -/
def Big.andThen {α β : Type} (x : Big α) (f : α → List BusReply → Big β) : Big β :=
  match x with
  | .ok evs a rest => (f a rest).after evs
  | .raised evs e rest => .raised evs e rest
  | .running evs => .running evs

/-- `MemRead` and `MemWrite`: one transaction, which completes or raises BUS_ERROR (R127, R158). -/
def bigTx (t : Tx) : List BusReply → Big Byte
  | .ok b :: rest => .ok [t.event b] b rest
  | .fail _ :: rest => .raised [.fail t.kind] .busError rest
  | [] => .running []

/-- `POLL(bit, want)` with `polls` polls already taken (R124). -/
def bigPoll (limit : Option Nat) (pass : Byte → Bool) (polls : Nat) : List BusReply → Big Unit
  | .ok b :: rest =>
    if pass b then .ok [.rs b] () rest
    else if limitReached limit (polls + 1) then .raised [.rs b] .timeout rest
    else (bigPoll limit pass (polls + 1) rest).after [.rs b, .dly]
  | .fail _ :: rest => .raised [.fail .rs] .busError rest
  | [] => .running []

/-- `RDV a`, steps 1 to 5 (R125). -/
def bigRdv (limit : Option Nat) (a : VAddr) (replies : List BusReply) : Big Rsp :=
  (bigTx .status replies).andThen fun s0 r1 =>
    (if rxValid s0 then bigTx .read r1 else .ok [] 0#8 r1).andThen fun _discard r2 =>
      (bigPoll limit txClear 0 r2).andThen fun _ r3 =>
        (bigTx (.write (selectByte false a)) r3).andThen fun _ r4 =>
          (bigPoll limit rxValid 0 r4).andThen fun _ r5 =>
            (bigTx .read r5).andThen fun b r6 => .ok [] (.okRd b) r6

/-- `WRV a, d`, steps 1 to 4 (R126). -/
def bigWrv (limit : Option Nat) (a : VAddr) (d : Byte) (replies : List BusReply) : Big Rsp :=
  (bigPoll limit txClear 0 replies).andThen fun _ r1 =>
    (bigTx (.write (selectByte true a)) r1).andThen fun _ r2 =>
      (bigPoll limit txClear 0 r2).andThen fun _ r3 =>
        (bigTx (.write d) r3).andThen fun _ r4 => .ok [] .okWr r4

/-- The pseudocode a command word stands for (R99). -/
def bigCommand (limit : Option Nat) (w : CmdWord) (replies : List BusReply) : Big Rsp :=
  if cmdDir w then bigWrv limit (cmdVaddr w) (cmdWdata w) replies else bigRdv limit (cmdVaddr w) replies

/-- The response the host gets: the command's own, or the error it raised (R122); none while it runs. -/
def Big.response : Big Rsp → Option Rsp
  | .ok _ r _ => some r
  | .raised _ e _ => some (.err e)
  | .running _ => none

/-- The replies a finished command has not used. -/
def Big.unused {α : Type} : Big α → List BusReply
  | .ok _ _ rest => rest
  | .raised _ _ rest => rest
  | .running _ => []

end Sys2Proof.Machine
end

