-- ==== Sys2Proof/Safety.lean ====
section
/-! DEFINITION. Runs, the trace laws of 40_transport_commands.md section 6 (R133 to R139) as predicates, and the
invariants claims are stated in. -/

namespace Sys2Proof.Machine

/-! ## Runs -/

/-- `n` steps, stopping at the first fault or refusal. -/
def run : Nat → State → Host.Outcome State Fault Refusal
  | 0, s => .next s
  | n + 1, s =>
    match step s with
    | .next t => run n t
    | .fault r => .fault r
    | .refused r => .refused r

/-- The first state in IDLE that at most `n` steps reach, at least one step on. -/
def untilIdle : Nat → State → Option State
  | 0, _ => none
  | n + 1, s =>
    match step s with
    | .next t => if t.phase = .idle then some t else untilIdle n t
    | .fault _ => none
    | .refused _ => none

/-- The command `w` offered in `s` was accepted and ended, in `t`, with the response `x` (R122); `evs` are the events
between `ACC` and `RSP`, oldest first. -/
def CompletedCommand (s : State) (w : CmdWord) (evs : List Event) (x : Rsp) (t : State) : Prop :=
  s.phase = .idle ∧ s.port = some w ∧ (∃ n, untilIdle n s = some t) ∧
    t.trace = .rsp x :: (evs.reverse ++ .acc w :: s.trace)

/-- The choices of an environment that completes one transaction after another with these bytes. -/
def answering (bytes : List Byte) : List Choice :=
  bytes.map fun b => { fire := none, reply := .ok b, reset := false }

/-- `n` steps lead to the phase `p` with no response, and IDLE was never reached. -/
def stillPolling (n : Nat) (s : State) (p : Phase) : Prop :=
  ∃ t, run n s = .next t ∧ t.phase = p ∧ t.rsp = none ∧ untilIdle n s = none

/-! ## Trace laws -/

/-- The newest event is a STATUS sample that passes `p`. -/
def headSample (p : Byte → Bool) : List Event → Bool
  | .rs s :: _ => p s
  | _ => false

/-- Every `WW` straight after a sample with TX_VALID clear (R133), every `RR` straight after one with RX_VALID set
(R134). The trace is newest first. -/
def disciplined : List Event → Bool
  | [] => true
  | .ww _ :: rest => headSample txClear rest && disciplined rest
  | .rr _ :: rest => headSample rxValid rest && disciplined rest
  | .acc _ :: rest => disciplined rest
  | .rs _ :: rest => disciplined rest
  | .dly :: rest => disciplined rest
  | .fail _ :: rest => disciplined rest
  | .rsp _ :: rest => disciplined rest

/-- A poll loop at the head of a list of events, oldest first: failed samples each followed by a delay, then a sample
that passes (R124). Gives what follows it. -/
def dropPoll (pass : Byte → Bool) : List Event → Option (List Event)
  | .rs s :: .dly :: rest => if pass s then some (.dly :: rest) else dropPoll pass rest
  | .rs s :: rest => if pass s then some rest else none
  | _ => none

/-- One given event at the head. -/
def dropEvent (e : Event) : List Event → Option (List Event)
  | e' :: rest => if e' = e then some rest else none
  | [] => none

/-- Step 1 of a read: a sample, and a discard-read exactly when it shows RX_VALID (R125). -/
def dropFirstLook : List Event → Option (List Event)
  | .rs s :: .rr x :: rest => if rxValid s then some rest else some (.rr x :: rest)
  | .rs s :: rest => if rxValid s then none else some rest
  | _ => none

/-- The trace shape of a completed `RDV a` that returned `b` (R136), oldest first. -/
def rdvShape (a : VAddr) (b : Byte) (evs : List Event) : Bool :=
  ((((dropFirstLook evs).bind (dropPoll txClear)).bind (dropEvent (.ww (selectByte false a)))).bind
    (dropPoll rxValid)).bind (dropEvent (.rr b)) = some []

/-- The trace shape of a completed `WRV a, d` (R137), oldest first. -/
def wrvShape (a : VAddr) (d : Byte) (evs : List Event) : Bool :=
  (((dropPoll txClear evs).bind (dropEvent (.ww (selectByte true a)))).bind (dropPoll txClear)).bind
    (dropEvent (.ww d)) = some []

/-- A `WW` event. -/
def Event.isWW : Event → Bool
  | .ww _ => true
  | .acc _ | .rs _ | .rr _ | .dly | .fail _ | .rsp _ => false

/-- An `RR` event. -/
def Event.isRR : Event → Bool
  | .rr _ => true
  | .acc _ | .rs _ | .ww _ | .dly | .fail _ | .rsp _ => false

/-- An `RS` event. -/
def Event.isRS : Event → Bool
  | .rs _ => true
  | .acc _ | .rr _ | .ww _ | .dly | .fail _ | .rsp _ => false

/-- An `ACC` event. -/
def Event.isAcc : Event → Bool
  | .acc _ => true
  | .rs _ | .rr _ | .ww _ | .dly | .fail _ | .rsp _ => false

/-- An `RSP` event. -/
def Event.isRsp : Event → Bool
  | .rsp _ => true
  | .acc _ | .rs _ | .rr _ | .ww _ | .dly | .fail _ => false

/-- The event of a transaction, completed or failed. -/
def Event.isTx : Event → Bool
  | .rs _ | .rr _ | .ww _ | .fail _ => true
  | .acc _ | .dly | .rsp _ => false

/-- How many transactions a list of events holds. -/
def txCount (evs : List Event) : Nat := evs.countP Event.isTx

/-- How many delays. -/
def dlyCount (evs : List Event) : Nat := evs.count .dly

/-- A lower bound on the time a list of events takes, in milliseconds: the delay times its number (R271). -/
def minDurationMs (evs : List Event) : Nat := Config.pollDelayMs * dlyCount evs

/-! ## Kinds of phases -/

/-- The five phases that issue `PRD STATUS` (R150). -/
def Phase.samples : Phase → Bool
  | .r1Stat | .r2Poll | .r4Poll | .w1Poll | .w3Poll => true
  | _ => false

/-- The two phases that issue `PRD READ` (R151). -/
def Phase.reads : Phase → Bool
  | .r1Flush | .r5Data => true
  | _ => false

/-- The three phases that issue `PWR WRITE` (R152). -/
def Phase.writes : Phase → Bool
  | .r3Sel | .w2Sel | .w4Data => true
  | _ => false

/-- The four delays. -/
def Phase.waits : Phase → Bool
  | .r2Wait | .r4Wait | .w1Wait | .w3Wait => true
  | _ => false

/-- The four poll phases with the exit test, the exit and the wait of their row (R131). -/
def Phase.pollRow : Phase → Option ((Byte → Bool) × Phase × Phase)
  | .r2Poll => some (txClear, .r3Sel, .r2Wait)
  | .r4Poll => some (rxValid, .r5Data, .r4Wait)
  | .w1Poll => some (txClear, .w2Sel, .w1Wait)
  | .w3Poll => some (txClear, .w4Data, .w3Wait)
  | _ => none

/-- The phases of a read command, `some false`, or of a write command, `some true`; IDLE belongs to neither. -/
def Phase.direction : Phase → Option Bool
  | .idle => none
  | .r1Stat | .r1Flush | .r2Poll | .r2Wait | .r3Sel | .r4Poll | .r4Wait | .r5Data => some false
  | .w1Poll | .w1Wait | .w2Sel | .w3Poll | .w3Wait | .w4Data => some true

/-! ## Invariants -/

/-- A phase that writes WRITE stands straight after a sample with TX_VALID clear, one that reads READ straight after one
with RX_VALID set. -/
def armed (s : State) : Bool :=
  (!s.phase.writes || headSample txClear s.trace) && (!s.phase.reads || headSample rxValid s.trace)

/-- The write and read disciplines R133 and R134, with what carries them from step to step. -/
def busDiscipline (s : State) : Bool := disciplined s.trace && armed s

/-- The reference device has not been overrun, and where the next step writes WRITE its inbox is empty (R213 (a)). -/
def redObeyed (s : State) : Bool :=
  match s.env.mode with
  | .oracle => true
  | .red => !s.env.red.overrun && (!s.phase.writes || s.env.red.inbox.isNone)

/-- DIR is the direction of the command in progress (R32). -/
def dirAgrees (s : State) : Bool :=
  match s.phase.direction with
  | none => true
  | some d => s.dir == d

/-- With a poll limit the counter never exceeds it, and is below it wherever another poll may follow (R37, D22). -/
def pollsBounded (s : State) : Bool :=
  match s.params.pollLimit with
  | none => true
  | some n => decide (s.polls ≤ n) && (!(s.phase.waits || s.phase.pollRow.isSome) || decide (s.polls < n))

/-- The virtual registers are in canonical form. -/
def vrCanonical (s : State) : Bool := Memory.wf s.env.red.vr

/-- The host asserts the reset input neither now nor later. -/
def noResetAhead (s : State) : Bool := !s.resetReq && s.host.resets.all fun b => !b

/-- No choice of the script asserts the reset input in mid-transaction. -/
def noResetInScript (s : State) : Bool := s.env.script.all fun c => !c.reset

/-- The reference device with no byte, no select and no result outstanding but possibly a stale result: the quiescent and
stale start states of R211, its memory in canonical form. -/
def redAtRest (s : State) : Bool :=
  decide (s.env.mode = .red) && s.env.red.inbox.isNone && s.env.red.wpend.isNone && s.env.red.rpend.isNone &&
    !s.env.red.overrun && Memory.wf s.env.red.vr

end Sys2Proof.Machine
end

