-- ==== Sys2Proof/Certificates/Slice0/Obligations.lean ====
section
/-! DEFINITION. The statements for the provers. Each docstring names the rule or section it formalises. -/

open Sys2Proof Sys2Proof.Machine

/-! ## Encodings -/

/-- R99: one bit decodes a command word, three values of TXD[16:8] are descriptors, and the sequencer issues no other. -/
def Obligations.DecodingOfWordsAndDescriptors : Prop :=
  (∀ w : CmdWord, w.getLsbD 15 = false → decode (.cmd w) = .ok (.rdv (w.extractLsb' 8 7) (w.extractLsb' 0 8))) ∧
  (∀ w : CmdWord, w.getLsbD 15 = true → decode (.cmd w) = .ok (.wrv (w.extractLsb' 8 7) (w.extractLsb' 0 8))) ∧
  (∀ w : CmdWord, w &&& 0x8000#16 = 0x0000#16 → ∃ a x, decode (.cmd w) = .ok (.rdv a x)) ∧
  (∀ w : CmdWord, w &&& 0x8000#16 = 0x8000#16 → ∃ a d, decode (.cmd w) = .ok (.wrv a d)) ∧
  (∀ t : Txd, t.extractLsb' 8 9 = 0x000#9 → decode (.txd t) = .ok .prdStatus) ∧
  (∀ t : Txd, t.extractLsb' 8 9 = 0x002#9 → decode (.txd t) = .ok .prdRead) ∧
  (∀ t : Txd, t.extractLsb' 8 9 = 0x101#9 → decode (.txd t) = .ok (.pwrWrite (t.extractLsb' 0 8))) ∧
  (∀ (s : Machine.State) (t : Txd), s.issued = some t →
    t.extractLsb' 8 9 = 0x000#9 ∨ t.extractLsb' 8 9 = 0x002#9 ∨ t.extractLsb' 8 9 = 0x101#9)

/-- R102: every descriptor of another access is refused, each under its own name, and the controller never issues one. -/
def Obligations.ReservedDescriptorsAreRefused : Prop :=
  ∀ t : Txd,
    (t.extractLsb' 8 9 = 0x100#9 → decode (.txd t) = .error .statusIsReadOnly) ∧
    (t.extractLsb' 8 9 = 0x102#9 → decode (.txd t) = .error .readIsReadOnly) ∧
    (t.extractLsb' 8 9 = 0x001#9 → decode (.txd t) = .error .writeIsWriteOnly) ∧
    (3 ≤ (t.extractLsb' 8 8).toNat → decode (.txd t) = .error .noSuchRegister) ∧
    (∀ s : Machine.State, s.issued = some t → ∃ i, decode (.txd t) = .ok i)

/-- Sections 1 to 3 of 30_encoding.md: no operand bit is lost between encoder and decoder. -/
def Obligations.DecodeEncodeRoundTrip : Prop :=
  ∀ i : Instr, decode (encode i) = .ok i

/-- R91, R100: every command word is the word of the command it decodes to, the ignored field included; the same through
bytes in the order of R108. -/
def Obligations.CommandWordsEncodeBack : Prop :=
  ∀ (w : CmdWord) (rest : List Byte),
    (∀ i, decode (.cmd w) = .ok i → encode i = .cmd w) ∧
    decodeBytes (cmdBytes w ++ rest) = .ok (decodeCmd w, rest)

/-- R96: a descriptor that decodes is the encoder's, but for the absent data field of a read, which is not looked at and
is written as zero by the model's choice (log 22). -/
def Obligations.DescriptorsEncodeBack : Prop :=
  ∀ (t : Txd) (i : Instr), decode (.txd t) = .ok i →
    encode i = .txd (if t.getLsbD 16 then t else t &&& 0x1FF00#17) ∧ i.isCommand = false

/-- Words written out from 30_encoding.md R91, R96 and the rows E1 to E12 and T1 to T4 of 95_test_vectors.md. That the 17
bits of a descriptor stand low in the table's 24 bits, the upper bits zero, is the model's choice (log 24). -/
def Obligations.WrittenWordsDecode : Prop :=
  decodeTableWord 16 0x0100 = some (.rdv 0x01#7 0x00#8) ∧
  decodeTableWord 16 0x04FF = some (.rdv 0x04#7 0xFF#8) ∧
  decodeTableWord 16 0x7FFF = some (.rdv 0x7F#7 0xFF#8) ∧
  decodeTableWord 16 0x8532 = some (.wrv 0x05#7 0x32#8) ∧
  decodeTableWord 16 0x8000 = some (.wrv 0x00#7 0x00#8) ∧
  decodeTableWord 16 0xFFFF = some (.wrv 0x7F#7 0xFF#8) ∧
  decodeTableWord 24 0b00000000000000000 = some .prdStatus ∧
  decodeTableWord 24 0b00000001000000000 = some .prdRead ∧
  decodeTableWord 24 0b10000000110000101 = some (.pwrWrite 0x85#8) ∧
  decodeTableWord 24 0b10000000100110010 = some (.pwrWrite 0x32#8) ∧
  decodeTableWord 24 0b10000000000000000 = none ∧
  decodeTableWord 24 0b00000000100000000 = none

/-- R92: the select byte is the address below a bit 7 that tells a write, and it is what R3_SEL and W2_SEL write. -/
def Obligations.SelectByteOnTheWire : Prop :=
  (∀ a : VAddr, (selectByte false a).getLsbD 7 = false ∧ (selectByte false a).extractLsb' 0 7 = a ∧
    selectByte false a = a.setWidth 8) ∧
  (∀ a : VAddr, (selectByte true a).getLsbD 7 = true ∧ (selectByte true a).extractLsb' 0 7 = a ∧
    selectByte true a = a.setWidth 8 ||| 0x80#8) ∧
  (∀ s : Machine.State, s.phase = .r3Sel → s.issued = some (Tx.write (s.vaddr.setWidth 8)).descriptor) ∧
  (∀ s : Machine.State, s.phase = .w2Sel → s.issued = some (Tx.write (s.vaddr.setWidth 8 ||| 0x80#8)).descriptor)

/-- R97: the phase numbers; 15 names no phase. -/
def Obligations.PhaseNumbering : Prop :=
  (∀ p : Phase, Phase.ofNumber p.number = some p) ∧
  (∀ (n : BitVec 4) (p : Phase), Phase.ofNumber n = some p → p.number = n) ∧
  (∀ n : BitVec 4, Phase.ofNumber n = none ↔ n = 15#4) ∧
  Phase.idle.number = 0#4 ∧ Phase.r1Stat.number = 1#4 ∧ Phase.r1Flush.number = 2#4 ∧ Phase.r2Poll.number = 3#4 ∧
  Phase.r2Wait.number = 4#4 ∧ Phase.r3Sel.number = 5#4 ∧ Phase.r4Poll.number = 6#4 ∧ Phase.r4Wait.number = 7#4 ∧
  Phase.r5Data.number = 8#4 ∧ Phase.w1Poll.number = 9#4 ∧ Phase.w1Wait.number = 10#4 ∧ Phase.w2Sel.number = 11#4 ∧
  Phase.w3Poll.number = 12#4 ∧ Phase.w3Wait.number = 13#4 ∧ Phase.w4Data.number = 14#4

/-- R95, R104: CODE and RDATA of the word at the response port; CODE 3 never stands there. Nothing is said of RDATA where
it holds no value. -/
def Obligations.ResponseWord : Prop :=
  ∀ s : Machine.State,
    (s.rsp = none → s.rspWord = none) ∧
    (∀ b, s.rsp = some (.okRd b) → ∃ w, s.rspWord = some w ∧ w.extractLsb' 8 2 = 0#2 ∧ w.extractLsb' 0 8 = b) ∧
    (s.rsp = some .okWr → ∃ w, s.rspWord = some w ∧ w.extractLsb' 8 2 = 0#2) ∧
    (s.rsp = some (.err .busError) → ∃ w, s.rspWord = some w ∧ w.extractLsb' 8 2 = 1#2) ∧
    (s.rsp = some (.err .timeout) → ∃ w, s.rspWord = some w ∧ w.extractLsb' 8 2 = 2#2) ∧
    (∀ w, s.rspWord = some w → w.extractLsb' 8 2 ≠ 3#2)

/-! ## Reset -/

/-- R53, R250, R10, R16: the reset values the spec gives. Nothing is said of the latches, whose values are the model's
(log 1). -/
def Obligations.ResetStateValues : Prop :=
  Machine.State.reset.phase = .idle ∧ Machine.State.reset.polls = 0 ∧
  Machine.State.reset.params.devAddr = 0x49#7 ∧ Machine.State.reset.params.pollLimit = none ∧
  Machine.State.reset.rsp = none ∧ Machine.State.reset.bus = [] ∧ Machine.State.reset.trace = []

/-- R250, R251, R252, R272: the reset input, in any state and at any step: IDLE, no polls, no response, no event, no
transaction, the device and the parameters as they were; and whichever step to come the host chooses for it, that step is
the reset. That the input acts in a step of its own, is then released, and leaves an offered command offered is the
model's choice (log 12). -/
def Obligations.ResetInputAbandonsCommand : Prop :=
  (∀ s : Machine.State, s.env.overrun = false → (s.resetReq = true ∨ ∃ rs, s.host.resets = true :: rs) →
    ∃ t, step s = .next t ∧ t.phase = .idle ∧ t.polls = 0 ∧ t.rsp = none ∧ t.resetReq = false ∧
      t.trace = s.trace ∧ t.bus = s.bus ∧ t.env = s.env ∧ t.params = s.params ∧ t.port = s.port ∧
      t.host.resets = s.host.resets.tail) ∧
  (∀ (s t : Machine.State) (n : Nat) (rs : List Bool), s.host.resets = List.replicate n false ++ true :: rs →
    run n s = .next t → t.env.overrun = false →
    ∃ u, run (n + 1) s = .next u ∧ u.phase = .idle ∧ u.rsp = none ∧ u.trace = t.trace ∧ u.bus = t.bus ∧
      u.env = t.env ∧ u.host.resets = rs)

/-- R252: reset while a transaction is in flight: no response, IDLE; the device as after a failed transaction that took
effect or did not. The model's choices in it: when the input is looked at (log 12), and that no event, `FAIL` included,
records the transaction cut off (log 31). -/
def Obligations.ResetInFlightAbandonsCommand : Prop :=
  ∀ (s : Machine.State) (i : Instr) (x : Tx), s.env.choice.reset = true →
    (i = .prdStatus ∧ x = .status ∧ s.phase.samples = true ∨
      i = .prdRead ∧ x = .read ∧ s.phase.reads = true ∨
      (∃ v, i = .pwrWrite v ∧ x = .write v) ∧ s.phase.writes = true) →
    ∃ t, exec i s = .next t ∧ t.phase = .idle ∧ t.polls = 0 ∧ t.rsp = none ∧ t.trace = s.trace ∧
      t.bus = (s.params.devAddr, x.descriptor) :: s.bus ∧ t.params = s.params ∧ t.port = s.port ∧
      (t.env.red = s.env.begin.red ∨ t.env.red = s.env.begin.red.effect x)

/-! ## The commands -/

/-- R121: accepting a command is one step that latches the whole word, and later changes at the port do not affect the
command in progress. This is where `RDV` and `WRV` complete as steps; the transactions that follow are the steps of R131.
The model's choices in it: acceptance takes the previous response away (log 14), and a step of reset leaves the word at
the port (log 12). -/
def Obligations.AcceptLatchesCommand : Prop :=
  (∀ (s : Machine.State) (a : VAddr) (d : Byte), s.phase = .idle →
    exec (.rdv a d) s = .next { s with
      dir := false, vaddr := a, wdata := d, phase := .r1Stat, port := none, rsp := none
      trace := .acc (encodeCmd false a d) :: s.trace } ∧
    exec (.wrv a d) s = .next { s with
      dir := true, vaddr := a, wdata := d, phase := .w1Poll, polls := 0, port := none, rsp := none
      trace := .acc (encodeCmd true a d) :: s.trace }) ∧
  (∀ (s t : Machine.State) (p : Option CmdWord), s.phase ≠ .idle → step s = .next t →
    step { s with port := p } = .next { t with port := p })

/-- R100: the data field of an `RDV` word is latched and never used: in the phases of a read no step depends on WDATA, and
none changes it. -/
def Obligations.ReadIgnoresDataField : Prop :=
  ∀ (s t : Machine.State) (d : Byte), s.phase.direction = some false → s.resetDue = false →
    s.env.choice.reset = false → step s = .next t → step { s with wdata := d } = .next { t with wdata := d }

/-- R120: while a command is in progress another is neither accepted nor lost; in IDLE the offered word is accepted. The
model's choices in it: the meaning of a command outside IDLE is the same state (log 5, DEDUCED), and a step of reset too
leaves the offered word (log 12, DESIGN CHOICE). -/
def Obligations.BusyHoldsOfferedCommand : Prop :=
  (∀ (s : Machine.State) (a : VAddr) (d : Byte), s.phase ≠ .idle →
    exec (.rdv a d) s = .next s ∧ exec (.wrv a d) s = .next s) ∧
  (∀ s t : Machine.State, s.phase ≠ .idle → step s = .next t →
    t.port = s.port ∧ t.trace.countP Event.isAcc = s.trace.countP Event.isAcc) ∧
  (∀ (s : Machine.State) (w : CmdWord), s.phase = .idle → s.port = some w → s.env.overrun = false →
    s.resetDue = false → ∃ t, step s = .next t ∧ t.port = none ∧ t.phase ≠ .idle ∧ t.trace = .acc w :: s.trace)

/-! ## The micro-operations, row by row -/

/-- R125 step 1, R131 row R1_STAT: only RX_VALID is tested, and it decides the flush. -/
def Obligations.FirstLookDecidesFlush : Prop :=
  ∀ (s : Machine.State) (b : Byte), s.phase = .r1Stat → s.env.result .status = .done b →
    (b.getLsbD 0 = true → exec .prdStatus s = .next { s.afterTx .status with
      stat := b, phase := .r1Flush, trace := .rs b :: s.trace }) ∧
    (b.getLsbD 0 = false → exec .prdStatus s = .next { s.afterTx .status with
      stat := b, phase := .r2Poll, polls := 0, trace := .rs b :: s.trace })

/-- R124, R131: the four poll rows: every poll that passes its exit test, whatever the limit, and every poll that fails it
without reaching a limit. -/
def Obligations.PollRows : Prop :=
  ∀ (s : Machine.State) (b : Byte) (pass : Byte → Bool) (exit wait : Phase),
    (s.phase = .r2Poll ∧ (∀ c, pass c = !c.getLsbD 1) ∧ exit = .r3Sel ∧ wait = .r2Wait ∨
      s.phase = .r4Poll ∧ (∀ c, pass c = c.getLsbD 0) ∧ exit = .r5Data ∧ wait = .r4Wait ∨
      s.phase = .w1Poll ∧ (∀ c, pass c = !c.getLsbD 1) ∧ exit = .w2Sel ∧ wait = .w1Wait ∨
      s.phase = .w3Poll ∧ (∀ c, pass c = !c.getLsbD 1) ∧ exit = .w4Data ∧ wait = .w3Wait) →
    s.env.result .status = .done b →
    (pass b = true ∨ ∀ n, s.params.pollLimit = some n → s.polls + 1 < n) →
    exec .prdStatus s = .next { s.afterTx .status with
      stat := b, polls := s.polls + 1, phase := if pass b then exit else wait, trace := .rs b :: s.trace }

/-- R36, R125 steps 1 and 5, R151: the flush throws its byte away, the final read delivers its byte. -/
def Obligations.ReadRows : Prop :=
  ∀ (s : Machine.State) (b : Byte), s.env.result .read = .done b →
    (s.phase = .r1Flush → exec .prdRead s = .next { s.afterTx .read with
      phase := .r2Poll, polls := 0, trace := .rr b :: s.trace }) ∧
    (s.phase = .r5Data → exec .prdRead s = .next { s.afterTx .read with
      rdata := b, rsp := some (.okRd b), phase := .idle, trace := .rsp (.okRd b) :: .rr b :: s.trace })

/-- R126, R131, R152: the three rows that write WRITE. -/
def Obligations.WriteRows : Prop :=
  ∀ (s : Machine.State) (v b : Byte), s.env.result (.write v) = .done b →
    (s.phase = .r3Sel → exec (.pwrWrite v) s = .next { s.afterTx (.write v) with
      phase := .r4Poll, polls := 0, trace := .ww v :: s.trace }) ∧
    (s.phase = .w2Sel → exec (.pwrWrite v) s = .next { s.afterTx (.write v) with
      phase := .w3Poll, polls := 0, trace := .ww v :: s.trace }) ∧
    (s.phase = .w4Data → exec (.pwrWrite v) s = .next { s.afterTx (.write v) with
      rsp := some .okWr, phase := .idle, trace := .rsp .okWr :: .ww v :: s.trace })

/-- R225: a failed transaction ends the command: its two events, IDLE, and nothing else of the controller changes. -/
def Obligations.FailureAborts : Prop :=
  ∀ s : Machine.State,
    (s.phase.samples = true → s.env.result .status = .failed → exec .prdStatus s = .next { s.afterTx .status with
      rsp := some (.err .busError), phase := .idle, trace := .rsp (.err .busError) :: .fail .rs :: s.trace }) ∧
    (s.phase.reads = true → s.env.result .read = .failed → exec .prdRead s = .next { s.afterTx .read with
      rsp := some (.err .busError), phase := .idle, trace := .rsp (.err .busError) :: .fail .rr :: s.trace }) ∧
    (s.phase.writes = true → ∀ v, s.env.result (.write v) = .failed →
      exec (.pwrWrite v) s = .next { s.afterTx (.write v) with
        rsp := some (.err .busError), phase := .idle, trace := .rsp (.err .busError) :: .fail .ww :: s.trace })

/-- R226: the `n`-th poll of a loop that fails its test: the sample's event, the error response, IDLE, no delay. -/
def Obligations.TimeoutAborts : Prop :=
  ∀ (s : Machine.State) (b : Byte) (n : Nat),
    (s.phase = .r2Poll ∧ b.getLsbD 1 = true ∨ s.phase = .r4Poll ∧ b.getLsbD 0 = false ∨
      s.phase = .w1Poll ∧ b.getLsbD 1 = true ∨ s.phase = .w3Poll ∧ b.getLsbD 1 = true) →
    s.env.result .status = .done b → s.params.pollLimit = some n → n ≤ s.polls + 1 →
    exec .prdStatus s = .next { s.afterTx .status with
      stat := b, polls := s.polls + 1, rsp := some (.err .timeout), phase := .idle
      trace := .rsp (.err .timeout) :: .rs b :: s.trace }

/-- R227: the order of the checks in a poll: failure before exit test, exit test before limit, limit before delay. -/
def Obligations.PollCheckOrder : Prop :=
  ∀ (s : Machine.State) (pass : Byte → Bool) (exit wait : Phase), s.phase.pollRow = some (pass, exit, wait) →
    (s.env.result .status = .failed → ∃ t, exec .prdStatus s = .next t ∧ t.rsp = some (.err .busError)) ∧
    (∀ b, s.env.result .status = .done b → pass b = true →
      ∃ t, exec .prdStatus s = .next t ∧ t.phase = exit ∧ t.rsp = s.rsp) ∧
    (∀ b n, s.env.result .status = .done b → pass b = false → s.params.pollLimit = some n → n ≤ s.polls + 1 →
      ∃ t, exec .prdStatus s = .next t ∧ t.phase = .idle ∧ t.rsp = some (.err .timeout)) ∧
    (∀ b, s.env.result .status = .done b → pass b = false →
      (∀ n, s.params.pollLimit = some n → s.polls + 1 < n) →
      ∃ t, exec .prdStatus s = .next t ∧ t.phase = wait ∧ t.rsp = s.rsp)

/-- R131, R268: a wait is one delay, performs no transaction, and goes back to its poll; beside this a step only uses up
the host's entry for the reset input (`tick`, log 12). -/
def Obligations.DelayRows : Prop :=
  ∀ s : Machine.State, s.env.overrun = false → s.resetDue = false →
    (s.phase = .r2Wait → step s = .next { s.tick with phase := .r2Poll, trace := .dly :: s.trace }) ∧
    (s.phase = .r4Wait → step s = .next { s.tick with phase := .r4Poll, trace := .dly :: s.trace }) ∧
    (s.phase = .w1Wait → step s = .next { s.tick with phase := .w1Poll, trace := .dly :: s.trace }) ∧
    (s.phase = .w3Wait → step s = .next { s.tick with phase := .w3Poll, trace := .dly :: s.trace })

/-- R128, R150, R151, R152: a micro-operation is a step only in the phases that issue it; there it always answers a next
state. That it is refused by name elsewhere is the model's choice (log 4). -/
def Obligations.MicroOperationsOnlyWhereIssued : Prop :=
  ∀ s : Machine.State,
    (s.phase ∈ [Phase.r1Stat, .r2Poll, .r4Poll, .w1Poll, .w3Poll] → ∃ t, exec .prdStatus s = .next t) ∧
    (s.phase ∉ [Phase.r1Stat, .r2Poll, .r4Poll, .w1Poll, .w3Poll] → exec .prdStatus s = .refused .notIssuedInPhase) ∧
    (s.phase ∈ [Phase.r1Flush, .r5Data] → ∃ t, exec .prdRead s = .next t) ∧
    (s.phase ∉ [Phase.r1Flush, .r5Data] → exec .prdRead s = .refused .notIssuedInPhase) ∧
    (∀ v, s.phase ∈ [Phase.r3Sel, .w2Sel, .w4Data] → ∃ t, exec (.pwrWrite v) s = .next t) ∧
    (∀ v, s.phase ∉ [Phase.r3Sel, .w2Sel, .w4Data] → exec (.pwrWrite v) s = .refused .notIssuedInPhase)

/-! ## Frames -/

/-- R150: what `PRD STATUS` leaves unchanged: every latch but STAT, the parameters, the ports, the host, and the device,
whose state is that of its own steps before the transaction. -/
def Obligations.StatusReadFrame : Prop :=
  ∀ s t : Machine.State, exec .prdStatus s = .next t → s.env.choice.reset = false →
    t.dir = s.dir ∧ t.vaddr = s.vaddr ∧ t.wdata = s.wdata ∧ t.rdata = s.rdata ∧ t.params = s.params ∧
    t.port = s.port ∧ t.resetReq = s.resetReq ∧ t.host = s.host ∧ t.env.red = s.env.begin.red ∧
    (∀ a, Memory.read t.env.red.vr a = Memory.read s.env.begin.red.vr a) ∧
    (t.phase ≠ .idle → t.rsp = s.rsp)

/-- R151: what `PRD READ` leaves unchanged: every latch but RDATA, and of the device everything but RX_VALID. -/
def Obligations.ReadReadFrame : Prop :=
  ∀ s t : Machine.State, exec .prdRead s = .next t → s.env.choice.reset = false →
    t.dir = s.dir ∧ t.vaddr = s.vaddr ∧ t.wdata = s.wdata ∧ t.stat = s.stat ∧ t.params = s.params ∧
    t.port = s.port ∧ t.resetReq = s.resetReq ∧ t.host = s.host ∧
    (t.env.red = s.env.begin.red ∨ t.env.red = { s.env.begin.red with rxv := false }) ∧
    (∀ a, Memory.read t.env.red.vr a = Memory.read s.env.begin.red.vr a) ∧
    (s.phase = .r1Flush → t.rdata = s.rdata) ∧ (t.phase ≠ .idle → t.rsp = s.rsp)

/-- R152, R207: what `PWR WRITE, v` leaves unchanged: every latch, every virtual register, and of the device everything
but the inbox, which may take `v`, and OVERRUN, where the inbox was full. -/
def Obligations.WriteFrame : Prop :=
  ∀ (s t : Machine.State) (v : Byte), exec (.pwrWrite v) s = .next t → s.env.choice.reset = false →
    t.dir = s.dir ∧ t.vaddr = s.vaddr ∧ t.wdata = s.wdata ∧ t.stat = s.stat ∧ t.rdata = s.rdata ∧
    t.params = s.params ∧ t.port = s.port ∧ t.resetReq = s.resetReq ∧ t.host = s.host ∧
    (t.env.red = s.env.begin.red ∨
      s.env.begin.red.inbox = none ∧ t.env.red = { s.env.begin.red with inbox := some v } ∨
      s.env.begin.red.inbox ≠ none ∧ t.env.red = { s.env.begin.red with overrun := true }) ∧
    (∀ a, Memory.read t.env.red.vr a = Memory.read s.env.begin.red.vr a) ∧ (t.phase ≠ .idle → t.rsp = s.rsp)

/-- R208, R209: the device's own steps, before a transaction or while the host has nothing to do, store at no address but
that of a pending write-select whose data byte waits in the inbox, and there they store that byte; and no step taken in
IDLE stores elsewhere. How the device's moves are given is the model's choice (log 10). -/
def Obligations.BoundaryStoresOnlyPendingWrite : Prop :=
  (∀ (e : Env) (a : Nat), (∀ p, e.red.wpend = some p → e.red.inbox ≠ none → a ≠ p.toNat) →
    Memory.read e.begin.red.vr a = Memory.read e.red.vr a ∧ Memory.read e.drain.red.vr a = Memory.read e.red.vr a) ∧
  (∀ (e : Env) (p : VAddr) (v : Byte), Memory.wf e.red.vr = true → e.red.wpend = some p → e.red.inbox = some v →
    (Memory.read e.begin.red.vr p.toNat = Memory.read e.red.vr p.toNat ∨ Memory.read e.begin.red.vr p.toNat = v) ∧
    (Memory.read e.drain.red.vr p.toNat = Memory.read e.red.vr p.toNat ∨ Memory.read e.drain.red.vr p.toNat = v) ∧
    (e.mode = .red → (e.idle = [] ∨ e.idle.head? = some (some .consume)) → Memory.read e.drain.red.vr p.toNat = v)) ∧
  (∀ e : Env, e.drain.mode = e.mode ∧ e.drain.script = e.script ∧ e.drain.tx = e.tx ∧ e.drain.lazyK = e.lazyK ∧
    e.drain.red.overrun = e.red.overrun ∧ (e.mode = .oracle → e.drain = e) ∧
    (e.red.quiescent = true → e.drain.red = e.red ∧ (e.idle = [] → e.drain = e))) ∧
  (∀ (s t : Machine.State) (a : Nat), s.phase = .idle → step s = .next t →
    (∀ p, s.env.red.wpend = some p → s.env.red.inbox ≠ none → a ≠ p.toNat) →
    Memory.read t.env.red.vr a = Memory.read s.env.red.vr a)

/-! ## The reference device -/

/-- R208: `CONSUME`. -/
def Obligations.ConsumeStep : Prop :=
  (∀ r : Red, r.inbox = none → r.consume = r) ∧
  (∀ (r : Red) (v : Byte) (a : VAddr), Memory.wf r.vr = true → r.inbox = some v → r.wpend = some a →
    r.consume.inbox = none ∧ r.consume.wpend = none ∧ r.consume.rpend = r.rpend ∧ r.consume.rbuf = r.rbuf ∧
    r.consume.rxv = r.rxv ∧ r.consume.overrun = r.overrun ∧
    ∀ c, Memory.read r.consume.vr c = if c = a.toNat then v else Memory.read r.vr c) ∧
  (∀ (r : Red) (v : Byte), r.inbox = some v → r.wpend = none →
    r.consume.inbox = none ∧ r.consume.vr = r.vr ∧ r.consume.rbuf = r.rbuf ∧ r.consume.rxv = r.rxv ∧
    r.consume.overrun = r.overrun ∧
    (v.getLsbD 7 = true → r.consume.wpend = some (v.extractLsb' 0 7) ∧ r.consume.rpend = r.rpend) ∧
    (v.getLsbD 7 = false → r.consume.rpend = some (v.extractLsb' 0 7) ∧ r.consume.wpend = none))

/-- R209: `PRODUCE`. -/
def Obligations.ProduceStep : Prop :=
  (∀ r : Red, r.rpend = none → r.produce = r) ∧
  (∀ (r : Red) (a : VAddr), r.rpend = some a →
    r.produce.rbuf = Memory.read r.vr a.toNat ∧ r.produce.rxv = true ∧ r.produce.rpend = none ∧
    r.produce.vr = r.vr ∧ r.produce.inbox = r.inbox ∧ r.produce.wpend = r.wpend ∧ r.produce.overrun = r.overrun)

/-- R204, R205: what a completed STATUS read answers, and that it changes nothing on the device. -/
def Obligations.RedStatusRead : Prop :=
  ∀ e : Env, e.mode = .red → (e.after .status).red = e.begin.red ∧
    ∀ b, e.result .status = .done b →
      b = (if e.begin.red.inbox.isSome then 0x02#8 else 0x00#8) ||| (if e.begin.red.rxv then 0x01#8 else 0x00#8)

/-- R206: what a completed READ read answers, and that it clears RXV and keeps RBUF. -/
def Obligations.RedReadRead : Prop :=
  ∀ (e : Env) (b : Byte), e.mode = .red → e.result .read = .done b →
    b = e.begin.red.rbuf ∧ (e.after .read).red = { e.begin.red with rxv := false }

/-- R207: a write fills an empty inbox; a write into a full one sets OVERRUN, and the run is faulted. That the step after
it is the one that stops is the model's choice (log 11). -/
def Obligations.RedWriteReaction : Prop :=
  (∀ (e : Env) (v b : Byte), e.mode = .red → e.result (.write v) = .done b →
    (e.begin.red.inbox = none → (e.after (.write v)).red = { e.begin.red with inbox := some v }) ∧
    (e.begin.red.inbox ≠ none → (e.after (.write v)).red.overrun = true)) ∧
  (∀ s : Machine.State, s.env.mode = .red → s.env.red.overrun = true → step s = .fault .redOverrun)

/-- R161: a failed transaction took effect on the device or did not, as the environment chooses; a failed STATUS read
changes nothing. A failed write that took effect does what R207 says of a write, on an empty inbox and on a full one. -/
def Obligations.FailedTransactionOnDevice : Prop :=
  ∀ (e : Env) (took : Bool), e.mode = .red → e.choice.reply = .fail took → e.choice.reset = false →
    (∀ x : Tx, e.result x = .failed) ∧
    (e.after .status).red = e.begin.red ∧
    (e.after .read).red = (if took then { e.begin.red with rxv := false } else e.begin.red) ∧
    (∀ v, took = true → e.begin.red.inbox = none → (e.after (.write v)).red = { e.begin.red with inbox := some v }) ∧
    (∀ v, took = true → e.begin.red.inbox ≠ none → (e.after (.write v)).red = { e.begin.red with overrun := true }) ∧
    (∀ v, took = false → (e.after (.write v)).red = e.begin.red)

/-- R210: at a boundary the eager scheduler leaves no step enabled; the lazy one lets a `CONSUME` that has just become
enabled wait exactly `k` boundaries. In IDLE either step may fire, in any order when both are enabled, or neither: the
order decides what a read-select of the written register gives. With no move given the device steps until it is
quiescent. How the moves are given, and that `CONSUME` is then first, is the model's choice (log 10). -/
def Obligations.SchedulersFire : Prop :=
  (∀ r : Red, (r.boundary 0).quiescent = true) ∧
  (∀ (k j : Nat) (r : Red), r.inbox ≠ none → r.ageConsume = 0 → j ≤ k →
    ((Red.boundary k)^[j] r).inbox = r.inbox ∧ ((Red.boundary k)^[k + 1] r).inbox = none) ∧
  (∀ (e : Env) (d : DevStep) (ds : List (Option DevStep)), e.mode = .red →
    (e.idle = some d :: ds → e.drain = { e with idle := ds, red := e.red.fire d }) ∧
    (e.idle = none :: ds → e.drain = { e with idle := ds })) ∧
  (∀ (e : Env) (a : VAddr) (v : Byte) (ds : List (Option DevStep)), e.mode = .red → Memory.wf e.red.vr = true →
    e.red.inbox = some v → e.red.wpend = some a → e.red.rpend = some a →
    (e.idle = some .produce :: some .consume :: ds → e.drain.drain.red.rbuf = Memory.read e.red.vr a.toNat ∧
      Memory.read e.drain.drain.red.vr a.toNat = v ∧ e.drain.drain.red.quiescent = true) ∧
    (e.idle = some .consume :: some .produce :: ds → e.drain.drain.red.rbuf = v ∧
      Memory.read e.drain.drain.red.vr a.toNat = v ∧ e.drain.drain.red.quiescent = true)) ∧
  (∀ e : Env, e.mode = .red → e.idle = [] → e.drain.drain.red.quiescent = true) ∧
  (∀ s : Machine.State, s.phase = .idle → s.port = none → s.env.overrun = false → s.resetDue = false →
    s.host.running = none → s.host.todo = [] → step s = .next { s.tick with env := s.env.drain })

/-! ## Steps -/

/-- A step runs the decoded instruction: the offered word in IDLE, the issued descriptor in a phase that has one; else a
delay; and where the reset input is due it is the reset (R272). The step uses up the host's entry for the reset input and
changes nothing else. The model's choices in it: R131 gives an idle controller with nothing offered no step, and the
model's step is then the host's move (logs 16 and 28); the reset acts in a step of its own (log 12). -/
def Obligations.StepRunsDecodedInstruction : Prop :=
  ∀ s : Machine.State, s.env.overrun = false →
    (s.resetDue = true → step s = .next s.tick.applyReset) ∧
    (s.resetDue = false →
      (∀ w i, s.phase = .idle → s.port = some w → decode (.cmd w) = .ok i → step s = exec i s.tick) ∧
      (∀ t i, s.issued = some t → decode (.txd t) = .ok i → step s = exec i s.tick) ∧
      (s.phase ≠ .idle → s.issued = none → step s = .next s.tick.delay) ∧
      (s.phase = .idle → s.port = none → step s = .next s.tick.hostTurn)) ∧
    s.tick = { s with host := { s.host with resets := s.host.resets.tail } } ∧ (s.host.resets = [] → s.tick = s)

/-- A table word placed for the fetch is decoded and run by the very next step, which answers a next state. How a word is
placed is the model's choice (log 21), and so is how a descriptor stands in a table word (log 24). -/
def Obligations.PlacedWordRuns : Prop :=
  ∀ (s : Machine.State) (nbits w : Nat) (i : Instr), decodeTableWord nbits w = some i →
    step (s.withFetchWord nbits w) = exec i (s.withFetchWord nbits w) ∧
    ∃ t, step (s.withFetchWord nbits w) = .next t

/-- R96, R153, R4: a step hands the bus capability at most one descriptor, to DEV_ADDR, and only one of the three. That
the data field of a read descriptor, which R96 calls absent, is zero is the model's choice (log 22). -/
def Obligations.BusTrafficOnlyTransport : Prop :=
  ∀ s t : Machine.State, step s = .next t →
    t.bus = s.bus ∨
    (s.phase ≠ .idle ∧ ∃ d, t.bus = (s.params.devAddr, d) :: s.bus ∧
      (d = 0x00000#17 ∨ d = 0x00200#17 ∨ ∃ v : Byte, d = encodeTxd true 0x01#8 v))

/-- R10, R16, R53: DEV_ADDR is 0x49 by default, POLL_LIMIT none, and no step changes a parameter. That the parameters,
which R30 calls no state, stand in State and that no step changes the others is log 2. -/
def Obligations.ParametersFixed : Prop :=
  Machine.State.reset.params.devAddr = 0x49#7 ∧ Machine.State.reset.params.pollLimit = none ∧
  ∀ s t : Machine.State, step s = .next t → t.params = s.params

/-- R131, R200: whether there is a step never depends on what the device answers. The model's choices in it: an idle
controller with nothing offered has a step too (log 28), and a faulted run of the reference device stops at the next
step (log 11). -/
def Obligations.StepAlwaysGoesOn : Prop :=
  ∀ s : Machine.State,
    (s.env.overrun = false → ∃ t, step s = .next t) ∧ (s.env.overrun = true → step s = .fault .redOverrun)

/-! ## Invariants -/

/-- R133, R134: from any state whose trace obeys the write and read disciplines, a step keeps them: every `WW` straight
after a sample with TX_VALID clear, every `RR` straight after one with RX_VALID set. -/
def Obligations.WriteAndReadDisciplineKept : Prop :=
  ∀ s t : Machine.State, busDiscipline s = true → step s = .next t → busDiscipline t = true

/-- R213 (a): the controller never overruns the reference device. -/
def Obligations.RedNeverOverrunKept : Prop :=
  ∀ s t : Machine.State, redObeyed s = true → step s = .next t → redObeyed t = true

/-- The virtual registers keep their canonical form. -/
def Obligations.VirtualRegistersCanonicalKept : Prop :=
  ∀ s t : Machine.State, vrCanonical s = true → step s = .next t → vrCanonical t = true

/-- R32, R98: DIR is the direction of the command in progress, so that the select byte issued is {DIR, VADDR}. -/
def Obligations.DirectionAgreesKept : Prop :=
  (∀ s t : Machine.State, dirAgrees s = true → step s = .next t → dirAgrees t = true) ∧
  (∀ s : Machine.State, dirAgrees s = true → (s.phase = .r3Sel ∨ s.phase = .w2Sel) →
    s.issued = some (Tx.write (selectByte s.dir s.vaddr)).descriptor)

/-- R37, D22: with a limit of at least 1 the poll counter never exceeds it, and is below it wherever a poll may follow. -/
def Obligations.PollCounterBoundedKept : Prop :=
  ∀ s t : Machine.State, s.params.wellFormed = true → pollsBounded s = true → step s = .next t → pollsBounded t = true

/-- The state after reset meets every invariant above. The clauses about the device rest on the model's start of the
environment, which R54 and R251 leave unknown: the oracle (log 6) and an empty reference device (log 9). -/
def Obligations.ResetMeetsInvariants : Prop :=
  busDiscipline Machine.State.reset = true ∧ redObeyed Machine.State.reset = true ∧
  vrCanonical Machine.State.reset = true ∧ dirAgrees Machine.State.reset = true ∧
  pollsBounded Machine.State.reset = true ∧ Machine.State.reset.params.wellFormed = true

/-- R222: without a poll limit no step answers TIMEOUT. -/
def Obligations.TimeoutNeedsLimit : Prop :=
  ∀ s t : Machine.State, s.params.pollLimit = none → step s = .next t →
    t.trace.count (.rsp (.err .timeout)) = s.trace.count (.rsp (.err .timeout))

/-- R122: a step of a command in progress returns to IDLE exactly when it delivers the response, as its last event. -/
def Obligations.OneResponsePerCommand : Prop :=
  ∀ s t : Machine.State, s.phase ≠ .idle → s.resetDue = false → s.env.choice.reset = false → step s = .next t →
    (t.phase = .idle ∧ ∃ x, t.rsp = some x ∧ t.trace.head? = some (.rsp x) ∧
      t.trace.countP Event.isRsp = s.trace.countP Event.isRsp + 1) ∨
    (t.phase ≠ .idle ∧ t.rsp = s.rsp ∧ t.trace.countP Event.isRsp = s.trace.countP Event.isRsp)

/-! ## Whole commands -/

/-- R136: the trace of every completed `RDV`, whatever the environment. -/
def Obligations.RdvTraceShape : Prop :=
  ∀ (s t : Machine.State) (w : CmdWord) (evs : List Event) (b : Byte), CompletedCommand s w evs (.okRd b) t →
    cmdDir w = false ∧ rdvShape (cmdVaddr w) b evs = true

/-- R137: the trace of every completed `WRV`, whatever the environment. -/
def Obligations.WrvTraceShape : Prop :=
  ∀ (s t : Machine.State) (w : CmdWord) (evs : List Event), CompletedCommand s w evs .okWr t →
    cmdDir w = true ∧ wrvShape (cmdVaddr w) (cmdWdata w) evs = true

/-- R105, R135, R138: what a completed command contains. -/
def Obligations.CommandCounts : Prop :=
  (∀ (s t : Machine.State) (w : CmdWord) (evs : List Event) (b : Byte), CompletedCommand s w evs (.okRd b) t →
    evs.filter Event.isWW = (wireBytes (decodeCmd w)).map Event.ww ∧
    (∃ s0, evs.head? = some (.rs s0) ∧ evs.countP Event.isRR = if s0.getLsbD 0 then 2 else 1) ∧
    evs.countP Event.isRS = dlyCount evs + 3 ∧ evs.length = txCount evs + dlyCount evs ∧ 5 ≤ txCount evs) ∧
  (∀ (s t : Machine.State) (w : CmdWord) (evs : List Event), CompletedCommand s w evs .okWr t →
    evs.filter Event.isWW = (wireBytes (decodeCmd w)).map Event.ww ∧ evs.countP Event.isRR = 0 ∧
    evs.countP Event.isRS = dlyCount evs + 2 ∧ evs.length = txCount evs + dlyCount evs ∧ 4 ≤ txCount evs)

/-- R132: under the oracle the table's steps and the numbered pseudocode give the same trace, the same response and use
the same answers; where the pseudocode is still waiting, so is the controller. That the response port, which may hold the
previous response, is then empty is the model's choice (log 14). -/
def Obligations.TableRefinesPseudocode : Prop :=
  ∀ (s : Machine.State) (w : CmdWord) (replies : List BusReply) (more : List Choice),
    s.phase = .idle → s.port = some w → s.env.mode = .oracle → noResetAhead s = true →
    s.env.script = replies.map (fun r => { fire := none, reply := r, reset := false }) ++ more →
    (∀ x, (bigCommand s.params.pollLimit w replies).response = some x →
      ∃ n t, untilIdle n s = some t ∧ t.rsp = some x ∧
        t.trace = .rsp x :: ((bigCommand s.params.pollLimit w replies).events.reverse ++ .acc w :: s.trace) ∧
        t.env.script = (bigCommand s.params.pollLimit w replies).unused.map
          (fun r => { fire := none, reply := r, reset := false }) ++ more) ∧
    ((bigCommand s.params.pollLimit w replies).response = none →
      ∃ n t, run n s = .next t ∧ untilIdle n s = none ∧ t.rsp = none ∧
        t.trace = (bigCommand s.params.pollLimit w replies).events.reverse ++ .acc w :: s.trace ∧
        t.env.script = more)

/-- R139: with `POLL_LIMIT = n` every command ends, within its bound of transactions and delays, whatever the device
answers. -/
def Obligations.PollLimitBoundsCommands : Prop :=
  ∀ (s : Machine.State) (w : CmdWord) (n : Nat),
    s.phase = .idle → s.port = some w → noResetAhead s = true → s.env.overrun = false → noResetInScript s = true →
    s.params.pollLimit = some n → 1 ≤ n →
    ∃ evs x t, CompletedCommand s w evs x t ∧ dlyCount evs ≤ 2 * (n - 1) ∧
      txCount evs ≤ if cmdDir w then 2 * n + 2 else 2 * n + 4

/-- R224, R139: without a limit a command whose poll loop never sees its flag goes on for ever: after any number of failed
samples the controller polls again, with no response. The general clause is for every poll phase; the others run the four
loops from the offered word, a read with and without its flush. That the response port is empty from acceptance on is the
model's choice (log 14). -/
def Obligations.NoLimitPollsForever : Prop :=
  (∀ (s : Machine.State) (pass : Byte → Bool) (exit wait : Phase) (bytes : List Byte) (more : List Choice),
    s.phase.pollRow = some (pass, exit, wait) → noResetAhead s = true → s.env.mode = .oracle → s.params.pollLimit = none →
    s.rsp = none → (∀ b ∈ bytes, pass b = false) → s.env.script = answering bytes ++ more →
    stillPolling (2 * bytes.length) s s.phase) ∧
  ∀ (s : Machine.State) (a : VAddr) (d first x c y : Byte) (bytes : List Byte),
    s.phase = .idle → noResetAhead s = true → s.env.mode = .oracle → s.params.pollLimit = none → c.getLsbD 1 = false →
    (s.port = some (encodeCmd true a d) → (∀ b ∈ bytes, b.getLsbD 1 = true) →
      (s.env.script = answering bytes → stillPolling (1 + 2 * bytes.length) s .w1Poll) ∧
      (s.env.script = answering ([c, y] ++ bytes) → stillPolling (3 + 2 * bytes.length) s .w3Poll)) ∧
    (s.port = some (encodeCmd false a d) → (∀ b ∈ bytes, b.getLsbD 1 = true) →
      (first.getLsbD 0 = false → s.env.script = answering ([first] ++ bytes) →
        stillPolling (2 + 2 * bytes.length) s .r2Poll) ∧
      (first.getLsbD 0 = true → s.env.script = answering ([first, x] ++ bytes) →
        stillPolling (3 + 2 * bytes.length) s .r2Poll)) ∧
    (s.port = some (encodeCmd false a d) → (∀ b ∈ bytes, b.getLsbD 0 = false) →
      (first.getLsbD 0 = false → s.env.script = answering ([first, c, y] ++ bytes) →
        stillPolling (4 + 2 * bytes.length) s .r4Poll) ∧
      (first.getLsbD 0 = true → s.env.script = answering ([first, x, c, y] ++ bytes) →
        stillPolling (5 + 2 * bytes.length) s .r4Poll))

/-- R140, R213 (b), (d), (e): against the reference device, quiescent or stale, under every lazy-k scheduler, a write and
then a read of the same address return the byte written, and the write changes no other register. The schedulers are the
model's choice of when the device steps (log 10), the host's moves that of when the words are offered (log 16). -/
def Obligations.WriteThenReadRoundTrip : Prop :=
  ∀ (s : Machine.State) (a : VAddr) (d x : Byte),
    s.phase = .idle → s.port = none → noResetAhead s = true → s.params.pollLimit = none → redAtRest s = true →
    s.env.script = [] → s.host.running = none →
    s.host.todo = [.cmd (encodeCmd true a d), .cmd (encodeCmd false a x)] →
    ∃ n t, run n s = .next t ∧ t.phase = .idle ∧ t.host.todo = [] ∧ t.port = none ∧ t.rsp = some (.okRd d) ∧
      t.trace.countP Event.isRsp = s.trace.countP Event.isRsp + 2 ∧
      ∀ c, Memory.read t.env.red.vr c = if c = a.toNat then d else Memory.read s.env.red.vr c

/-- R262, R224: against the reference device with a write-select pending, under every lazy-k scheduler, the next select
byte is stored as data at the aborted address and no other register changes: a read then waits for ever; a write answers
OK_WR, and its data byte is then taken as a select. The model's choices in it: the schedulers say when the device steps
(log 10), and the response port is empty from acceptance on (log 14). -/
def Obligations.PendingWriteSelectCorrupts : Prop :=
  ∀ (s : Machine.State) (a b : VAddr) (x : Byte),
    s.phase = .idle → noResetAhead s = true → s.params.pollLimit = none →
    s.env.mode = .red → s.env.script = [] → s.env.red.wpend = some a → s.env.red.inbox = none →
    s.env.red.rpend = none → s.env.red.rxv = false → s.env.red.overrun = false → Memory.wf s.env.red.vr = true →
    (s.port = some (encodeCmd false b x) →
      (∀ n, ∃ t, run (n + 1) s = .next t ∧ t.phase ≠ .idle ∧ t.rsp = none) ∧
      (∃ n t, run n s = .next t ∧ ∀ c, Memory.read t.env.red.vr c =
        if c = a.toNat then selectByte false b else Memory.read s.env.red.vr c)) ∧
    (s.port = some (encodeCmd true b x) →
      ∃ n t, run n s = .next t ∧ t.phase = .idle ∧ t.rsp = some .okWr ∧
        (∀ c, Memory.read t.env.red.vr c = if c = a.toNat then selectByte true b else Memory.read s.env.red.vr c) ∧
        t.env.red.inbox = some x ∧ t.env.red.wpend = none ∧ t.env.red.rpend = none ∧
        (x.getLsbD 7 = true → t.env.red.consume.wpend = some (x.extractLsb' 0 7)) ∧
        (x.getLsbD 7 = false → t.env.red.consume.rpend = some (x.extractLsb' 0 7)) ∧
        (s.env.idle = [] → t.env.drain.red = t.env.red.consume))

/-! ## The host's sequences (outside the block) -/

/-- R166: a read-modify-write is a read and then, always, a write, which puts the value under the mask and keeps every
other bit. -/
def Obligations.ReadModifyWriteArithmetic : Prop :=
  (∀ (a : VAddr) (mask : Byte) (shift : Nat) (val old : Byte) (got : List Byte),
    (rmw a mask shift val).map (HostCmd.word (got ++ [old])) =
      [encodeCmd false a 0x00#8, encodeCmd true a ((old &&& ~~~mask) ||| ((val <<< shift) &&& mask))]) ∧
  (∀ (old mask val : Byte) (shift i : Nat), i < 8 →
    (fieldUpdate old mask shift val).getLsbD i =
      if mask.getLsbD i then (val <<< shift).getLsbD i else old.getLsbD i)

/-- R167 to R179 with the fields of R183: the expansion of every operation but the channels', and what happens to arguments
out of range. The model's choices in it: an LED level or an integration time out of range issues no command (log 19), and
the synchronous one-shot issues no `RDV 0x05` (log 30). -/
def Obligations.OperationExpansions : Prop :=
  ∀ (p : Params) (on : Bool) (v : Int),
    plan p .sensorType = .run [.rd 0x01#7] ∧ plan p .temperatureCelsius = .run [.rd 0x06#7] ∧
    plan p .dataReady = .run [.rd 0x04#7] ∧ plan p .clearDataReady = .run (rmw 0x04#7 0x02#8 1 0#8) ∧
    plan p (.setIndicatorLED on) = .run (rmw 0x07#7 0x01#8 0 (if on then 1#8 else 0#8)) ∧
    plan p (.setBulbLED on) = .run (rmw 0x07#7 0x08#8 3 (if on then 1#8 else 0#8)) ∧
    (0 ≤ v → v ≤ 3 →
      plan p (.setIndicatorCurrent v) = .run (rmw 0x07#7 0x06#8 1 (BitVec.ofInt 8 v)) ∧
      plan p (.setBulbCurrent v) = .run (rmw 0x07#7 0x30#8 4 (BitVec.ofInt 8 v)) ∧
      plan p (.setGain v) = .run (rmw 0x04#7 0x30#8 4 (BitVec.ofInt 8 v)) ∧
      plan p (.setMeasurementMode v) = .run (rmw 0x04#7 0x0C#8 2 (BitVec.ofInt 8 v))) ∧
    (v < 0 ∨ 3 < v →
      (p.gainClamp = .toZero → plan p (.setGain v) = .run (rmw 0x04#7 0x30#8 4 0#8)) ∧
      (p.gainClamp = .toThree → plan p (.setGain v) = .run (rmw 0x04#7 0x30#8 4 3#8)) ∧
      (p.gainClamp = .reject → plan p (.setGain v) = .reject) ∧
      (p.modeClamp = .toZero → plan p (.setMeasurementMode v) = .run (rmw 0x04#7 0x0C#8 2 0#8)) ∧
      (p.modeClamp = .toThree → plan p (.setMeasurementMode v) = .run (rmw 0x04#7 0x0C#8 2 3#8)) ∧
      (p.modeClamp = .reject → plan p (.setMeasurementMode v) = .reject) ∧
      plan p (.setIndicatorCurrent v) = .outOfDomain ∧ plan p (.setBulbCurrent v) = .outOfDomain) ∧
    (0 ≤ v → v ≤ 255 → plan p (.setIntegrationTime v) = .run [.wr 0x05#7 (BitVec.ofInt 8 v)]) ∧
    (v < 0 ∨ 255 < v → plan p (.setIntegrationTime v) = .outOfDomain) ∧
    (∀ m, p.oneShotMode = some m → plan p .triggerOneShotAsync =
      .run (rmw 0x04#7 0x02#8 1 0#8 ++ rmw 0x04#7 0x0C#8 2 (m.setWidth 8))) ∧
    (∃ m : BitVec 2, plan p .triggerOneShotAsync =
      .run (rmw 0x04#7 0x02#8 1 0#8 ++ rmw 0x04#7 0x0C#8 2 (m.setWidth 8))) ∧
    plan p .triggerOneShotSync = plan p .triggerOneShotAsync

/-- R180, R181, R182, R64, R65: the channels' addresses and how their bytes are put together, the lower address the more
significant; R167, R168, R176, R179: what every other operation returns. The free values of the temperature's signedness
and of the wait are logs 17 and 18. -/
def Obligations.ChannelAssembly : Prop :=
  (∀ (p : Params) (i : Fin 6), ∃ c0 c1 : VAddr, plan p (.rawChannel i) = .run [.rd c0, .rd c1] ∧
    c0.toNat = 0x08 + 2 * i.val ∧ c1.toNat = 0x09 + 2 * i.val) ∧
  (∀ (p : Params) (i : Fin 6), ∃ c0 c1 c2 c3 : VAddr,
    plan p (.calibratedChannel i) = .run [.rd c0, .rd c1, .rd c2, .rd c3] ∧ c0.toNat = 0x14 + 4 * i.val ∧
    c1.toNat = 0x15 + 4 * i.val ∧ c2.toNat = 0x16 + 4 * i.val ∧ c3.toNat = 0x17 + 4 * i.val) ∧
  (∀ p : Params, plan p .allCalibratedChannels =
    .run ((List.range 24).map fun j => .rd (BitVec.ofNat 7 (0x14 + j)))) ∧
  (∀ (p : Params) (n : Nat) (i : Fin 6) (hi lo : Byte), ∃ v,
    finish p n (.rawChannel i) [hi, lo] = .raw v ∧ v.toNat = hi.toNat * 256 + lo.toNat) ∧
  (∀ (p : Params) (n : Nat) (i : Fin 6) (b0 b1 b2 b3 : Byte), ∃ v,
    finish p n (.calibratedChannel i) [b0, b1, b2, b3] = .single v ∧
    v.toNat = ((b0.toNat * 256 + b1.toNat) * 256 + b2.toNat) * 256 + b3.toNat) ∧
  (∀ (p : Params) (n : Nat) (bs : List Byte), bs.length = 24 → ∃ l, finish p n .allCalibratedChannels bs = .singles l ∧
    l.length = 6 ∧ ∀ (i : Fin 6) (b0 b1 b2 b3 : Byte), (bs.drop (4 * i.val)).take 4 = [b0, b1, b2, b3] →
      ∃ v, l[i.val]? = some v ∧ v.toNat = ((b0.toNat * 256 + b1.toNat) * 256 + b2.toNat) * 256 + b3.toNat) ∧
  (∀ (p : Params) (n : Nat) (b : Byte),
    finish p n .sensorType [b] = .byte b ∧
    (p.tempSigned = some true → finish p n .temperatureCelsius [b] = .celsius b.toInt) ∧
    (p.tempSigned = some false → finish p n .temperatureCelsius [b] = .celsius (b.toNat : Int)) ∧
    (∃ v, finish p n .dataReady [b] = .ready v ∧ (v = true ↔ b.getLsbD 1 = true))) ∧
  (∀ p : Params, (∀ n b, finish p n .temperatureCelsius [b] = .celsius b.toInt) ∨
    (∀ n (b : Byte), finish p n .temperatureCelsius [b] = .celsius (b.toNat : Int))) ∧
  (∀ (p : Params) (n : Nat) (got : List Byte), ∃ r : Byte, finish p n .triggerOneShotSync got = .waited (r.toNat * 6)) ∧
  (∀ (p : Params) (n : Nat) (got : List Byte) (on : Bool) (v : Int) (o : ConsumerOp),
    o ∈ [ConsumerOp.setIndicatorLED on, .setIndicatorCurrent v, .setBulbLED on, .setBulbCurrent v, .setGain v,
      .setMeasurementMode v, .setIntegrationTime v, .clearDataReady, .triggerOneShotAsync] → finish p n o got = .done)

/-- R165: the host's sequence waits for each response; an error ends it and goes to the caller, with no further command;
after a success the next command is offered, and after the last one the operation's result goes to the caller. That the
host moves in a step of its own is the model's choice (log 16). -/
def Obligations.HostSequenceOrder : Prop :=
  ∀ (s : Machine.State) (r : Running), s.phase = .idle → s.port = none → s.env.overrun = false → s.resetDue = false →
    s.host.running = some r →
    (∀ e, s.rsp = some (.err e) → ∃ t, step s = .next t ∧ t.port = none ∧ t.rsp = none ∧ t.host.running = none ∧
      t.host.results = .error e :: s.host.results) ∧
    (∀ b c cs, s.rsp = some (.okRd b) → r.rest = c :: cs → ∃ t, step s = .next t ∧ t.rsp = none ∧
      t.port = some (c.word (r.got ++ [b])) ∧ t.host.running = some { op := r.op, rest := cs, got := r.got ++ [b] } ∧
      t.host.results = s.host.results) ∧
    (∀ c cs, s.rsp = some .okWr → r.rest = c :: cs → ∃ t, step s = .next t ∧ t.rsp = none ∧
      t.port = some (c.word r.got) ∧ t.host.running = some { op := r.op, rest := cs, got := r.got } ∧
      t.host.results = s.host.results) ∧
    (∀ b, s.rsp = some (.okRd b) → r.rest = [] → ∃ t, step s = .next t ∧ t.rsp = none ∧ t.port = none ∧
      t.host.running = none ∧
      t.host.results = finish s.params s.env.tx r.op (r.got ++ [b]) :: s.host.results) ∧
    (s.rsp = some .okWr → r.rest = [] → ∃ t, step s = .next t ∧ t.rsp = none ∧ t.port = none ∧
      t.host.running = none ∧ t.host.results = finish s.params s.env.tx r.op r.got :: s.host.results) ∧
    (s.rsp = none → step s = .next s.tick)
end

