-- ==== Sys2Proof/Laws/Memory.lean ====
section
/-! SUPPORT. The laws of the virtual registers as memory: read after write, and that a write keeps the canonical form. -/

namespace Sys2Proof.Machine

@[simp] theorem Memory.read_nil (a : Nat) : Memory.read [] a = Memory.unlisted := rfl

@[simp] theorem Memory.read_cons (k : Nat) (v : Byte) (m : Memory) (a : Nat) :
    Memory.read ((k, v) :: m) a = if a = k then v else Memory.read m a := rfl

theorem Memory.wfFrom_cons (lo k : Nat) (v : Byte) (m : Memory) :
    Memory.wfFrom lo ((k, v) :: m) = true ↔
      lo ≤ k ∧ k < 128 ∧ v ≠ Memory.unlisted ∧ Memory.wfFrom (k + 1) m = true := by
  simp [Memory.wfFrom, and_assoc]

theorem Memory.wfFrom_mono {lo lo' : Nat} {m : Memory} (h : lo' ≤ lo) (hm : Memory.wfFrom lo m = true) :
    Memory.wfFrom lo' m = true := by
  cases m with
  | nil => rfl
  | cons c m =>
    obtain ⟨k, v⟩ := c
    rw [Memory.wfFrom_cons] at hm ⊢
    exact ⟨h.trans hm.1, hm.2⟩

/-- Below the lowest listed address nothing is listed. -/
theorem Memory.read_below {lo a : Nat} {m : Memory} (hm : Memory.wfFrom lo m = true) (h : a < lo) :
    Memory.read m a = Memory.unlisted := by
  induction m generalizing lo with
  | nil => rfl
  | cons c m ih =>
    obtain ⟨k, v⟩ := c
    rw [Memory.wfFrom_cons] at hm
    have hk : a ≠ k := by omega
    simp [hk, ih hm.2.2.2 (by omega)]

/-- `put` reads as the byte it puts and leaves other addresses alone. -/
theorem Memory.read_put (a : Nat) (b : Byte) (m : Memory) (c : Nat)
    (h : Memory.read m a = Memory.unlisted) :
    Memory.read (Memory.put a b m) c = if c = a then b else Memory.read m c := by
  unfold Memory.put
  split
  · next hb => split <;> simp_all
  · simp

/-- A read after a write: the byte written there, the old byte elsewhere. -/
theorem Memory.read_write {lo : Nat} {m : Memory} (hm : Memory.wfFrom lo m = true) (a : Nat) (b : Byte) (c : Nat) :
    Memory.read (Memory.write m a b) c = if c = a then b else Memory.read m c := by
  induction m generalizing lo with
  | nil => exact Memory.read_put a b [] c rfl
  | cons p m ih =>
    obtain ⟨k, v⟩ := p
    have hp := hm
    rw [Memory.wfFrom_cons] at hm
    unfold Memory.write
    split
    · next hlt =>
      have hk : a ≠ k := by omega
      refine Memory.read_put a b _ c ?_
      simp [hk, Memory.read_below hm.2.2.2 (show a < k + 1 by omega)]
    · split
      · next heq =>
        subst heq
        rw [Memory.read_put a b m c (Memory.read_below hm.2.2.2 (by omega))]
        by_cases hc : c = a <;> simp [hc]
      · next hne =>
        rw [Memory.read_cons, ih hm.2.2.2, Memory.read_cons]
        by_cases hc : c = k
        · have : c ≠ a := by omega
          simp [hc, Ne.symm hne]
        · simp [hc]

/-- A write leaves every other address alone, whatever the memory's form. -/
theorem Memory.read_write_ne (m : Memory) {a c : Nat} (b : Byte) (h : c ≠ a) :
    Memory.read (Memory.write m a b) c = Memory.read m c := by
  have hput : ∀ m, Memory.read (Memory.put a b m) c = Memory.read m c := by
    intro m; unfold Memory.put; split <;> simp [h]
  induction m with
  | nil => exact hput []
  | cons p m ih =>
    obtain ⟨k, v⟩ := p
    unfold Memory.write
    split
    · exact hput _
    · split
      · next heq => rw [hput]; subst heq; simp [h]
      · simp [ih]

theorem Memory.wfFrom_put {lo a : Nat} {b : Byte} {m : Memory} (hlo : lo ≤ a) (ha : a < 128)
    (hm : Memory.wfFrom (a + 1) m = true) : Memory.wfFrom lo (Memory.put a b m) = true := by
  unfold Memory.put
  split
  · exact Memory.wfFrom_mono (by omega) hm
  · next hb => exact (Memory.wfFrom_cons ..).mpr ⟨hlo, ha, hb, hm⟩

/-- A write keeps the canonical form. -/
theorem Memory.wfFrom_write {lo a : Nat} {b : Byte} {m : Memory} (hlo : lo ≤ a) (ha : a < 128)
    (hm : Memory.wfFrom lo m = true) : Memory.wfFrom lo (Memory.write m a b) = true := by
  induction m generalizing lo with
  | nil => exact Memory.wfFrom_put hlo ha rfl
  | cons p m ih =>
    obtain ⟨k, v⟩ := p
    have hp := hm
    rw [Memory.wfFrom_cons] at hm
    unfold Memory.write
    split
    · next hlt =>
      refine Memory.wfFrom_put hlo ha ((Memory.wfFrom_cons ..).mpr ⟨by omega, hm.2⟩)
    · split
      · next heq => subst heq; exact Memory.wfFrom_put hlo ha hm.2.2.2
      · next hne =>
        exact (Memory.wfFrom_cons ..).mpr ⟨hm.1, hm.2.1, hm.2.2.1, ih (by omega) hm.2.2.2⟩

/-- The same for whole memories and virtual addresses. -/
theorem Memory.wf_write {m : Memory} (a : VAddr) (b : Byte) (hm : Memory.wf m = true) :
    Memory.wf (Memory.write m a.toNat b) = true :=
  Memory.wfFrom_write (Nat.zero_le _) a.isLt hm

theorem Memory.read_write_wf {m : Memory} (hm : Memory.wf m = true) (a : Nat) (b : Byte) (c : Nat) :
    Memory.read (Memory.write m a b) c = if c = a then b else Memory.read m c :=
  Memory.read_write hm a b c

theorem Memory.wf_reset : Memory.wf State.reset.env.red.vr = true := rfl

/-- Equal reads at every address make canonical memories equal data. -/
theorem Memory.ext_wfFrom {lo : Nat} {m n : Memory} (hm : Memory.wfFrom lo m = true) (hn : Memory.wfFrom lo n = true)
    (h : ∀ a, Memory.read m a = Memory.read n a) : m = n := by
  induction m generalizing lo n with
  | nil =>
    cases n with
    | nil => rfl
    | cons q n =>
      obtain ⟨k, v⟩ := q
      rw [Memory.wfFrom_cons] at hn
      exact absurd (by simpa using (h k).symm) hn.2.2.1
  | cons p m ih =>
    obtain ⟨k, v⟩ := p
    have hm' := (Memory.wfFrom_cons ..).mp hm
    cases n with
    | nil => exact absurd (by simpa using h k) hm'.2.2.1
    | cons q n =>
      obtain ⟨j, w⟩ := q
      have hn' := (Memory.wfFrom_cons ..).mp hn
      have hk := h k
      have hj := h j
      rcases Nat.lt_trichotomy k j with hlt | heq | hgt
      · have : Memory.read n k = Memory.unlisted := Memory.read_below hn'.2.2.2 (by omega)
        simp [this, Nat.ne_of_lt hlt] at hk
        exact absurd hk hm'.2.2.1
      · subst heq
        simp at hk
        subst hk
        congr 1
        refine ih hm'.2.2.2 hn'.2.2.2 fun a => ?_
        by_cases ha : a = k
        · subst ha
          rw [Memory.read_below hm'.2.2.2 (by omega), Memory.read_below hn'.2.2.2 (by omega)]
        · simpa [ha] using h a
      · have : Memory.read m j = Memory.unlisted := Memory.read_below hm'.2.2.2 (by omega)
        simp [this, Nat.ne_of_lt hgt] at hj
        exact absurd hj.symm hn'.2.2.1

end Sys2Proof.Machine
end

