-- ==== Sys2Proof/Laws/Device.lean ====
section
/-! SUPPORT. What the reference device's steps and one transaction do, each said once. -/

namespace Sys2Proof.Machine

/-! ## Internal steps of the reference device -/

/-- Everything `CONSUME` can do (R208). -/
theorem Red.consume_cases (r : Red) :
    (r.inbox = none ∧ r.consume = r) ∨
    (∃ v a, r.inbox = some v ∧ r.wpend = some a ∧
      r.consume = { r with vr := Memory.write r.vr a.toNat v, wpend := none, inbox := none, ageConsume := 0 }) ∨
    (∃ v, r.inbox = some v ∧ r.wpend = none ∧ v.getLsbD 7 = true ∧
      r.consume = { r with wpend := some (v.extractLsb' 0 7), inbox := none, ageConsume := 0 }) ∨
    (∃ v, r.inbox = some v ∧ r.wpend = none ∧ v.getLsbD 7 = false ∧
      r.consume = { r with rpend := some (v.extractLsb' 0 7), inbox := none, ageConsume := 0 }) := by
  unfold Red.consume
  rcases hi : r.inbox with _ | v
  · simp
  · rcases hw : r.wpend with _ | a
    · rcases hv : v.getLsbD 7 <;> simp [hv]
    · simp

/-- Everything `PRODUCE` can do (R209). -/
theorem Red.produce_cases (r : Red) :
    (r.rpend = none ∧ r.produce = r) ∨
    (∃ a, r.rpend = some a ∧
      r.produce = { r with rbuf := Memory.read r.vr a.toNat, rxv := true, rpend := none, ageProduce := 0 }) := by
  unfold Red.produce
  rcases r.rpend with _ | a <;> simp

@[simp] theorem Red.consume_overrun (r : Red) : r.consume.overrun = r.overrun := by
  rcases r.consume_cases with ⟨_, h⟩ | ⟨v, a, _, _, h⟩ | ⟨v, _, _, _, h⟩ | ⟨v, _, _, _, h⟩ <;> rw [h]

@[simp] theorem Red.consume_inbox (r : Red) : r.consume.inbox = none := by
  rcases r.consume_cases with ⟨h', h⟩ | ⟨v, a, _, _, h⟩ | ⟨v, _, _, _, h⟩ | ⟨v, _, _, _, h⟩ <;> rw [h]
  exact h'

theorem Red.consume_wf {r : Red} (hr : Memory.wf r.vr = true) : Memory.wf r.consume.vr = true := by
  rcases r.consume_cases with ⟨_, h⟩ | ⟨v, a, _, _, h⟩ | ⟨v, _, _, _, h⟩ | ⟨v, _, _, _, h⟩ <;> rw [h]
  · exact hr
  · exact Memory.wf_write a v hr
  · exact hr
  · exact hr

/-- `CONSUME` stores at no address but that of a pending write-select whose data byte waits. -/
theorem Red.consume_read {r : Red} {a : Nat} (h : ∀ p, r.wpend = some p → r.inbox ≠ none → a ≠ p.toNat) :
    Memory.read r.consume.vr a = Memory.read r.vr a := by
  rcases r.consume_cases with ⟨_, hc⟩ | ⟨v, p, hi, hw, hc⟩ | ⟨v, _, _, _, hc⟩ | ⟨v, _, _, _, hc⟩ <;> rw [hc]
  exact Memory.read_write_ne _ _ (h p hw (by simp [hi]))

/-- A data byte that waits for its write-select is stored there by `CONSUME`. -/
theorem Red.consume_read_pending {r : Red} {p : VAddr} {v : Byte} (hm : Memory.wf r.vr = true) (hw : r.wpend = some p)
    (hi : r.inbox = some v) (a : Nat) :
    Memory.read r.consume.vr a = if a = p.toNat then v else Memory.read r.vr a := by
  simp [Red.consume, hi, hw, Memory.read_write_wf hm]

@[simp] theorem Red.produce_overrun (r : Red) : r.produce.overrun = r.overrun := by
  rcases r.produce_cases with ⟨_, h⟩ | ⟨a, _, h⟩ <;> rw [h]

@[simp] theorem Red.produce_inbox (r : Red) : r.produce.inbox = r.inbox := by
  rcases r.produce_cases with ⟨_, h⟩ | ⟨a, _, h⟩ <;> rw [h]

@[simp] theorem Red.produce_vr (r : Red) : r.produce.vr = r.vr := by
  rcases r.produce_cases with ⟨_, h⟩ | ⟨a, _, h⟩ <;> rw [h]

@[simp] theorem Red.produce_wpend (r : Red) : r.produce.wpend = r.wpend := by
  rcases r.produce_cases with ⟨_, h⟩ | ⟨a, _, h⟩ <;> rw [h]

/-- What internal steps never do: mark the run faulted, fill the inbox, or break the memory's form. -/
structure Red.Quiet (r r' : Red) : Prop where
  overrun : r'.overrun = r.overrun
  inbox : r.inbox = none → r'.inbox = none
  wf : Memory.wf r.vr = true → Memory.wf r'.vr = true

theorem Red.Quiet.rfl' (r : Red) : Red.Quiet r r := ⟨rfl, id, id⟩

theorem Red.Quiet.trans {a b c : Red} (h : Red.Quiet a b) (h' : Red.Quiet b c) : Red.Quiet a c :=
  ⟨h'.overrun.trans h.overrun, fun x => h'.inbox (h.inbox x), fun x => h'.wf (h.wf x)⟩

theorem Red.consume_quiet (r : Red) : Red.Quiet r r.consume :=
  ⟨by simp, by simp, Red.consume_wf⟩

theorem Red.produce_quiet (r : Red) : Red.Quiet r r.produce :=
  ⟨by simp, by simp, by simp⟩

theorem Red.fireAll_quiet (ds : List DevStep) (r : Red) : Red.Quiet r (Red.fireAll ds r) := by
  induction ds generalizing r with
  | nil => exact .rfl' r
  | cons d ds ih =>
    refine .trans ?_ (ih (r.fire d))
    cases d
    · exact r.consume_quiet
    · exact r.produce_quiet

theorem Red.schedConsume_quiet (k : Nat) (r : Red) : Red.Quiet r (r.schedConsume k) := by
  unfold Red.schedConsume
  split
  · split
    · exact r.consume_quiet
    · exact ⟨rfl, id, id⟩
  · exact .rfl' r

theorem Red.schedProduce_quiet (k : Nat) (r : Red) : Red.Quiet r (r.schedProduce k) := by
  unfold Red.schedProduce
  split
  · split
    · exact r.produce_quiet
    · exact ⟨rfl, id, id⟩
  · exact .rfl' r

theorem Red.boundary_quiet (k : Nat) (r : Red) : Red.Quiet r (r.boundary k) :=
  (r.schedConsume_quiet k).trans (Red.schedProduce_quiet k _)

theorem Red.drain_quiet (r : Red) : Red.Quiet r r.drain := by
  unfold Red.drain
  split
  · exact r.consume_quiet
  · exact r.produce_quiet

/-- At a boundary only `CONSUME` touches the inbox. -/
theorem Red.boundary_inbox (k : Nat) (r : Red) :
    (r.boundary k).inbox = (r.schedConsume k).inbox ∧ (r.boundary k).ageConsume = (r.schedConsume k).ageConsume := by
  unfold Red.boundary Red.schedProduce
  split
  · split
    · refine ⟨by simp, ?_⟩
      rcases (r.schedConsume k).produce_cases with ⟨_, h⟩ | ⟨_, _, h⟩ <;> rw [h]
    · exact ⟨rfl, rfl⟩
  · exact ⟨rfl, rfl⟩

/-- A quiescent device does nothing by itself. -/
theorem Red.drain_quiescent {r : Red} (h : r.quiescent = true) : r.drain = r := by
  simp [Red.quiescent] at h
  simp [Red.drain, Red.produce, h.1, h.2]

theorem Red.fire_quiescent {r : Red} (h : r.quiescent = true) (d : DevStep) : r.fire d = r := by
  simp [Red.quiescent] at h
  cases d <;> simp [Red.fire, Red.consume, Red.produce, h.1, h.2]

theorem Red.fire_quiet (d : DevStep) (r : Red) : Red.Quiet r (r.fire d) := by
  cases d
  · exact r.consume_quiet
  · exact r.produce_quiet

/-- Everything the device's move in IDLE can be. -/
theorem Env.redIdle_cases (e : Env) : e.redIdle = e.red ∨ e.redIdle = e.red.consume ∨ e.redIdle = e.red.produce := by
  unfold Env.redIdle
  split
  · next d _ _ => cases d <;> simp [Red.fire]
  · exact .inl rfl
  · unfold Red.drain; split <;> simp

theorem Env.redIdle_quiescent {e : Env} (h : e.red.quiescent = true) : e.redIdle = e.red := by
  unfold Env.redIdle
  split
  · exact Red.fire_quiescent h _
  · rfl
  · exact Red.drain_quiescent h

/-- What `CONSUME` cannot store to, the device's move in IDLE cannot either. -/
theorem Env.redIdle_read {e : Env} {a : Nat} (h : ∀ p, e.red.wpend = some p → e.red.inbox ≠ none → a ≠ p.toNat) :
    Memory.read e.redIdle.vr a = Memory.read e.red.vr a := by
  rcases e.redIdle_cases with hc | hc | hc <;> rw [hc]
  · exact Red.consume_read h
  · rw [Red.produce_vr]

/-! ## The status byte -/

@[simp] theorem Red.txClear_status (r : Red) : txClear r.status = r.inbox.isNone := by
  unfold Red.status Red.txValid txClear Machine.txValid
  cases r.inbox <;> cases r.rxv <;> simp

@[simp] theorem Red.rxValid_status (r : Red) : rxValid r.status = r.rxv := by
  unfold Red.status Red.txValid rxValid
  cases r.inbox <;> cases r.rxv <;> simp

/-! ## One transaction -/

@[simp] theorem Env.begin_mode (e : Env) : e.begin.mode = e.mode := rfl
@[simp] theorem Env.begin_script (e : Env) : e.begin.script = e.script.tail := rfl
@[simp] theorem Env.begin_tx (e : Env) : e.begin.tx = e.tx + 1 := rfl
@[simp] theorem Env.begin_idle (e : Env) : e.begin.idle = e.idle := rfl
@[simp] theorem Env.begin_lazyK (e : Env) : e.begin.lazyK = e.lazyK := rfl

theorem Env.begin_quiet (e : Env) : Red.Quiet e.red e.begin.red := by
  unfold Env.begin Env.redBefore
  rcases e.mode
  · exact .rfl' _
  · dsimp only
    split
    · exact Red.fireAll_quiet _ _
    · exact Red.boundary_quiet _ _

@[simp] theorem Env.after_mode (e : Env) (t : Tx) : (e.after t).mode = e.mode := by
  unfold Env.after; cases h : e.mode <;> simp [h]
@[simp] theorem Env.after_script (e : Env) (t : Tx) : (e.after t).script = e.script.tail := by
  unfold Env.after; cases e.mode <;> rfl
@[simp] theorem Env.after_tx (e : Env) (t : Tx) : (e.after t).tx = e.tx + 1 := by
  unfold Env.after; cases e.mode <;> rfl
@[simp] theorem Env.after_idle (e : Env) (t : Tx) : (e.after t).idle = e.idle := by
  unfold Env.after; cases e.mode <;> rfl
@[simp] theorem Env.after_lazyK (e : Env) (t : Tx) : (e.after t).lazyK = e.lazyK := by
  unfold Env.after; cases e.mode <;> rfl

/-- The device after a transaction: it had its effect or none. -/
theorem Env.after_red (e : Env) (x : Tx) : (e.after x).red = e.begin.red ∨ (e.after x).red = e.begin.red.effect x := by
  unfold Env.after
  cases e.mode
  · exact .inl rfl
  · cases h : BusReply.took e.choice.reply <;> simp

/-- A STATUS read changes nothing on the device (R205). -/
@[simp] theorem Env.after_status_red (e : Env) : (e.after .status).red = e.begin.red := by
  rcases e.after_red .status with h | h <;> exact h

/-- Under the oracle a transaction leaves the reference device's fields alone. -/
theorem Env.after_oracle {e : Env} (h : e.mode = .oracle) (t : Tx) : (e.after t).red = e.red := by
  unfold Env.after Env.begin; simp [h]

/-- A transaction stores to no virtual register: only the device's own steps before it may (R208). -/
@[simp] theorem Env.after_vr (e : Env) (t : Tx) : (e.after t).red.vr = e.begin.red.vr := by
  have he (r : Red) : (r.effect t).vr = r.vr := by
    unfold Red.effect
    cases t with
    | status => rfl
    | read => rfl
    | write v => dsimp only; split <;> rfl
  unfold Env.after
  cases e.mode
  · rfl
  · dsimp only; split
    · exact he _
    · rfl

theorem Env.after_wf {e : Env} (t : Tx) (h : Memory.wf e.red.vr = true) : Memory.wf (e.after t).red.vr = true := by
  rw [Env.after_vr]; exact e.begin_quiet.wf h

/-- A read marks nothing and fills no inbox. -/
theorem Env.after_read_quiet (e : Env) (t : Tx) (ht : ∀ v, t ≠ .write v) :
    (e.after t).red.inbox = e.begin.red.inbox ∧ (e.after t).red.overrun = e.red.overrun := by
  have hb := e.begin_quiet.overrun
  unfold Env.after
  cases e.mode
  · exact ⟨rfl, hb⟩
  · dsimp only; split
    · cases t with
      | status => exact ⟨rfl, hb⟩
      | read => exact ⟨rfl, hb⟩
      | write v => exact absurd rfl (ht v)
    · exact ⟨rfl, hb⟩

/-- A write into an empty inbox does not overrun. -/
theorem Env.after_write_overrun (e : Env) (v : Byte) (h : e.red.inbox = none) :
    (e.after (.write v)).red.overrun = e.red.overrun := by
  have hb := e.begin_quiet.overrun
  have hi := e.begin_quiet.inbox h
  unfold Env.after
  cases e.mode
  · exact hb
  · dsimp only; split
    · simpa [Red.effect, hi] using hb
    · exact hb

/-- Everything a transaction can do to the machine. -/
theorem State.transact_cases (t : Tx) (f : Byte → State → State) (s : State) :
    (∃ b, s.env.result t = .done b ∧ s.transact t f = f b ((s.afterTx t).emit (t.event b))) ∨
    (s.env.result t = .failed ∧ s.transact t f = ((s.afterTx t).emit (.fail t.kind)).abort .busError) ∨
    (s.env.result t = .reset ∧ s.transact t f = (s.afterTx t).applyReset) := by
  unfold State.transact
  split
  · next b hb => exact .inl ⟨b, hb, rfl⟩
  · next hb => exact .inr (.inl ⟨hb, rfl⟩)
  · next hb => exact .inr (.inr ⟨hb, rfl⟩)

/-- When the reset input cuts a transaction off. -/
theorem Env.result_reset_iff (e : Env) (t : Tx) : e.result t = .reset ↔ e.choice.reset = true := by
  unfold Env.result
  split
  · simp_all
  · split
    · simp_all
    · split <;> simp_all

/-- Free values never assert the reset input. -/
theorem Env.choice_reset_of_script {e : Env} (h : e.script.all (fun c => !c.reset) = true) : e.choice.reset = false := by
  unfold Env.choice
  split
  · next c cs hc => simp [hc] at h; exact h.1
  · split <;> rfl

/-- What a completed transaction says of the environment's choice. -/
theorem Env.result_done {e : Env} {x : Tx} {b : Byte} (h : e.result x = .done b) :
    e.choice.reset = false ∧ ∃ c, e.choice.reply = .ok c ∧ (e.mode = .red → b = e.begin.red.answer x) := by
  unfold Env.result at h
  split at h
  · cases h
  · next hc =>
    refine ⟨by simpa using hc, ?_⟩
    split at h
    · cases h
    · next c hr =>
      refine ⟨c, hr, fun hm => ?_⟩
      simp [hm] at h
      exact h.symm

/-- Under the oracle the script's answer is the transaction's result (R200). -/
theorem Env.result_script {e : Env} {c : Choice} {cs : List Choice} (hs : e.script = c :: cs) (hr : c.reset = false)
    (hm : e.mode = .oracle) (x : Tx) :
    (∀ b, c.reply = .ok b → e.result x = .done b) ∧ (∀ took, c.reply = .fail took → e.result x = .failed) := by
  have hc : e.choice = c := by unfold Env.choice; rw [hs]
  constructor
  · intro b hb; simp [Env.result, hc, hr, hb, hm]
  · intro took hb; simp [Env.result, hc, hr, hb]

/-- In the reference device's mode a completed STATUS read shows the device's own flags. -/
theorem Env.result_status_red {e : Env} {b : Byte} (hm : e.mode = .red) (h : e.result .status = .done b) :
    b = e.begin.red.status := by
  unfold Env.result at h
  split at h
  · cases h
  · split at h
    · cases h
    · simp [hm, Red.answer] at h; exact h.symm

end Sys2Proof.Machine
end

