-- ==== Sys2Proof/Laws/Encoding.lean ====
section
/-! SUPPORT. The bits of an encoded word, and the fields read back from it. -/

namespace Sys2Proof

/-- Bit by bit, a descriptor is its data, its register address and its direction (R96). -/
theorem getLsbD_encodeTxd (w : Bool) (r d : Byte) (i : Nat) :
    (encodeTxd w r d).getLsbD i =
      if i < 8 then d.getLsbD i else if i < 16 then r.getLsbD (i - 8) else (BitVec.ofBool w).getLsbD (i - 16) := by
  have outer := BitVec.getLsbD_append (x := BitVec.ofBool w ++ r) (y := d) (i := i)
  have inner := BitVec.getLsbD_append (x := BitVec.ofBool w) (y := r) (i := i - 8)
  refine outer.trans ?_
  rw [inner]
  by_cases h : i < 8
  · simp [h]
  · by_cases h' : i < 16
    · simp [h, h', show i - 8 < 8 by omega]
    · simp [h, h', show ¬ i - 8 < 8 by omega, show i - 8 - 8 = i - 16 by omega]

/-- Bit by bit, a command word is its data field, its address and its direction (R91). -/
theorem getLsbD_encodeCmd (w : Bool) (a : VAddr) (d : Byte) (i : Nat) :
    (encodeCmd w a d).getLsbD i =
      if i < 8 then d.getLsbD i else if i < 15 then a.getLsbD (i - 8) else (BitVec.ofBool w).getLsbD (i - 15) := by
  have outer := BitVec.getLsbD_append (x := selectByte w a) (y := d) (i := i)
  have inner := BitVec.getLsbD_append (x := BitVec.ofBool w) (y := a) (i := i - 8)
  refine outer.trans ?_
  rw [show (selectByte w a).getLsbD (i - 8) = _ from inner]
  by_cases h : i < 8
  · simp [h]
  · by_cases h' : i < 15
    · simp [h, h', show i - 8 < 7 by omega]
    · simp [h, h', show ¬ i - 8 < 7 by omega, show i - 8 - 7 = i - 15 by omega]

theorem getLsbD_ofBool_zero (w : Bool) : (BitVec.ofBool w).getLsbD 0 = w := by cases w <;> rfl

theorem txdRw_encodeTxd (w : Bool) (r d : Byte) : txdRw (encodeTxd w r d) = w := by
  unfold txdRw
  rw [getLsbD_encodeTxd]
  simp

theorem txdReg_encodeTxd (w : Bool) (r d : Byte) : txdReg (encodeTxd w r d) = r := by
  apply BitVec.eq_of_getLsbD_eq
  intro i hi
  unfold txdReg
  rw [BitVec.getLsbD_extractLsb', getLsbD_encodeTxd]
  simp [hi, show 8 + i < 16 by omega]

theorem txdData_encodeTxd (w : Bool) (r d : Byte) : txdData (encodeTxd w r d) = d := by
  apply BitVec.eq_of_getLsbD_eq
  intro i hi
  unfold txdData
  rw [BitVec.getLsbD_extractLsb', getLsbD_encodeTxd]
  simp [hi]

theorem cmdDir_encodeCmd (w : Bool) (a : VAddr) (d : Byte) : cmdDir (encodeCmd w a d) = w := by
  unfold cmdDir
  rw [getLsbD_encodeCmd]
  simp

theorem cmdVaddr_encodeCmd (w : Bool) (a : VAddr) (d : Byte) : cmdVaddr (encodeCmd w a d) = a := by
  apply BitVec.eq_of_getLsbD_eq
  intro i hi
  unfold cmdVaddr
  rw [BitVec.getLsbD_extractLsb', getLsbD_encodeCmd]
  simp [hi, show 8 + i < 15 by omega]

theorem cmdWdata_encodeCmd (w : Bool) (a : VAddr) (d : Byte) : cmdWdata (encodeCmd w a d) = d := by
  apply BitVec.eq_of_getLsbD_eq
  intro i hi
  unfold cmdWdata
  rw [BitVec.getLsbD_extractLsb', getLsbD_encodeCmd]
  simp [hi]

/-- The fields of a command word hold all of it. -/
theorem encodeCmd_fields (w : CmdWord) : encodeCmd (cmdDir w) (cmdVaddr w) (cmdWdata w) = w := by
  apply BitVec.eq_of_getLsbD_eq
  intro i hi
  rw [getLsbD_encodeCmd]
  unfold cmdDir cmdVaddr cmdWdata
  by_cases h : i < 8
  · simp [h]
  · by_cases h' : i < 15
    · simp [h, h', show i - 8 < 7 by omega, show 8 + (i - 8) = i by omega]
    · simp [show i = 15 by omega]

/-- The fields of a descriptor hold all of it. -/
theorem encodeTxd_fields (t : Txd) : encodeTxd (txdRw t) (txdReg t) (txdData t) = t := by
  apply BitVec.eq_of_getLsbD_eq
  intro i hi
  rw [getLsbD_encodeTxd]
  unfold txdRw txdReg txdData
  by_cases h : i < 8
  · simp [h]
  · by_cases h' : i < 16
    · simp [h, h', show i - 8 < 8 by omega, show 8 + (i - 8) = i by omega]
    · simp [show i = 16 by omega]

/-- Bit 7 of a select byte is the direction (R92). -/
theorem selectByte_bit7 (w : Bool) (a : VAddr) : (selectByte w a).getLsbD 7 = w := by
  have h := BitVec.getLsbD_append (x := BitVec.ofBool w) (y := a) (i := 7)
  refine Eq.trans h ?_
  simp

/-- The bits below it are the address (R92). -/
theorem selectByte_low (w : Bool) (a : VAddr) : (selectByte w a).extractLsb' 0 7 = a := by
  apply BitVec.eq_of_getLsbD_eq
  intro i hi
  rw [BitVec.getLsbD_extractLsb']
  have h := BitVec.getLsbD_append (x := BitVec.ofBool w) (y := a) (i := i)
  simp only [hi, Nat.zero_add, decide_true, Bool.true_and]
  refine Eq.trans h ?_
  simp [hi]

end Sys2Proof
end

