-- ==== Sys2Proof/Laws/PerInstr.lean ====
section
/-! SUPPORT. Per instruction: the encoder writes the fixed bits of the instruction's row in spec/opcode_table.json. -/

namespace Sys2Proof.Laws.FixedBits

/-- The mask and match of the instruction's row, on the word the encoder gives. -/
def Statement : Instr → Prop
  | .rdv a x => ∃ w, encode (.rdv a x) = .cmd w ∧ w &&& 0x8000#16 = 0x0000#16
  | .wrv a d => ∃ w, encode (.wrv a d) = .cmd w ∧ w &&& 0x8000#16 = 0x8000#16
  | .prdStatus => ∃ t, encode .prdStatus = .txd t ∧ t &&& 0x1FF00#17 = 0x00000#17
  | .prdRead => ∃ t, encode .prdRead = .txd t ∧ t &&& 0x1FF00#17 = 0x00200#17
  | .pwrWrite v => ∃ t, encode (.pwrWrite v) = .txd t ∧ t &&& 0x1FF00#17 = 0x10100#17

/-- The top bit of a command word alone. -/
theorem and_dirMask (w : CmdWord) : w &&& 0x8000#16 = if cmdDir w then 0x8000#16 else 0x0000#16 := by
  apply BitVec.eq_of_getLsbD_eq
  intro i hi
  have hm : (0x8000#16).getLsbD i = decide (i = 15) := by
    interval_cases i <;> decide
  rw [BitVec.getLsbD_and, hm]
  by_cases h : i = 15
  · subst h; unfold cmdDir; cases w.getLsbD 15 <;> decide
  · split <;> simp [h, hm]

theorem rdv (a : VAddr) (x : Byte) : Statement (.rdv a x) :=
  ⟨_, rfl, by rw [and_dirMask, cmdDir_encodeCmd]; rfl⟩

theorem wrv (a : VAddr) (d : Byte) : Statement (.wrv a d) :=
  ⟨_, rfl, by rw [and_dirMask, cmdDir_encodeCmd]; rfl⟩

theorem prdStatus : Statement .prdStatus := ⟨_, rfl, by decide⟩

theorem prdRead : Statement .prdRead := ⟨_, rfl, by decide⟩

theorem pwrWrite (v : Byte) : Statement (.pwrWrite v) := by
  refine ⟨_, rfl, ?_⟩
  apply BitVec.eq_of_getLsbD_eq
  intro i hi
  have hm : (0x1FF00#17).getLsbD i = decide (8 ≤ i) := by
    interval_cases i <;> decide
  rw [BitVec.getLsbD_and, getLsbD_encodeTxd, hm]
  interval_cases i <;> simp <;> decide

end Sys2Proof.Laws.FixedBits
end

