-- ==== Sys2Proof/Laws/State.lean ====
section
/-! SUPPORT. What each update of State leaves in each field: one lemma per field and update. -/

namespace Sys2Proof.Machine

variable (s : State)

/-! ## emit -/

@[simp] theorem State.emit_phase (e : Event) : (s.emit e).phase = s.phase := rfl
@[simp] theorem State.emit_dir (e : Event) : (s.emit e).dir = s.dir := rfl
@[simp] theorem State.emit_vaddr (e : Event) : (s.emit e).vaddr = s.vaddr := rfl
@[simp] theorem State.emit_wdata (e : Event) : (s.emit e).wdata = s.wdata := rfl
@[simp] theorem State.emit_stat (e : Event) : (s.emit e).stat = s.stat := rfl
@[simp] theorem State.emit_rdata (e : Event) : (s.emit e).rdata = s.rdata := rfl
@[simp] theorem State.emit_polls (e : Event) : (s.emit e).polls = s.polls := rfl
@[simp] theorem State.emit_params (e : Event) : (s.emit e).params = s.params := rfl
@[simp] theorem State.emit_port (e : Event) : (s.emit e).port = s.port := rfl
@[simp] theorem State.emit_rsp (e : Event) : (s.emit e).rsp = s.rsp := rfl
@[simp] theorem State.emit_resetReq (e : Event) : (s.emit e).resetReq = s.resetReq := rfl
@[simp] theorem State.emit_bus (e : Event) : (s.emit e).bus = s.bus := rfl
@[simp] theorem State.emit_trace (e : Event) : (s.emit e).trace = e :: s.trace := rfl
@[simp] theorem State.emit_env (e : Event) : (s.emit e).env = s.env := rfl
@[simp] theorem State.emit_host (e : Event) : (s.emit e).host = s.host := rfl

/-! ## goto -/

@[simp] theorem State.goto_phase (p : Phase) : (s.goto p).phase = p := rfl
@[simp] theorem State.goto_dir (p : Phase) : (s.goto p).dir = s.dir := rfl
@[simp] theorem State.goto_vaddr (p : Phase) : (s.goto p).vaddr = s.vaddr := rfl
@[simp] theorem State.goto_wdata (p : Phase) : (s.goto p).wdata = s.wdata := rfl
@[simp] theorem State.goto_stat (p : Phase) : (s.goto p).stat = s.stat := rfl
@[simp] theorem State.goto_rdata (p : Phase) : (s.goto p).rdata = s.rdata := rfl
@[simp] theorem State.goto_polls (p : Phase) : (s.goto p).polls = s.polls := rfl
@[simp] theorem State.goto_params (p : Phase) : (s.goto p).params = s.params := rfl
@[simp] theorem State.goto_port (p : Phase) : (s.goto p).port = s.port := rfl
@[simp] theorem State.goto_rsp (p : Phase) : (s.goto p).rsp = s.rsp := rfl
@[simp] theorem State.goto_resetReq (p : Phase) : (s.goto p).resetReq = s.resetReq := rfl
@[simp] theorem State.goto_bus (p : Phase) : (s.goto p).bus = s.bus := rfl
@[simp] theorem State.goto_trace (p : Phase) : (s.goto p).trace = s.trace := rfl
@[simp] theorem State.goto_env (p : Phase) : (s.goto p).env = s.env := rfl
@[simp] theorem State.goto_host (p : Phase) : (s.goto p).host = s.host := rfl

/-! ## enterLoop -/

@[simp] theorem State.enterLoop_phase (p : Phase) : (s.enterLoop p).phase = p := rfl
@[simp] theorem State.enterLoop_dir (p : Phase) : (s.enterLoop p).dir = s.dir := rfl
@[simp] theorem State.enterLoop_vaddr (p : Phase) : (s.enterLoop p).vaddr = s.vaddr := rfl
@[simp] theorem State.enterLoop_wdata (p : Phase) : (s.enterLoop p).wdata = s.wdata := rfl
@[simp] theorem State.enterLoop_stat (p : Phase) : (s.enterLoop p).stat = s.stat := rfl
@[simp] theorem State.enterLoop_rdata (p : Phase) : (s.enterLoop p).rdata = s.rdata := rfl
@[simp] theorem State.enterLoop_polls (p : Phase) : (s.enterLoop p).polls = 0 := rfl
@[simp] theorem State.enterLoop_params (p : Phase) : (s.enterLoop p).params = s.params := rfl
@[simp] theorem State.enterLoop_port (p : Phase) : (s.enterLoop p).port = s.port := rfl
@[simp] theorem State.enterLoop_rsp (p : Phase) : (s.enterLoop p).rsp = s.rsp := rfl
@[simp] theorem State.enterLoop_resetReq (p : Phase) : (s.enterLoop p).resetReq = s.resetReq := rfl
@[simp] theorem State.enterLoop_bus (p : Phase) : (s.enterLoop p).bus = s.bus := rfl
@[simp] theorem State.enterLoop_trace (p : Phase) : (s.enterLoop p).trace = s.trace := rfl
@[simp] theorem State.enterLoop_env (p : Phase) : (s.enterLoop p).env = s.env := rfl
@[simp] theorem State.enterLoop_host (p : Phase) : (s.enterLoop p).host = s.host := rfl

/-! ## respond -/

@[simp] theorem State.respond_phase (x : Rsp) : (s.respond x).phase = .idle := rfl
@[simp] theorem State.respond_dir (x : Rsp) : (s.respond x).dir = s.dir := rfl
@[simp] theorem State.respond_vaddr (x : Rsp) : (s.respond x).vaddr = s.vaddr := rfl
@[simp] theorem State.respond_wdata (x : Rsp) : (s.respond x).wdata = s.wdata := rfl
@[simp] theorem State.respond_stat (x : Rsp) : (s.respond x).stat = s.stat := rfl
@[simp] theorem State.respond_rdata (x : Rsp) : (s.respond x).rdata = s.rdata := rfl
@[simp] theorem State.respond_polls (x : Rsp) : (s.respond x).polls = s.polls := rfl
@[simp] theorem State.respond_params (x : Rsp) : (s.respond x).params = s.params := rfl
@[simp] theorem State.respond_port (x : Rsp) : (s.respond x).port = s.port := rfl
@[simp] theorem State.respond_rsp (x : Rsp) : (s.respond x).rsp = some x := rfl
@[simp] theorem State.respond_resetReq (x : Rsp) : (s.respond x).resetReq = s.resetReq := rfl
@[simp] theorem State.respond_bus (x : Rsp) : (s.respond x).bus = s.bus := rfl
@[simp] theorem State.respond_trace (x : Rsp) : (s.respond x).trace = .rsp x :: s.trace := rfl
@[simp] theorem State.respond_env (x : Rsp) : (s.respond x).env = s.env := rfl
@[simp] theorem State.respond_host (x : Rsp) : (s.respond x).host = s.host := rfl

/-! ## abort -/

@[simp] theorem State.abort_phase (e : Err) : (s.abort e).phase = .idle := rfl
@[simp] theorem State.abort_dir (e : Err) : (s.abort e).dir = s.dir := rfl
@[simp] theorem State.abort_vaddr (e : Err) : (s.abort e).vaddr = s.vaddr := rfl
@[simp] theorem State.abort_wdata (e : Err) : (s.abort e).wdata = s.wdata := rfl
@[simp] theorem State.abort_stat (e : Err) : (s.abort e).stat = s.stat := rfl
@[simp] theorem State.abort_rdata (e : Err) : (s.abort e).rdata = s.rdata := rfl
@[simp] theorem State.abort_polls (e : Err) : (s.abort e).polls = s.polls := rfl
@[simp] theorem State.abort_params (e : Err) : (s.abort e).params = s.params := rfl
@[simp] theorem State.abort_port (e : Err) : (s.abort e).port = s.port := rfl
@[simp] theorem State.abort_rsp (e : Err) : (s.abort e).rsp = some (.err e) := rfl
@[simp] theorem State.abort_resetReq (e : Err) : (s.abort e).resetReq = s.resetReq := rfl
@[simp] theorem State.abort_bus (e : Err) : (s.abort e).bus = s.bus := rfl
@[simp] theorem State.abort_trace (e : Err) : (s.abort e).trace = .rsp (.err e) :: s.trace := rfl
@[simp] theorem State.abort_env (e : Err) : (s.abort e).env = s.env := rfl
@[simp] theorem State.abort_host (e : Err) : (s.abort e).host = s.host := rfl

/-! ## accept -/

@[simp] theorem State.accept_phase (write : Bool) (a : VAddr) (d : Byte) :
    (s.accept write a d).phase = firstPhase write := rfl
@[simp] theorem State.accept_dir (write : Bool) (a : VAddr) (d : Byte) : (s.accept write a d).dir = write := rfl
@[simp] theorem State.accept_vaddr (write : Bool) (a : VAddr) (d : Byte) : (s.accept write a d).vaddr = a := rfl
@[simp] theorem State.accept_wdata (write : Bool) (a : VAddr) (d : Byte) : (s.accept write a d).wdata = d := rfl
@[simp] theorem State.accept_stat (write : Bool) (a : VAddr) (d : Byte) : (s.accept write a d).stat = s.stat := rfl
@[simp] theorem State.accept_rdata (write : Bool) (a : VAddr) (d : Byte) : (s.accept write a d).rdata = s.rdata := rfl
@[simp] theorem State.accept_polls (write : Bool) (a : VAddr) (d : Byte) :
    (s.accept write a d).polls = if write then 0 else s.polls := rfl
@[simp] theorem State.accept_params (write : Bool) (a : VAddr) (d : Byte) :
    (s.accept write a d).params = s.params := rfl
@[simp] theorem State.accept_port (write : Bool) (a : VAddr) (d : Byte) : (s.accept write a d).port = none := rfl
@[simp] theorem State.accept_rsp (write : Bool) (a : VAddr) (d : Byte) : (s.accept write a d).rsp = none := rfl
@[simp] theorem State.accept_resetReq (write : Bool) (a : VAddr) (d : Byte) :
    (s.accept write a d).resetReq = s.resetReq := rfl
@[simp] theorem State.accept_bus (write : Bool) (a : VAddr) (d : Byte) : (s.accept write a d).bus = s.bus := rfl
@[simp] theorem State.accept_trace (write : Bool) (a : VAddr) (d : Byte) :
    (s.accept write a d).trace = .acc (encodeCmd write a d) :: s.trace := rfl
@[simp] theorem State.accept_env (write : Bool) (a : VAddr) (d : Byte) : (s.accept write a d).env = s.env := rfl
@[simp] theorem State.accept_host (write : Bool) (a : VAddr) (d : Byte) : (s.accept write a d).host = s.host := rfl

/-! ## afterTx -/

@[simp] theorem State.afterTx_phase (t : Tx) : (s.afterTx t).phase = s.phase := rfl
@[simp] theorem State.afterTx_dir (t : Tx) : (s.afterTx t).dir = s.dir := rfl
@[simp] theorem State.afterTx_vaddr (t : Tx) : (s.afterTx t).vaddr = s.vaddr := rfl
@[simp] theorem State.afterTx_wdata (t : Tx) : (s.afterTx t).wdata = s.wdata := rfl
@[simp] theorem State.afterTx_stat (t : Tx) : (s.afterTx t).stat = s.stat := rfl
@[simp] theorem State.afterTx_rdata (t : Tx) : (s.afterTx t).rdata = s.rdata := rfl
@[simp] theorem State.afterTx_polls (t : Tx) : (s.afterTx t).polls = s.polls := rfl
@[simp] theorem State.afterTx_params (t : Tx) : (s.afterTx t).params = s.params := rfl
@[simp] theorem State.afterTx_port (t : Tx) : (s.afterTx t).port = s.port := rfl
@[simp] theorem State.afterTx_rsp (t : Tx) : (s.afterTx t).rsp = s.rsp := rfl
@[simp] theorem State.afterTx_resetReq (t : Tx) : (s.afterTx t).resetReq = s.resetReq := rfl
@[simp] theorem State.afterTx_bus (t : Tx) : (s.afterTx t).bus = (s.params.devAddr, t.descriptor) :: s.bus := rfl
@[simp] theorem State.afterTx_trace (t : Tx) : (s.afterTx t).trace = s.trace := rfl
@[simp] theorem State.afterTx_env (t : Tx) : (s.afterTx t).env = s.env.after t := rfl
@[simp] theorem State.afterTx_host (t : Tx) : (s.afterTx t).host = s.host := rfl

/-! ## hostFinish -/

@[simp] theorem State.hostFinish_phase (x : HostResult) : (s.hostFinish x).phase = s.phase := rfl
@[simp] theorem State.hostFinish_dir (x : HostResult) : (s.hostFinish x).dir = s.dir := rfl
@[simp] theorem State.hostFinish_vaddr (x : HostResult) : (s.hostFinish x).vaddr = s.vaddr := rfl
@[simp] theorem State.hostFinish_wdata (x : HostResult) : (s.hostFinish x).wdata = s.wdata := rfl
@[simp] theorem State.hostFinish_stat (x : HostResult) : (s.hostFinish x).stat = s.stat := rfl
@[simp] theorem State.hostFinish_rdata (x : HostResult) : (s.hostFinish x).rdata = s.rdata := rfl
@[simp] theorem State.hostFinish_polls (x : HostResult) : (s.hostFinish x).polls = s.polls := rfl
@[simp] theorem State.hostFinish_params (x : HostResult) : (s.hostFinish x).params = s.params := rfl
@[simp] theorem State.hostFinish_port (x : HostResult) : (s.hostFinish x).port = s.port := rfl
@[simp] theorem State.hostFinish_rsp (x : HostResult) : (s.hostFinish x).rsp = s.rsp := rfl
@[simp] theorem State.hostFinish_resetReq (x : HostResult) : (s.hostFinish x).resetReq = s.resetReq := rfl
@[simp] theorem State.hostFinish_bus (x : HostResult) : (s.hostFinish x).bus = s.bus := rfl
@[simp] theorem State.hostFinish_trace (x : HostResult) : (s.hostFinish x).trace = s.trace := rfl
@[simp] theorem State.hostFinish_env (x : HostResult) : (s.hostFinish x).env = s.env := rfl
@[simp] theorem State.hostFinish_host (x : HostResult) :
    (s.hostFinish x).host = { s.host with running := none, results := x :: s.host.results } := rfl

/-! ## applyReset -/

@[simp] theorem State.applyReset_phase : s.applyReset.phase = .idle := rfl
@[simp] theorem State.applyReset_dir : s.applyReset.dir = false := rfl
@[simp] theorem State.applyReset_vaddr : s.applyReset.vaddr = 0#7 := rfl
@[simp] theorem State.applyReset_wdata : s.applyReset.wdata = 0#8 := rfl
@[simp] theorem State.applyReset_stat : s.applyReset.stat = 0#8 := rfl
@[simp] theorem State.applyReset_rdata : s.applyReset.rdata = 0#8 := rfl
@[simp] theorem State.applyReset_polls : s.applyReset.polls = 0 := rfl
@[simp] theorem State.applyReset_params : s.applyReset.params = s.params := rfl
@[simp] theorem State.applyReset_port : s.applyReset.port = s.port := rfl
@[simp] theorem State.applyReset_rsp : s.applyReset.rsp = none := rfl
@[simp] theorem State.applyReset_resetReq : s.applyReset.resetReq = false := rfl
@[simp] theorem State.applyReset_bus : s.applyReset.bus = s.bus := rfl
@[simp] theorem State.applyReset_trace : s.applyReset.trace = s.trace := rfl
@[simp] theorem State.applyReset_env : s.applyReset.env = s.env := rfl
@[simp] theorem State.applyReset_host : s.applyReset.host = s.abandonedHost := rfl

/-! ## tick -/

@[simp] theorem State.tick_phase : s.tick.phase = s.phase := rfl
@[simp] theorem State.tick_dir : s.tick.dir = s.dir := rfl
@[simp] theorem State.tick_vaddr : s.tick.vaddr = s.vaddr := rfl
@[simp] theorem State.tick_wdata : s.tick.wdata = s.wdata := rfl
@[simp] theorem State.tick_stat : s.tick.stat = s.stat := rfl
@[simp] theorem State.tick_rdata : s.tick.rdata = s.rdata := rfl
@[simp] theorem State.tick_polls : s.tick.polls = s.polls := rfl
@[simp] theorem State.tick_params : s.tick.params = s.params := rfl
@[simp] theorem State.tick_port : s.tick.port = s.port := rfl
@[simp] theorem State.tick_rsp : s.tick.rsp = s.rsp := rfl
@[simp] theorem State.tick_resetReq : s.tick.resetReq = s.resetReq := rfl
@[simp] theorem State.tick_bus : s.tick.bus = s.bus := rfl
@[simp] theorem State.tick_trace : s.tick.trace = s.trace := rfl
@[simp] theorem State.tick_env : s.tick.env = s.env := rfl
@[simp] theorem State.tick_host : s.tick.host = { s.host with resets := s.host.resets.tail } := rfl

/-! ## delay -/

@[simp] theorem State.delay_phase : s.delay.phase = afterWait s.phase := rfl
@[simp] theorem State.delay_dir : s.delay.dir = s.dir := rfl
@[simp] theorem State.delay_vaddr : s.delay.vaddr = s.vaddr := rfl
@[simp] theorem State.delay_wdata : s.delay.wdata = s.wdata := rfl
@[simp] theorem State.delay_stat : s.delay.stat = s.stat := rfl
@[simp] theorem State.delay_rdata : s.delay.rdata = s.rdata := rfl
@[simp] theorem State.delay_polls : s.delay.polls = s.polls := rfl
@[simp] theorem State.delay_params : s.delay.params = s.params := rfl
@[simp] theorem State.delay_port : s.delay.port = s.port := rfl
@[simp] theorem State.delay_rsp : s.delay.rsp = s.rsp := rfl
@[simp] theorem State.delay_resetReq : s.delay.resetReq = s.resetReq := rfl
@[simp] theorem State.delay_bus : s.delay.bus = s.bus := rfl
@[simp] theorem State.delay_trace : s.delay.trace = .dly :: s.trace := rfl
@[simp] theorem State.delay_env : s.delay.env = s.env := rfl
@[simp] theorem State.delay_host : s.delay.host = s.host := rfl

end Sys2Proof.Machine
end

