-- ==== Sys2Proof/Laws/Step.lean ====
section
/-! SUPPORT. What one step can do, said once: `step_cases`. Then the frames of the host's move and of the sequencer's
continuations. -/

namespace Sys2Proof.Machine

/-! ## Decoding what the sequencer issues -/

@[simp] theorem decodeTxd_status : decodeTxd Tx.status.descriptor = .ok .prdStatus := by decide
@[simp] theorem decodeTxd_read : decodeTxd Tx.read.descriptor = .ok .prdRead := by decide

@[simp] theorem decodeTxd_write (v : Byte) : decodeTxd (Tx.write v).descriptor = .ok (.pwrWrite v) := by
  simp [decodeTxd, Tx.descriptor, txdRw_encodeTxd, txdReg_encodeTxd, txdData_encodeTxd]

/-! ## One step -/

/-- Everything a step without reset can have done. -/
inductive StepCase (s : State) : State → Prop where
  | accept (w : CmdWord) (hp : s.phase = .idle) (hw : s.port = some w) :
      StepCase s (s.accept (cmdDir w) (cmdVaddr w) (cmdWdata w))
  | host (hp : s.phase = .idle) (hw : s.port = none) : StepCase s s.hostTurn
  | delay (hp : s.phase.waits = true) : StepCase s s.delay
  | firstLook (hp : s.phase = .r1Stat) : StepCase s (s.transact .status State.afterFirstLook)
  | flush (hp : s.phase = .r1Flush) : StepCase s (s.transact .read State.afterFlush)
  | poll (pass : Byte → Bool) (exit wait : Phase) (hp : s.phase.pollRow = some (pass, exit, wait)) :
      StepCase s (s.transact .status (State.afterPoll pass exit wait))
  | data (hp : s.phase = .r5Data) : StepCase s (s.transact .read State.afterData)
  | readSelect (hp : s.phase = .r3Sel) :
      StepCase s (s.transact (.write (selectByte false s.vaddr)) fun _ s => s.enterLoop .r4Poll)
  | writeSelect (hp : s.phase = .w2Sel) :
      StepCase s (s.transact (.write (selectByte true s.vaddr)) fun _ s => s.enterLoop .w3Poll)
  | writeData (hp : s.phase = .w4Data) : StepCase s (s.transact (.write s.wdata) fun _ s => s.respond .okWr)

/-- The command's meaning in IDLE is its acceptance. -/
theorem exec_decodeCmd_idle {s : State} (w : CmdWord) (hp : s.phase = .idle) :
    exec (decodeCmd w) s = .next (s.accept (cmdDir w) (cmdVaddr w) (cmdWdata w)) := by
  unfold decodeCmd
  cases cmdDir w <;> simp [exec, execRdv, execWrv, State.offer, hp]

/-- What the machine does without reset, phase by phase. -/
theorem act_next (s : State) : ∃ t, act s = .next t ∧ StepCase s t := by
  unfold act
  cases hp : s.phase
  case idle =>
    cases hw : s.port with
    | none => exact ⟨s.hostTurn, by simp [State.fetch, hp, hw], .host hp hw⟩
    | some w =>
      exact ⟨_, by simp [State.fetch, hp, hw, decode, exec_decodeCmd_idle w hp], .accept w hp hw⟩
  case r1Stat =>
    exact ⟨_, by simp [State.fetch, State.issued, hp, decode, exec, execPrdStatus], .firstLook hp⟩
  case r1Flush => exact ⟨_, by simp [State.fetch, State.issued, hp, decode, exec, execPrdRead], .flush hp⟩
  case r2Poll =>
    exact ⟨_, by simp [State.fetch, State.issued, hp, decode, exec, execPrdStatus]; rfl, .poll _ _ _ (by rw [hp]; rfl)⟩
  case r4Poll =>
    exact ⟨_, by simp [State.fetch, State.issued, hp, decode, exec, execPrdStatus]; rfl, .poll _ _ _ (by rw [hp]; rfl)⟩
  case w1Poll =>
    exact ⟨_, by simp [State.fetch, State.issued, hp, decode, exec, execPrdStatus]; rfl, .poll _ _ _ (by rw [hp]; rfl)⟩
  case w3Poll =>
    exact ⟨_, by simp [State.fetch, State.issued, hp, decode, exec, execPrdStatus]; rfl, .poll _ _ _ (by rw [hp]; rfl)⟩
  case r3Sel =>
    exact ⟨_, by simp [State.fetch, State.issued, hp, decode, exec, execPwrWrite], .readSelect hp⟩
  case r5Data => exact ⟨_, by simp [State.fetch, State.issued, hp, decode, exec, execPrdRead], .data hp⟩
  case w2Sel =>
    exact ⟨_, by simp [State.fetch, State.issued, hp, decode, exec, execPwrWrite], .writeSelect hp⟩
  case w4Data =>
    exact ⟨_, by simp [State.fetch, State.issued, hp, decode, exec, execPwrWrite], .writeData hp⟩
  all_goals exact ⟨s.delay, by simp [State.fetch, State.issued, hp], .delay (by rw [hp]; rfl)⟩

/-- Say once what the machine can do without reset. -/
theorem act_cases {s t : State} (h : act s = .next t) : StepCase s t := by
  obtain ⟨t', h', c⟩ := act_next s
  rw [h] at h'
  cases h'
  exact c

/-- A faulted run stops. -/
theorem step_overrun {s : State} (h : s.env.overrun = true) : step s = .fault .redOverrun := by
  unfold step; rw [if_pos h]

/-- The reset input. -/
theorem step_reset {s : State} (ho : s.env.overrun = false) (hr : s.resetDue = true) :
    step s = .next s.tick.applyReset := by
  unfold step; rw [if_neg (by simp [ho]), if_pos hr]

/-- Without reset. -/
theorem step_act {s : State} (ho : s.env.overrun = false) (hr : s.resetDue = false) : step s = act s.tick := by
  unfold step; rw [if_neg (by simp [ho]), if_neg (by simp [hr])]

/-- A step of a machine that is not faulted and not being reset. -/
theorem step_live {s : State} (ho : s.env.overrun = false) (hr : s.resetDue = false) :
    ∃ t, step s = .next t ∧ StepCase s.tick t := by
  rw [step_act ho hr]; exact act_next s.tick

/-- Say once what a step can do. -/
theorem step_cases {s t : State} (h : step s = .next t) :
    s.env.overrun = false ∧
      (s.resetDue = true ∧ t = s.tick.applyReset ∨ s.resetDue = false ∧ StepCase s.tick t) := by
  cases ho : s.env.overrun
  · refine ⟨rfl, ?_⟩
    cases hr : s.resetDue
    · rw [step_act ho hr] at h
      exact .inr ⟨rfl, act_cases h⟩
    · rw [step_reset ho hr] at h
      cases h
      exact .inl ⟨rfl, rfl⟩
  · rw [step_overrun ho] at h
    cases h

/-! ## The reset input to come -/

@[simp] theorem State.tick_issued (s : State) : s.tick.issued = s.issued := rfl
@[simp] theorem State.tick_fetch (s : State) : s.tick.fetch = s.fetch := rfl

theorem noResetAhead_iff (s : State) :
    noResetAhead s = true ↔ s.resetReq = false ∧ ∀ b ∈ s.host.resets, b = false := by
  simp [noResetAhead]

theorem resetDue_of_noResetAhead {s : State} (h : noResetAhead s = true) : s.resetDue = false := by
  obtain ⟨hr, hl⟩ := (noResetAhead_iff s).mp h
  unfold State.resetDue
  rw [hr]
  cases hc : s.host.resets with
  | nil => rfl
  | cons b bs => simpa using hl b (by simp [hc])

theorem noResetAhead_tick {s : State} (h : noResetAhead s = true) : noResetAhead s.tick = true := by
  obtain ⟨hr, hl⟩ := (noResetAhead_iff s).mp h
  exact (noResetAhead_iff _).mpr ⟨hr, fun b hb => hl b (List.mem_of_mem_tail hb)⟩

@[simp] theorem State.tick_of_no_resets {s : State} (h : s.host.resets = []) : s.tick = s := by
  unfold State.tick
  rw [h, List.tail_nil, ← h]

/-! ## The host's move -/

/-- What the host's move never touches: the controller's registers, the parameters, the record, and of the device
everything but its own internal steps. -/
structure HostFrame (s t : State) : Prop where
  phase : t.phase = s.phase
  dir : t.dir = s.dir
  vaddr : t.vaddr = s.vaddr
  wdata : t.wdata = s.wdata
  stat : t.stat = s.stat
  rdata : t.rdata = s.rdata
  polls : t.polls = s.polls
  params : t.params = s.params
  resetReq : t.resetReq = s.resetReq
  bus : t.bus = s.bus
  trace : t.trace = s.trace
  env : t.env = s.env ∨ t.env = s.env.drain
  resets : t.host.resets = s.host.resets

theorem HostFrame.rfl' (s : State) : HostFrame s s :=
  ⟨rfl, rfl, rfl, rfl, rfl, rfl, rfl, rfl, rfl, rfl, rfl, .inl rfl, rfl⟩

/-- An update of the ports and the host alone. -/
theorem HostFrame.of_ports (s : State) (p : Option CmdWord) (x : Option Rsp) {a : HostAgent}
    (ha : a.resets = s.host.resets) : HostFrame s { s with port := p, rsp := x, host := a } :=
  ⟨rfl, rfl, rfl, rfl, rfl, rfl, rfl, rfl, rfl, rfl, rfl, .inl rfl, ha⟩

theorem State.hostContinue_ports (r : Running) (s : State) :
    ∃ p a, a.resets = s.host.resets ∧ s.hostContinue r = { s with port := p, host := a } := by
  unfold State.hostContinue State.hostFinish
  split
  · exact ⟨s.port, _, by rfl, rfl⟩
  · exact ⟨_, _, by rfl, rfl⟩

theorem State.hostStart_ports (o : ConsumerOp) (s : State) :
    ∃ p a, a.resets = s.host.resets ∧ s.hostStart o = { s with port := p, host := a } := by
  unfold State.hostStart
  split
  · exact State.hostContinue_ports _ _
  · exact ⟨s.port, _, by rfl, rfl⟩
  · exact ⟨s.port, _, by rfl, rfl⟩

theorem State.hostTake_ports (r : Running) (x : Rsp) (s : State) :
    ∃ p a, a.resets = s.host.resets ∧ s.hostTake r x = { s with port := p, rsp := none, host := a } := by
  unfold State.hostTake
  split
  · exact ⟨s.port, _, by rfl, rfl⟩
  all_goals exact State.hostContinue_ports _ { s with rsp := none }

theorem State.hostTurn_frame (s : State) : HostFrame s s.hostTurn := by
  unfold State.hostTurn
  split
  · next r _ =>
    split
    · next x _ =>
      obtain ⟨p, a, ha, h⟩ := s.hostTake_ports r x
      rw [h]; exact .of_ports s p none ha
    · exact .rfl' s
  · split
    · exact .of_ports s _ s.rsp rfl
    · next o rest _ =>
      obtain ⟨p, a, ha, h⟩ := State.hostStart_ports o { s with host := { s.host with todo := rest } }
      rw [h]; exact .of_ports s p s.rsp ha
    · exact ⟨rfl, rfl, rfl, rfl, rfl, rfl, rfl, rfl, rfl, rfl, rfl, .inr rfl, rfl⟩

theorem Env.drain_quiet (e : Env) : Red.Quiet e.red e.drain.red := by
  unfold Env.drain
  split
  · exact .rfl' _
  · rcases e.redIdle_cases with h | h | h <;> dsimp only <;> rw [h]
    · exact .rfl' _
    · exact e.red.consume_quiet
    · exact e.red.produce_quiet

/-- The device after a move in IDLE: as before under the oracle, and its own move else. -/
theorem Env.drain_red (e : Env) : e.drain.red = e.red ∨ (e.mode = .red ∧ e.drain.red = e.redIdle) := by
  unfold Env.drain
  split
  · exact .inl rfl
  · next h => exact .inr ⟨h, rfl⟩

@[simp] theorem Env.drain_mode (e : Env) : e.drain.mode = e.mode := by
  unfold Env.drain; split <;> rfl
@[simp] theorem Env.drain_script (e : Env) : e.drain.script = e.script := by
  unfold Env.drain; split <;> rfl
@[simp] theorem Env.drain_tx (e : Env) : e.drain.tx = e.tx := by
  unfold Env.drain; split <;> rfl
@[simp] theorem Env.drain_lazyK (e : Env) : e.drain.lazyK = e.lazyK := by
  unfold Env.drain; split <;> rfl

/-! ## The sequencer's continuations -/

/-- Everything the rest of a poll can do (R124, R227). -/
theorem State.afterPoll_cases (pass : Byte → Bool) (exit wait : Phase) (b : Byte) (s : State) :
    (pass b = true ∧ s.afterPoll pass exit wait b = { s with stat := b, polls := s.polls + 1, phase := exit }) ∨
    (pass b = false ∧ limitReached s.params.pollLimit (s.polls + 1) = true ∧
      s.afterPoll pass exit wait b = { s with stat := b, polls := s.polls + 1 }.abort .timeout) ∨
    (pass b = false ∧ limitReached s.params.pollLimit (s.polls + 1) = false ∧
      s.afterPoll pass exit wait b = { s with stat := b, polls := s.polls + 1, phase := wait }) := by
  unfold State.afterPoll
  cases hb : pass b
  · cases hl : limitReached s.params.pollLimit (s.polls + 1) <;> simp [hb, hl, State.goto]
  · simp [hb, State.goto]

/-- Everything row R1_STAT can do after its sample. -/
theorem State.afterFirstLook_cases (b : Byte) (s : State) :
    (rxValid b = true ∧ s.afterFirstLook b = { s with stat := b, phase := .r1Flush }) ∨
    (rxValid b = false ∧ s.afterFirstLook b = { s with stat := b, phase := .r2Poll, polls := 0 }) := by
  unfold State.afterFirstLook
  cases hb : rxValid b <;> simp [hb, State.goto, State.enterLoop]

/-- The rows of the four poll phases. -/
theorem Phase.pollRow_cases {p : Phase} {r : (Byte → Bool) × Phase × Phase} (h : p.pollRow = some r) :
    (p = .r2Poll ∧ r = (txClear, .r3Sel, .r2Wait)) ∨ (p = .r4Poll ∧ r = (rxValid, .r5Data, .r4Wait)) ∨
    (p = .w1Poll ∧ r = (txClear, .w2Sel, .w1Wait)) ∨ (p = .w3Poll ∧ r = (txClear, .w4Data, .w3Wait)) := by
  cases p <;> simp [Phase.pollRow] at h <;> simp [h]

theorem State.afterFirstLook_fields (b : Byte) (u : State) :
    (u.afterFirstLook b).params = u.params ∧ (u.afterFirstLook b).env = u.env ∧
    (u.afterFirstLook b).trace = u.trace ∧ (u.afterFirstLook b).dir = u.dir ∧
    (u.afterFirstLook b).phase = (if rxValid b then .r1Flush else .r2Poll) ∧
    (u.afterFirstLook b).polls = (if rxValid b then u.polls else 0) := by
  rcases u.afterFirstLook_cases b with ⟨h', h⟩ | ⟨h', h⟩ <;> rw [h] <;> simp [h']

theorem State.afterPoll_fields (pass : Byte → Bool) (exit wait : Phase) (b : Byte) (u : State) :
    (u.afterPoll pass exit wait b).params = u.params ∧ (u.afterPoll pass exit wait b).env = u.env ∧
    (u.afterPoll pass exit wait b).dir = u.dir ∧ (u.afterPoll pass exit wait b).polls = u.polls + 1 := by
  rcases u.afterPoll_cases pass exit wait b with ⟨_, h⟩ | ⟨_, _, h⟩ | ⟨_, _, h⟩ <;> rw [h] <;> simp

/-! ## The meanings as rows -/

theorem exec_prdStatus_samples {s : State} (h : s.phase.samples = true) :
    ∃ f, exec .prdStatus s = .next (s.transact .status f) := by
  cases hp : s.phase <;> simp [hp, Phase.samples] at h <;> exact ⟨_, by simp [exec, execPrdStatus, hp]; rfl⟩

theorem exec_prdRead_reads {s : State} (h : s.phase.reads = true) :
    ∃ f, exec .prdRead s = .next (s.transact .read f) := by
  cases hp : s.phase <;> simp [hp, Phase.reads] at h <;> exact ⟨_, by simp [exec, execPrdRead, hp]; rfl⟩

theorem exec_pwrWrite_writes {s : State} (v : Byte) (h : s.phase.writes = true) :
    ∃ f, exec (.pwrWrite v) s = .next (s.transact (.write v) f) := by
  cases hp : s.phase <;> simp [hp, Phase.writes] at h <;> exact ⟨_, by simp [exec, execPwrWrite, hp]; rfl⟩

theorem exec_prdStatus_poll {s : State} {pass : Byte → Bool} {exit wait : Phase}
    (h : s.phase.pollRow = some (pass, exit, wait)) :
    exec .prdStatus s = .next (s.transact .status (State.afterPoll pass exit wait)) := by
  rcases Phase.pollRow_cases h with ⟨hp, h⟩ | ⟨hp, h⟩ | ⟨hp, h⟩ | ⟨hp, h⟩ <;> cases h <;> simp [exec, execPrdStatus, hp]

/-! ## A property that every step keeps, reduced to the rows -/

/-- A property of the state after a transaction, from its three endings. -/
theorem State.transact_keeps {s : State} {x : Tx} {f : Byte → State → State} {Q : State → Prop}
    (hdone : ∀ b, s.env.result x = .done b → Q (f b ((s.afterTx x).emit (x.event b))))
    (hfail : Q (((s.afterTx x).emit (.fail x.kind)).abort .busError)) (hreset : Q ((s.afterTx x).applyReset)) :
    Q (s.transact x f) := by
  rcases s.transact_cases x f with ⟨b, h, h'⟩ | ⟨_, h'⟩ | ⟨_, h'⟩ <;> rw [h']
  · exact hdone b h
  · exact hfail
  · exact hreset

/-- A property of the state after a step without reset, row by row; the two ways a transaction can end badly are one
premise. -/
theorem act_keeps (Q : State → Prop) {s t : State}
    (haccept : ∀ w, s.phase = .idle → Q (s.accept (cmdDir w) (cmdVaddr w) (cmdWdata w)))
    (hhost : s.phase = .idle → Q s.hostTurn) (hdelay : s.phase.waits = true → Q s.delay)
    (hbad : ∀ x, s.phase.samples = true ∧ x = .status ∨ s.phase.reads = true ∧ x = .read ∨
      s.phase.writes = true ∧ (∃ v, x = .write v) →
      Q (((s.afterTx x).emit (.fail x.kind)).abort .busError) ∧ Q ((s.afterTx x).applyReset))
    (hfirst : ∀ b, s.phase = .r1Stat → s.env.result .status = .done b →
      Q (((s.afterTx .status).emit (.rs b)).afterFirstLook b))
    (hflush : ∀ b, s.phase = .r1Flush → Q (((s.afterTx .read).emit (.rr b)).enterLoop .r2Poll))
    (hpoll : ∀ pass exit wait b, s.phase.pollRow = some (pass, exit, wait) → s.env.result .status = .done b →
      Q (((s.afterTx .status).emit (.rs b)).afterPoll pass exit wait b))
    (hdata : ∀ b, s.phase = .r5Data → Q (((s.afterTx .read).emit (.rr b)).afterData b))
    (hrsel : s.phase = .r3Sel →
      Q (((s.afterTx (.write (selectByte false s.vaddr))).emit (.ww (selectByte false s.vaddr))).enterLoop .r4Poll))
    (hwsel : s.phase = .w2Sel →
      Q (((s.afterTx (.write (selectByte true s.vaddr))).emit (.ww (selectByte true s.vaddr))).enterLoop .w3Poll))
    (hwdata : s.phase = .w4Data → Q (((s.afterTx (.write s.wdata)).emit (.ww s.wdata)).respond .okWr))
    (h : act s = .next t) : Q t := by
  have bad {x : Tx} := hbad x
  cases act_cases h with
  | accept w hp => exact haccept w hp
  | host hp => exact hhost hp
  | delay hp => exact hdelay hp
  | firstLook hp =>
    have := bad (.inl ⟨by rw [hp]; rfl, rfl⟩)
    exact State.transact_keeps (fun b hb => hfirst b hp hb) this.1 this.2
  | flush hp =>
    have := bad (.inr (.inl ⟨by rw [hp]; rfl, rfl⟩))
    exact State.transact_keeps (fun b _ => hflush b hp) this.1 this.2
  | poll pass exit wait hp =>
    have hs : s.phase.samples = true := by
      rcases Phase.pollRow_cases hp with ⟨h, _⟩ | ⟨h, _⟩ | ⟨h, _⟩ | ⟨h, _⟩ <;> rw [h] <;> rfl
    have := bad (.inl ⟨hs, rfl⟩)
    exact State.transact_keeps (fun b hb => hpoll _ _ _ b hp hb) this.1 this.2
  | data hp =>
    have := bad (.inr (.inl ⟨by rw [hp]; rfl, rfl⟩))
    exact State.transact_keeps (fun b _ => hdata b hp) this.1 this.2
  | readSelect hp =>
    have := bad (.inr (.inr ⟨by rw [hp]; rfl, selectByte false s.vaddr, rfl⟩))
    exact State.transact_keeps (fun b _ => hrsel hp) this.1 this.2
  | writeSelect hp =>
    have := bad (.inr (.inr ⟨by rw [hp]; rfl, selectByte true s.vaddr, rfl⟩))
    exact State.transact_keeps (fun b _ => hwsel hp) this.1 this.2
  | writeData hp =>
    have := bad (.inr (.inr ⟨by rw [hp]; rfl, s.wdata, rfl⟩))
    exact State.transact_keeps (fun b _ => hwdata hp) this.1 this.2

/-- A property of the state after a step, from the reset and from what the machine does without it. -/
theorem step_keeps (Q : State → Prop) {s t : State} (hreset : Q s.tick.applyReset)
    (hact : act s.tick = .next t → Q t) (h : step s = .next t) : Q t := by
  obtain ⟨ho, ⟨_, rfl⟩ | ⟨hr, _⟩⟩ := step_cases h
  · exact hreset
  · exact hact (by rwa [← step_act ho hr])

@[simp] theorem State.abandonedHost_resets (s : State) : s.abandonedHost.resets = s.host.resets := by
  unfold State.abandonedHost
  split
  · split <;> rfl
  · rfl

/-- What the machine does without reset leaves the host's reset entries alone and does not assert the input. -/
theorem act_resets {s t : State} (h : act s = .next t) :
    t.host.resets = s.host.resets ∧ (s.resetReq = false → t.resetReq = false) := by
  refine act_keeps (fun t => t.host.resets = s.host.resets ∧ (s.resetReq = false → t.resetReq = false)) ?_ ?_ ?_ ?_ ?_ ?_
    ?_ ?_ ?_ ?_ ?_ h
  · intro w _; exact ⟨rfl, id⟩
  · intro _; exact ⟨s.hostTurn_frame.resets, fun h => s.hostTurn_frame.resetReq.trans h⟩
  · intro _; exact ⟨rfl, id⟩
  · intro x _; exact ⟨⟨rfl, id⟩, by simp⟩
  · intro b _ _; rcases State.afterFirstLook_cases b ((s.afterTx .status).emit (.rs b)) with ⟨_, h⟩ | ⟨_, h⟩ <;> rw [h] <;>
      exact ⟨rfl, id⟩
  · intro b _; exact ⟨rfl, id⟩
  · intro pass exit wait b _ _
    rcases State.afterPoll_cases pass exit wait b ((s.afterTx .status).emit (.rs b)) with ⟨_, h⟩ | ⟨_, _, h⟩ | ⟨_, _, h⟩ <;>
      rw [h] <;> exact ⟨rfl, id⟩
  · intro b _; exact ⟨rfl, id⟩
  · intro _; exact ⟨rfl, id⟩
  · intro _; exact ⟨rfl, id⟩
  · intro _; exact ⟨rfl, id⟩

/-- Each step uses up one of the host's reset entries. -/
theorem step_resets {s t : State} (h : step s = .next t) : t.host.resets = s.host.resets.tail :=
  step_keeps (fun t => t.host.resets = s.host.resets.tail) (by simp [State.tick]) (fun h => (act_resets h).1) h

theorem noResetAhead_step {s t : State} (hn : noResetAhead s = true) (h : step s = .next t) : noResetAhead t = true := by
  have hr := step_resets h
  obtain ⟨ho, ⟨hd, _⟩ | ⟨hd, _⟩⟩ := step_cases h
  · simp [resetDue_of_noResetAhead hn] at hd
  · rw [step_act ho hd] at h
    obtain ⟨h1, h2⟩ := (noResetAhead_iff s).mp hn
    exact (noResetAhead_iff t).mpr ⟨(act_resets h).2 h1, fun b hb => h2 b (List.mem_of_mem_tail (by rwa [hr] at hb))⟩

/-! ## Runs -/

theorem run_succ_of_step {n : Nat} {s t : State} (h : step s = .next t) : run (n + 1) s = run n t := by
  simp [run, h]

theorem run_add {m n : Nat} {s t : State} (h : run m s = .next t) : run (m + n) s = run n t := by
  induction m generalizing s with
  | zero => cases h; rw [Nat.zero_add]
  | succ m ih =>
    unfold run at h
    split at h
    · next u hu => rw [Nat.succ_add, run_succ_of_step hu]; exact ih h
    · cases h
    · cases h

theorem untilIdle_of_step_idle {n : Nat} {s t : State} (h : step s = .next t) (hp : t.phase = .idle) :
    untilIdle (n + 1) s = some t := by
  simp [untilIdle, h, hp]

theorem untilIdle_of_step_busy {n : Nat} {s t : State} (h : step s = .next t) (hp : t.phase ≠ .idle) :
    untilIdle (n + 1) s = untilIdle n t := by
  simp [untilIdle, h, hp]

theorem untilIdle_mono {m n : Nat} {s t : State} (h : untilIdle m s = some t) (hmn : m ≤ n) :
    untilIdle n s = some t := by
  induction m generalizing s n with
  | zero => cases h
  | succ m ih =>
    obtain ⟨n, rfl⟩ : ∃ k, n = k + 1 := ⟨n - 1, by omega⟩
    unfold untilIdle at h ⊢
    split
    · next u hu =>
      simp only [hu] at h
      split
      · next hi => simpa [hi] using h
      · next hi => simp only [hi, if_false] at h; exact ih h (by omega)
    · next hu => simp [hu] at h
    · next hu => simp [hu] at h

@[simp] theorem answering_nil : answering [] = [] := rfl
@[simp] theorem answering_cons (b : Byte) (bs : List Byte) :
    answering (b :: bs) = { fire := none, reply := .ok b, reset := false } :: answering bs := rfl

theorem stillPolling_zero {s : State} {p : Phase} (hp : s.phase = p) (hr : s.rsp = none) : stillPolling 0 s p :=
  ⟨s, rfl, hp, hr, rfl⟩

/-- A step that stays out of IDLE puts itself before a poll that goes on. -/
theorem stillPolling_step {n : Nat} {s t : State} {p : Phase} (h : step s = .next t) (hp : t.phase ≠ .idle)
    (ht : stillPolling n t p) : stillPolling (n + 1) s p := by
  obtain ⟨u, hu, h1, h2, h3⟩ := ht
  exact ⟨u, by rw [run_succ_of_step h, hu], h1, h2, by rw [untilIdle_of_step_busy h hp, h3]⟩

end Sys2Proof.Machine
end

