-- ==== Sys2Proof/Tests/Slice0.lean ====
section
/-! SUPPORT. The model's own tests: the well-formedness smoke, decoding of words written from 30_encoding.md, at most two
one-step tests per instruction, and for every obligation with hypotheses a state and operands that meet them. Expected
results are those of spec/95_test_vectors.md or of the rule named. -/

namespace Sys2Proof.Machine

/-! ## Helpers -/

/-- A completed transaction of the script. -/
def ans (b : Byte) : Choice := { fire := none, reply := .ok b, reset := false }

/-- A failed one. -/
def bad (took : Bool) : Choice := { fire := none, reply := .fail took, reset := false }

/-- One cut off by the reset input. -/
def cut : Choice := { fire := none, reply := .ok 0x00#8, reset := true }

/-- A controller in a phase, before an oracle that will answer as listed. -/
def inPhase (p : Phase) (script : List Choice) : State :=
  { State.reset with phase := p, env := { State.reset.env with script := script } }

/-- The same where the host asserts the reset input at the step after the next `n`. -/
def resetAt (n : Nat) (p : Phase) (script : List Choice) : State :=
  { inPhase p script with host := { State.reset.host with resets := List.replicate n false ++ [true] } }

/-- A controller in a phase with a poll limit and polls already taken. -/
def withLimit (n k : Nat) (s : State) : State := { s with polls := k, params := { s.params with pollLimit := some n } }

/-- A command offered to an idle controller. -/
def offered (w : CmdWord) (script : List Choice) : State := { inPhase .idle script with port := some w }

/-- An environment that is a given reference device. -/
def redEnv (r : Red) (script : List Choice) : Env :=
  { mode := .red, script := script, idle := [], tx := 0, lazyK := 0,
    red := r }

/-- A controller in a phase before a reference device. -/
def onRed (p : Phase) (r : Red) (script : List Choice) : State := { State.reset with phase := p, env := redEnv r script }

/-- The state a step answers, if it answers one. -/
def after? (s : State) : Option State :=
  match step s with
  | .next t => some t
  | .fault _ => none
  | .refused _ => none

/-- The same for an instruction's meaning. -/
def done? (i : Instr) (s : State) : Option State :=
  match exec i s with
  | .next t => some t
  | .fault _ => none
  | .refused _ => none

theorem step_of_after {s t : State} (h : after? s = some t) : step s = .next t := by
  unfold after? at h
  split at h
  · next h' => cases h; exact h'
  · cases h
  · cases h

theorem exec_of_done {i : Instr} {s t : State} (h : done? i s = some t) : exec i s = .next t := by
  unfold done? at h
  split at h
  · next h' => cases h; exact h'
  · cases h
  · cases h

/-! ## Well-formedness -/

theorem test_wellFormed_rdv_address : (AsmLine.rdv 0x80).wellFormed = false ∧ (AsmLine.rdv 0x7F).wellFormed = true := by
  decide
theorem test_wellFormed_wrv_address :
    (AsmLine.wrv 0x85 0x32).wellFormed = false ∧ (AsmLine.wrv 0x85 0x32).assemble = none := by decide
theorem test_wellFormed_wrv_data :
    (AsmLine.wrv 5 256).wellFormed = false ∧ (AsmLine.wrv 5 255).wellFormed = true := by decide
theorem test_wellFormed_pwrWrite_data :
    (AsmLine.pwrWrite 256).wellFormed = false ∧ (AsmLine.pwrWrite 255).wellFormed = true := by decide
theorem test_wellFormed_reads : AsmLine.prdStatus.wellFormed = true ∧ AsmLine.prdRead.wellFormed = true := by decide
theorem test_wellFormed_pollLimit :
    { Params.default with pollLimit := some 0 }.wellFormed = false ∧
    { Params.default with pollLimit := some 1 }.wellFormed = true ∧ Params.default.wellFormed = true := by decide
theorem test_assemble : (AsmLine.wrv 0x05 0x32).assemble.map encode = some (.cmd 0x8532#16) := by decide

/-! ## Decoding: DIR, VADDR and DATA, or RW, REG and DATA, bit by bit -/

theorem test_decode_rdv_E1 : decode (.cmd 0b0000000100000000#16) = .ok (.rdv 0x01#7 0x00#8) := by decide
theorem test_decode_rdv_E3 : decode (.cmd 0b0000010011111111#16) = .ok (.rdv 0x04#7 0xFF#8) := by decide
theorem test_decode_wrv_E7 : decode (.cmd 0b1000010100110010#16) = .ok (.wrv 0x05#7 0x32#8) := by decide
theorem test_decode_prdStatus_T1 : decode (.txd 0b00000000000000000#17) = .ok .prdStatus := by decide
theorem test_decode_prdRead_T2 : decode (.txd 0b00000001000000000#17) = .ok .prdRead := by decide
theorem test_decode_pwrWrite_T3 : decode (.txd 0b10000000110000101#17) = .ok (.pwrWrite 0x85#8) := by decide
theorem test_decode_refuses :
    decode (.txd 0b10000000000000000#17) = .error .statusIsReadOnly ∧
    decode (.txd 0b10000001000000000#17) = .error .readIsReadOnly ∧
    decode (.txd 0b00000000100000000#17) = .error .writeIsWriteOnly ∧
    decode (.txd 0b00000001100000000#17) = .error .noSuchRegister := by decide
theorem test_decode_bytes_E7 : decodeBytes [0x85#8, 0x32#8] = .ok (.wrv 0x05#7 0x32#8, []) := by decide
theorem test_decode_truncated : decodeBytes [0x85#8] = .error .truncated := by decide
theorem test_rawCalls_T3 : (Tx.write 0x85#8).rawCalls 0x49#7 = [.write 0x49#7 [0x01#8, 0x85#8]] := by decide

/-! ## One step per instruction -/

/-- E7: the three latches of `WRV 0x05, 0x32`. -/
theorem test_wrv_accepts :
    (after? (offered 0x8532#16 [])).map (fun t => (t.phase, t.dir, t.vaddr, t.wdata)) =
      some (.w1Poll, true, 0x05#7, 0x32#8) := by decide
/-- E3: an `RDV` begins with the look at STATUS. -/
theorem test_rdv_accepts :
    (after? (offered 0x04FF#16 [])).map (fun t => (t.phase, t.dir, t.vaddr)) = some (.r1Stat, false, 0x04#7) := by decide
/-- V3: both flags set, the flush first. -/
theorem test_prdStatus_flush :
    (after? (inPhase .r1Stat [ans 0x03#8])).map (fun t => (t.phase, t.trace)) = some (.r1Flush, [.rs 0x03#8]) := by decide
/-- V7: the second loop of a read leaves on RX_VALID though TX_VALID is set. -/
theorem test_prdStatus_exit :
    (after? (inPhase .r4Poll [ans 0x03#8])).map (fun t => (t.phase, t.polls)) = some (.r5Data, 1) := by decide
/-- V2: the flushed byte reaches no register and no response. -/
theorem test_prdRead_flush :
    (after? (inPhase .r1Flush [ans 0xAA#8])).map (fun t => (t.phase, t.rdata, t.rsp)) = some (.r2Poll, 0x00#8, none) := by
  decide
/-- V1: the final read. -/
theorem test_prdRead_data :
    (after? (inPhase .r5Data [ans 0x28#8])).map (fun t => (t.phase, t.rdata, t.rsp)) =
      some (.idle, 0x28#8, some (.okRd 0x28#8)) := by decide
/-- V11c: the select byte of a write to address 0 is 0x80. -/
theorem test_pwrWrite_select :
    (after? (inPhase .w2Sel [ans 0x00#8])).map (fun t => (t.phase, t.trace, t.bus)) =
      some (.w3Poll, [.ww 0x80#8], [(0x49#7, 0b10000000110000000#17)]) := by decide
/-- R207: a write fills the inbox of the reference device. -/
theorem test_pwrWrite_data :
    (after? { onRed .w4Data Red.blank [] with wdata := 0x32#8 }).map (fun t => (t.phase, t.rsp, t.env.red.inbox)) =
      some (.idle, some .okWr, some 0x32#8) := by decide
/-- V16: the third poll of three fails its test. -/
theorem test_timeout :
    (after? (withLimit 3 2 (inPhase .r4Poll [ans 0x02#8]))).map (fun t => (t.phase, t.rsp)) =
      some (.idle, some (.err .timeout)) := by decide
/-- V19: a failing third poll is a bus error. -/
theorem test_busError :
    (after? (withLimit 3 2 (inPhase .w1Poll [bad false]))).map (fun t => (t.phase, t.rsp)) =
      some (.idle, some (.err .busError)) := by decide

/-! ## The host's arithmetic: S4, S5, X2, X4, S8 -/

theorem test_raw_S5 : finish Params.default 0 (.rawChannel 0) [0x01#8, 0x2C#8] = .raw 300#16 := by decide
theorem test_single_S4 :
    finish Params.default 0 (.calibratedChannel 0) [0x40#8, 0x20#8, 0x00#8, 0x00#8] = .single 0x40200000#32 ∧
    singleValue 0x40200000#32 = some (10485760, -22) := by decide
theorem test_gain_X2 : fieldUpdate 0xCF#8 0x30#8 4 2#8 = 0xEF#8 := by decide
theorem test_mode_X4 : plan Params.default (.setMeasurementMode 7) = .run (rmw 0x04#7 0x0C#8 2 3#8) := by decide
theorem test_ready_S8 : finish Params.default 0 .dataReady [0x02#8] = .ready true ∧
    finish Params.default 0 .dataReady [0xFD#8] = .ready false := by decide

/-! ## Witnesses: every obligation with hypotheses, clause by clause -/

theorem witness_DecodingOfWordsAndDescriptors :
    (0x7FFF#16 : CmdWord).getLsbD 15 = false ∧ (0x8000#16 : CmdWord).getLsbD 15 = true ∧
    (0x7FFF#16 &&& 0x8000#16) = 0x0000#16 ∧ (0x8000#16 &&& 0x8000#16) = 0x8000#16 ∧
    (0x00000#17).extractLsb' 8 9 = 0x000#9 ∧ (0x00200#17).extractLsb' 8 9 = 0x002#9 ∧
    (0x101FF#17).extractLsb' 8 9 = 0x101#9 ∧ (inPhase .w2Sel []).issued = some 0x10180#17 := by decide

theorem witness_ReservedDescriptorsAreRefused :
    (0x10000#17).extractLsb' 8 9 = 0x100#9 ∧ (0x10200#17).extractLsb' 8 9 = 0x102#9 ∧
    (0x00100#17).extractLsb' 8 9 = 0x001#9 ∧ 3 ≤ ((0x00300#17).extractLsb' 8 8).toNat ∧
    3 ≤ ((0x1FFFF#17).extractLsb' 8 8).toNat ∧ (inPhase .r1Flush []).issued = some 0x00200#17 := by decide

theorem witness_CommandWordsEncodeBack : decode (.cmd 0x04FF#16) = .ok (.rdv 0x04#7 0xFF#8) := by decide

theorem witness_DescriptorsEncodeBack :
    decode (.txd 0x002FF#17) = .ok .prdRead ∧ decode (.txd 0x10132#17) = .ok (.pwrWrite 0x32#8) := by decide

theorem witness_SelectByteOnTheWire : (inPhase .r3Sel []).phase = .r3Sel ∧ (inPhase .w2Sel []).phase = .w2Sel := by decide

theorem witness_PhaseNumbering : Phase.ofNumber 14#4 = some .w4Data ∧ Phase.ofNumber 15#4 = none := by decide

theorem witness_ResponseWord :
    State.reset.rsp = none ∧ { State.reset with rsp := some (.okRd 0xFF#8) }.rspWord = some 0x0FF#10 ∧
    { State.reset with rsp := some .okWr }.rsp = some .okWr ∧
    { State.reset with rsp := some (.err .busError) }.rsp = some (.err .busError) ∧
    { State.reset with rsp := some (.err .timeout) }.rsp = some (.err .timeout) := by decide

theorem witness_ResetInputAbandonsCommand :
    { inPhase .r4Poll [] with resetReq := true }.env.overrun = false ∧
    { inPhase .r4Poll [] with resetReq := true }.resetReq = true ∧
    (resetAt 0 .idle []).env.overrun = false ∧ (resetAt 0 .idle []).host.resets = true :: [] ∧
    (resetAt 0 .w1Wait []).env.overrun = false ∧ (resetAt 0 .w1Wait []).host.resets = true :: [] ∧
    (resetAt 2 .w1Poll [ans 0x02#8]).host.resets = List.replicate 2 false ++ true :: [] := by decide

/-- A failed poll and its delay, and then the reset. -/
theorem witness_ResetInputAbandonsCommand_later :
    ∃ t, run 2 (resetAt 2 .w1Poll [ans 0x02#8]) = .next t ∧ t.env.overrun = false ∧ t.phase = .w1Poll :=
  ⟨_, rfl, rfl, rfl⟩

/-- R272, R252: a reset in a wait phase gives IDLE with no event and no response; the word offered meanwhile stays. -/
theorem test_reset_in_wait :
    (after? { resetAt 0 .r4Wait [] with port := some 0x0100#16 }).map
      (fun t => (t.phase, t.rsp, t.trace, t.port)) = some (.idle, none, [], some 0x0100#16) := by decide

theorem witness_ResetInFlightAbandonsCommand :
    (inPhase .r1Stat [cut]).env.choice.reset = true ∧ (inPhase .r1Stat [cut]).phase.samples = true ∧
    (inPhase .r5Data [cut]).env.choice.reset = true ∧ (inPhase .r5Data [cut]).phase.reads = true ∧
    (inPhase .w4Data [cut]).env.choice.reset = true ∧ (inPhase .w4Data [cut]).phase.writes = true := by decide

theorem witness_AcceptLatchesCommand :
    State.reset.phase = .idle ∧ (inPhase .w2Sel [ans 0x00#8]).phase ≠ .idle ∧
    (after? (inPhase .w2Sel [ans 0x00#8])).isSome = true := by decide

theorem witness_ReadIgnoresDataField :
    (inPhase .r3Sel [ans 0x00#8]).phase.direction = some false ∧ (inPhase .r3Sel [ans 0x00#8]).resetDue = false ∧
    (inPhase .r3Sel [ans 0x00#8]).env.choice.reset = false ∧
    (after? (inPhase .r3Sel [ans 0x00#8])).isSome = true := by decide

theorem witness_BusyHoldsOfferedCommand :
    (inPhase .w3Poll [ans 0x02#8]).phase ≠ .idle ∧ (after? (inPhase .w3Poll [ans 0x02#8])).isSome = true ∧
    (offered 0x8532#16 []).phase = .idle ∧ (offered 0x8532#16 []).port = some 0x8532#16 ∧
    (offered 0x8532#16 []).env.overrun = false ∧ (offered 0x8532#16 []).resetDue = false := by decide

theorem witness_FirstLookDecidesFlush :
    (inPhase .r1Stat [ans 0xFD#8]).phase = .r1Stat ∧ (inPhase .r1Stat [ans 0xFD#8]).env.result .status = .done 0xFD#8 ∧
    (0xFD#8 : Byte).getLsbD 0 = true ∧ (inPhase .r1Stat [ans 0xFE#8]).env.result .status = .done 0xFE#8 ∧
    (0xFE#8 : Byte).getLsbD 0 = false := by decide

/-- The last poll before a limit of 3 is not the third; a third poll that passes its test is the row's all the same. -/
theorem witness_PollRows :
    (withLimit 3 1 (inPhase .r2Poll [ans 0x02#8])).phase = .r2Poll ∧
    (withLimit 3 1 (inPhase .r4Poll [ans 0x02#8])).phase = .r4Poll ∧
    (withLimit 3 1 (inPhase .w1Poll [ans 0x02#8])).phase = .w1Poll ∧
    (withLimit 3 1 (inPhase .w3Poll [ans 0x02#8])).phase = .w3Poll ∧
    (withLimit 3 1 (inPhase .w3Poll [ans 0x02#8])).env.result .status = .done 0x02#8 ∧
    (withLimit 3 2 (inPhase .w3Poll [ans 0x00#8])).env.result .status = .done 0x00#8 ∧ txClear 0x00#8 = true ∧
    ∀ n, (withLimit 3 1 (inPhase .w3Poll [ans 0x02#8])).params.pollLimit = some n →
      (withLimit 3 1 (inPhase .w3Poll [ans 0x02#8])).polls + 1 < n := by
  refine ⟨by decide, by decide, by decide, by decide, by decide, by decide, by decide, ?_⟩
  intro n h
  cases h
  decide

theorem witness_ReadRows :
    (inPhase .r1Flush [ans 0xAA#8]).env.result .read = .done 0xAA#8 ∧ (inPhase .r1Flush [ans 0xAA#8]).phase = .r1Flush ∧
    (inPhase .r5Data [ans 0xAA#8]).env.result .read = .done 0xAA#8 ∧ (inPhase .r5Data [ans 0xAA#8]).phase = .r5Data := by
  decide

theorem witness_WriteRows :
    (inPhase .r3Sel [ans 0x00#8]).env.result (.write 0x04#8) = .done 0x00#8 ∧
    (inPhase .w2Sel [ans 0x00#8]).env.result (.write 0x84#8) = .done 0x00#8 ∧
    (inPhase .w4Data [ans 0x00#8]).env.result (.write 0x32#8) = .done 0x00#8 := by decide

theorem witness_FailureAborts :
    (inPhase .w1Poll [bad false]).phase.samples = true ∧ (inPhase .w1Poll [bad false]).env.result .status = .failed ∧
    (inPhase .r5Data [bad true]).phase.reads = true ∧ (inPhase .r5Data [bad true]).env.result .read = .failed ∧
    (inPhase .w4Data [bad true]).phase.writes = true ∧
    (inPhase .w4Data [bad true]).env.result (.write 0x32#8) = .failed := by decide

/-- Limit 1, the first poll of each loop. -/
theorem witness_TimeoutAborts :
    (withLimit 1 0 (inPhase .r2Poll [ans 0x02#8])).phase = .r2Poll ∧ (0x02#8 : Byte).getLsbD 1 = true ∧
    (withLimit 1 0 (inPhase .r4Poll [ans 0x02#8])).phase = .r4Poll ∧ (0x02#8 : Byte).getLsbD 0 = false ∧
    (withLimit 1 0 (inPhase .w1Poll [ans 0x02#8])).phase = .w1Poll ∧
    (withLimit 1 0 (inPhase .w3Poll [ans 0x02#8])).phase = .w3Poll ∧
    (withLimit 1 0 (inPhase .w3Poll [ans 0x02#8])).env.result .status = .done 0x02#8 ∧
    (withLimit 1 0 (inPhase .w3Poll [ans 0x02#8])).params.pollLimit = some 1 ∧
    1 ≤ (withLimit 1 0 (inPhase .w3Poll [ans 0x02#8])).polls + 1 := by decide

/-- A failing third poll of three; the third poll passing; failing its test; and the second failing it. -/
theorem witness_PollCheckOrder :
    (withLimit 3 2 (inPhase .w1Poll [bad false])).env.result .status = .failed ∧
    (withLimit 3 2 (inPhase .w1Poll [ans 0x00#8])).env.result .status = .done 0x00#8 ∧ txClear 0x00#8 = true ∧
    (withLimit 3 2 (inPhase .w1Poll [ans 0x02#8])).env.result .status = .done 0x02#8 ∧ txClear 0x02#8 = false ∧
    (withLimit 3 2 (inPhase .w1Poll [ans 0x02#8])).params.pollLimit = some 3 ∧
    3 ≤ (withLimit 3 2 (inPhase .w1Poll [ans 0x02#8])).polls + 1 ∧
    (withLimit 3 1 (inPhase .w1Poll [ans 0x02#8])).polls + 1 < 3 := by decide

theorem witness_PollCheckOrder_row : ∃ r, (inPhase .w1Poll []).phase.pollRow = some r := ⟨_, rfl⟩

theorem witness_DelayRows :
    (inPhase .r2Wait []).env.overrun = false ∧ (inPhase .r2Wait []).resetDue = false ∧
    (inPhase .r2Wait []).phase = .r2Wait ∧ (inPhase .r4Wait []).phase = .r4Wait ∧
    (inPhase .w1Wait []).phase = .w1Wait ∧ (inPhase .w3Wait []).phase = .w3Wait := by decide

theorem witness_MicroOperationsOnlyWhereIssued :
    (inPhase .w3Poll []).phase ∈ [Phase.r1Stat, .r2Poll, .r4Poll, .w1Poll, .w3Poll] ∧
    (inPhase .w3Wait []).phase ∉ [Phase.r1Stat, .r2Poll, .r4Poll, .w1Poll, .w3Poll] ∧
    (inPhase .r5Data []).phase ∈ [Phase.r1Flush, .r5Data] ∧ (inPhase .idle []).phase ∉ [Phase.r1Flush, .r5Data] ∧
    (inPhase .w4Data []).phase ∈ [Phase.r3Sel, .w2Sel, .w4Data] ∧
    (inPhase .r4Poll []).phase ∉ [Phase.r3Sel, .w2Sel, .w4Data] := by decide

theorem witness_StatusReadFrame :
    (done? .prdStatus (inPhase .r4Poll [ans 0x00#8])).isSome = true ∧
    (inPhase .r4Poll [ans 0x00#8]).env.choice.reset = false ∧
    (done? .prdStatus (inPhase .r4Poll [ans 0x00#8])).map State.phase = some .r4Wait := by decide

theorem witness_ReadReadFrame :
    (done? .prdRead (inPhase .r1Flush [ans 0xAA#8])).isSome = true ∧
    (inPhase .r1Flush [ans 0xAA#8]).env.choice.reset = false ∧ (inPhase .r1Flush [ans 0xAA#8]).phase = .r1Flush ∧
    (done? .prdRead (inPhase .r1Flush [ans 0xAA#8])).map State.phase = some .r2Poll := by decide

theorem witness_WriteFrame :
    (done? (.pwrWrite 0x04#8) (inPhase .r3Sel [ans 0x00#8])).isSome = true ∧
    (inPhase .r3Sel [ans 0x00#8]).env.choice.reset = false ∧
    (done? (.pwrWrite 0x04#8) (inPhase .r3Sel [ans 0x00#8])).map State.phase = some .r4Poll := by decide

/-- A reference device with a write-select of address 0x7F and its data byte pending. -/
def pendingData : Red := { Red.blank with wpend := some 0x7F#7, inbox := some 0x20#8 }

theorem witness_BoundaryStoresOnlyPendingWrite :
    (∀ p, (redEnv pendingData []).red.wpend = some p → (redEnv pendingData []).red.inbox ≠ none → (0x7E : Nat) ≠ p.toNat) ∧
    Memory.wf (redEnv pendingData []).red.vr = true ∧ (redEnv pendingData []).red.wpend = some 0x7F#7 ∧
    (redEnv pendingData []).red.inbox = some 0x20#8 ∧ (redEnv pendingData []).mode = .red ∧
    (redEnv pendingData []).idle = [] ∧
    { redEnv pendingData [] with idle := [some .consume, none] }.idle.head? = some (some .consume) ∧
    Memory.read (redEnv pendingData []).begin.red.vr 0x7F = 0x20#8 ∧ State.reset.env.mode = .oracle ∧
    (redEnv Red.blank []).red.quiescent = true ∧ (onRed .idle pendingData []).phase = .idle ∧
    (after? (onRed .idle pendingData [])).map (fun t => Memory.read t.env.red.vr 0x7F) = some 0x20#8 := by
  refine ⟨?_, by decide⟩
  intro p h _
  cases h
  decide

theorem witness_ConsumeStep :
    Red.blank.inbox = none ∧ Memory.wf pendingData.vr = true ∧ pendingData.inbox = some 0x20#8 ∧
    pendingData.wpend = some 0x7F#7 ∧ { Red.blank with inbox := some 0x84#8 }.wpend = none ∧
    (0x84#8 : Byte).getLsbD 7 = true ∧ (0x7F#8 : Byte).getLsbD 7 = false := by decide

theorem witness_ProduceStep : Red.blank.rpend = none ∧ { Red.blank with rpend := some 0x7F#7 }.rpend = some 0x7F#7 := by
  decide

/-- A reference device with a stale result. -/
def staleRed : Red := { Red.blank with rxv := true, rbuf := 0xEE#8 }

theorem witness_RedStatusRead :
    (redEnv staleRed []).mode = .red ∧ (redEnv staleRed []).result .status = .done 0x01#8 := by decide

theorem witness_RedReadRead :
    (redEnv staleRed []).mode = .red ∧ (redEnv staleRed []).result .read = .done 0xEE#8 := by decide

/-- Under lazy-1 the byte in the inbox is still there when the write arrives. -/
theorem witness_RedWriteReaction :
    (redEnv staleRed []).result (.write 0x84#8) = .done 0x00#8 ∧ (redEnv staleRed []).begin.red.inbox = none ∧
    { redEnv pendingData [] with lazyK := 1 }.result (.write 0x84#8) = .done 0x00#8 ∧
    { redEnv pendingData [] with lazyK := 1 }.begin.red.inbox ≠ none ∧
    (onRed .idle { Red.blank with overrun := true } []).env.mode = .red ∧
    (onRed .idle { Red.blank with overrun := true } []).env.red.overrun = true := by decide

/-- Under lazy-1 the inbox is still full when the failed write arrives. -/
theorem witness_FailedTransactionOnDevice :
    (redEnv staleRed [bad true]).mode = .red ∧ (redEnv staleRed [bad true]).choice.reply = .fail true ∧
    (redEnv staleRed [bad true]).choice.reset = false ∧ (redEnv staleRed [bad true]).begin.red.inbox = none ∧
    { redEnv pendingData [bad true] with lazyK := 1 }.choice.reply = .fail true ∧
    { redEnv pendingData [bad true] with lazyK := 1 }.begin.red.inbox ≠ none ∧
    (redEnv staleRed [bad false]).choice.reply = .fail false := by decide

/-- Both device steps enabled, and the environment's order for IDLE. -/
def bothEnabled (order : List (Option DevStep)) : Env :=
  { redEnv { pendingData with rpend := some 0x7F#7 } [] with idle := order }

theorem witness_SchedulersFire :
    pendingData.inbox ≠ none ∧ pendingData.ageConsume = 0 ∧ (2 : Nat) ≤ 2 ∧ (bothEnabled []).mode = .red ∧
    (bothEnabled [none]).idle = none :: [] ∧ Memory.wf (bothEnabled []).red.vr = true ∧
    (bothEnabled []).red.inbox = some 0x20#8 ∧ (bothEnabled []).red.wpend = some 0x7F#7 ∧
    (bothEnabled []).red.rpend = some 0x7F#7 ∧
    (bothEnabled [some .produce, some .consume]).idle = some .produce :: some .consume :: [] ∧
    (bothEnabled [some .consume, some .produce]).idle = some .consume :: some .produce :: [] ∧
    (bothEnabled []).idle = [] ∧ (onRed .idle pendingData []).phase = .idle ∧
    (onRed .idle pendingData []).port = none ∧ (onRed .idle pendingData []).env.overrun = false ∧
    (onRed .idle pendingData []).resetDue = false ∧ (onRed .idle pendingData []).host.running = none ∧
    (onRed .idle pendingData []).host.todo = [] := by decide

/-- R210: PRODUCE may fire before CONSUME in IDLE too, and then READ holds the old value. -/
theorem test_idle_order :
    (bothEnabled [some .produce, some .consume]).drain.drain.red.rbuf = 0x00#8 ∧
    (bothEnabled [some .consume, some .produce]).drain.drain.red.rbuf = 0x20#8 := by decide

theorem witness_StepRunsDecodedInstruction :
    (offered 0x8532#16 []).env.overrun = false ∧ (offered 0x8532#16 []).resetDue = false ∧
    (offered 0x8532#16 []).phase = .idle ∧ (offered 0x8532#16 []).port = some 0x8532#16 ∧
    decode (.cmd 0x8532#16) = .ok (.wrv 0x05#7 0x32#8) ∧ (inPhase .w4Data []).issued = some 0x10100#17 ∧
    decode (.txd 0x10100#17) = .ok (.pwrWrite 0x00#8) ∧ (inPhase .w1Wait []).phase ≠ .idle ∧
    (inPhase .w1Wait []).issued = none ∧ State.reset.phase = .idle ∧ State.reset.port = none ∧
    (resetAt 0 .w1Wait []).resetDue = true ∧ State.reset.host.resets = [] := by decide

theorem witness_PlacedWordRuns :
    decodeTableWord 16 0xFFFF = some (.wrv 0x7F#7 0xFF#8) ∧ decodeTableWord 24 0x00000 = some .prdStatus ∧
    decodeTableWord 24 0x00200 = some .prdRead ∧ decodeTableWord 24 0x101FF = some (.pwrWrite 0xFF#8) := by decide

theorem witness_BusTrafficOnlyTransport :
    (after? (inPhase .r3Sel [ans 0x00#8])).map State.bus = some [(0x49#7, 0x10100#17)] := by decide

theorem witness_ParametersFixed : (after? (inPhase .r3Sel [ans 0x00#8])).isSome = true := by decide

theorem witness_StepAlwaysGoesOn :
    State.reset.env.overrun = false ∧ (onRed .idle { Red.blank with overrun := true } []).env.overrun = true := by decide

/-- A state about to write, straight after its sample. -/
def aboutToWrite : State := { onRed .w4Data Red.blank [] with dir := true, trace := [.rs 0x00#8] }

theorem witness_WriteAndReadDisciplineKept :
    busDiscipline aboutToWrite = true ∧ (after? aboutToWrite).isSome = true := by decide

theorem witness_RedNeverOverrunKept : redObeyed aboutToWrite = true ∧ (after? aboutToWrite).isSome = true := by decide

theorem witness_VirtualRegistersCanonicalKept :
    vrCanonical (onRed .r1Stat pendingData []) = true ∧ (after? (onRed .r1Stat pendingData [])).isSome = true ∧
    (after? (onRed .r1Stat pendingData [])).map (fun t => t.env.red.vr) = some [(0x7F, 0x20#8)] := by decide

theorem witness_DirectionAgreesKept :
    dirAgrees aboutToWrite = true ∧ (after? aboutToWrite).isSome = true ∧ dirAgrees (inPhase .r3Sel []) = true ∧
    dirAgrees { inPhase .w2Sel [] with dir := true } = true := by decide

theorem witness_PollCounterBoundedKept :
    (withLimit 3 2 (inPhase .w1Poll [ans 0x02#8])).params.wellFormed = true ∧
    pollsBounded (withLimit 3 2 (inPhase .w1Poll [ans 0x02#8])) = true ∧
    (after? (withLimit 3 2 (inPhase .w1Poll [ans 0x02#8]))).map State.polls = some 3 := by decide

theorem witness_TimeoutNeedsLimit :
    (inPhase .w1Poll [ans 0x02#8]).params.pollLimit = none ∧ (after? (inPhase .w1Poll [ans 0x02#8])).isSome = true := by
  decide

theorem witness_OneResponsePerCommand :
    (inPhase .w4Data [ans 0x00#8]).phase ≠ .idle ∧ (inPhase .w4Data [ans 0x00#8]).resetDue = false ∧
    (inPhase .w4Data [ans 0x00#8]).env.choice.reset = false ∧
    (after? (inPhase .w4Data [ans 0x00#8])).map State.phase = some .idle := by decide

/-! ### Whole commands: V2 and V10 -/

/-- The script of V2, with an answer for its write, whose byte nobody looks at. -/
def v2 : State := offered 0x0400#16 ([0x01#8, 0xAA#8, 0x00#8, 0x00#8, 0x00#8, 0x01#8, 0x28#8].map ans)

def v2End : State := (untilIdle 20 v2).getD v2

/-- The script of V10. -/
def v10 : State := offered 0x8532#16 ([0x00#8, 0x00#8, 0x00#8, 0x00#8].map ans)

def v10End : State := (untilIdle 20 v10).getD v10

theorem witness_RdvTraceShape :
    CompletedCommand v2 0x0400#16
      [.rs 0x01#8, .rr 0xAA#8, .rs 0x00#8, .ww 0x04#8, .rs 0x00#8, .dly, .rs 0x01#8, .rr 0x28#8] (.okRd 0x28#8) v2End :=
  ⟨rfl, rfl, ⟨20, by decide⟩, by decide⟩

theorem witness_WrvTraceShape :
    CompletedCommand v10 0x8532#16 [.rs 0x00#8, .ww 0x85#8, .rs 0x00#8, .ww 0x32#8] .okWr v10End :=
  ⟨rfl, rfl, ⟨20, by decide⟩, by decide⟩

/-- Both clauses of CommandCounts have the hypotheses of the two shapes. -/
theorem witness_CommandCounts :
    (∃ evs b t, CompletedCommand v2 0x0400#16 evs (.okRd b) t) ∧ (∃ evs t, CompletedCommand v10 0x8532#16 evs .okWr t) :=
  ⟨⟨_, _, _, witness_RdvTraceShape⟩, ⟨_, _, witness_WrvTraceShape⟩⟩

/-- The replies of V10 finish it and one is left; three replies leave it waiting. -/
theorem witness_TableRefinesPseudocode :
    (offered 0x8532#16 []).phase = .idle ∧ (offered 0x8532#16 []).port = some 0x8532#16 ∧
    (offered 0x8532#16 []).env.mode = .oracle ∧ noResetAhead (offered 0x8532#16 []) = true ∧
    (offered 0x8532#16 (([.ok 0x00#8] : List BusReply).map (fun r => { fire := none, reply := r, reset := false }))).env.script =
      ([.ok 0x00#8] : List BusReply).map (fun r => { fire := none, reply := r, reset := false }) ++ [] ∧
    (bigCommand none 0x8532#16 [.ok 0x00#8, .ok 0x00#8, .ok 0x00#8, .ok 0x00#8, .ok 0x00#8]).response = some .okWr ∧
    (bigCommand none 0x8532#16 [.ok 0x00#8]).response = none := by decide

theorem witness_PollLimitBoundsCommands :
    (withLimit 1 0 v10).phase = .idle ∧ (withLimit 1 0 v10).port = some 0x8532#16 ∧ noResetAhead (withLimit 1 0 v10) = true ∧
    (withLimit 1 0 v10).env.overrun = false ∧ noResetInScript (withLimit 1 0 v10) = true ∧
    (withLimit 1 0 v10).params.pollLimit = some 1 ∧ (1 : Nat) ≤ 1 := by decide

/-- The answers of a write that waits in its first loop and in its second, of a read that waits in step 2 without and with
its flush, and in step 4 without (V20b) and with it. -/
theorem witness_NoLimitPollsForever :
    (Phase.w3Poll.pollRow).isSome = true ∧ noResetAhead (inPhase .w3Poll (answering [0x02#8])) = true ∧
    (inPhase .w3Poll (answering [0x02#8])).env.mode = .oracle ∧
    (inPhase .w3Poll (answering [0x02#8])).params.pollLimit = none ∧ (inPhase .w3Poll (answering [0x02#8])).rsp = none ∧
    txClear 0x02#8 = false ∧ (inPhase .w3Poll (answering [0x02#8])).env.script = answering [0x02#8] ++ [] ∧
    (offered (encodeCmd true 0x05#7 0x32#8) (answering [0x02#8])).phase = .idle ∧
    (offered (encodeCmd true 0x05#7 0x32#8) (answering [0x02#8])).port = some (encodeCmd true 0x05#7 0x32#8) ∧
    (offered (encodeCmd true 0x05#7 0x32#8) (answering [0x02#8])).env.script = answering [0x02#8] ∧
    (offered (encodeCmd true 0x05#7 0x32#8) (answering [0xFD#8, 0x00#8, 0x02#8])).env.script =
      answering ([0xFD#8, 0x00#8] ++ [0x02#8]) ∧
    (offered (encodeCmd false 0x05#7 0x00#8) (answering [0x00#8, 0x02#8])).port = some (encodeCmd false 0x05#7 0x00#8) ∧
    (offered (encodeCmd false 0x05#7 0x00#8) (answering [0x00#8, 0x02#8])).env.script = answering ([0x00#8] ++ [0x02#8]) ∧
    (offered (encodeCmd false 0x05#7 0x00#8) (answering [0x03#8, 0xAA#8, 0x02#8])).env.script =
      answering ([0x03#8, 0xAA#8] ++ [0x02#8]) ∧
    (offered (encodeCmd false 0x05#7 0x00#8) (answering [0x00#8, 0x00#8, 0x00#8, 0x00#8])).env.script =
      answering ([0x00#8, 0x00#8, 0x00#8] ++ [0x00#8]) ∧
    (offered (encodeCmd false 0x05#7 0x00#8) (answering [0x01#8, 0xAA#8, 0x00#8, 0x00#8, 0x00#8])).env.script =
      answering ([0x01#8, 0xAA#8, 0x00#8, 0x00#8] ++ [0x00#8]) ∧
    (0xFD#8 : Byte).getLsbD 1 = false ∧ (0x02#8 : Byte).getLsbD 1 = true ∧ (0x00#8 : Byte).getLsbD 0 = false ∧
    (0x03#8 : Byte).getLsbD 0 = true := by decide

/-- P1's start with a stale result, under lazy-2. -/
def writeThenRead : State :=
  { onRed .idle staleRed [] with
    host := { todo := [.cmd (encodeCmd true 0x7F#7 0xFF#8), .cmd (encodeCmd false 0x7F#7 0x00#8)]
              running := none, results := [], resets := [] }
    env := { redEnv staleRed [] with lazyK := 2 } }

theorem witness_WriteThenReadRoundTrip :
    writeThenRead.phase = .idle ∧ writeThenRead.port = none ∧ noResetAhead writeThenRead = true ∧
    writeThenRead.params.pollLimit = none ∧ redAtRest writeThenRead = true ∧ writeThenRead.env.script = [] ∧
    writeThenRead.host.running = none ∧
    writeThenRead.host.todo = [.cmd (encodeCmd true 0x7F#7 0xFF#8), .cmd (encodeCmd false 0x7F#7 0x00#8)] := by decide

/-- V12 and V13 at their second command. -/
def afterAbort (w : CmdWord) : State :=
  { onRed .idle { Red.blank with vr := [(0x04, 0x11#8), (0x06, 0x19#8)], wpend := some 0x04#7 } [] with port := some w }

theorem witness_PendingWriteSelectCorrupts :
    (afterAbort 0x0600#16).phase = .idle ∧ noResetAhead (afterAbort 0x0600#16) = true ∧
    (afterAbort 0x0600#16).params.pollLimit = none ∧ (afterAbort 0x0600#16).env.mode = .red ∧
    (afterAbort 0x0600#16).env.script = [] ∧ (afterAbort 0x8420#16).env.idle = [] ∧ (afterAbort 0x0600#16).env.red.wpend = some 0x04#7 ∧
    (afterAbort 0x0600#16).env.red.inbox = none ∧ (afterAbort 0x0600#16).env.red.rpend = none ∧
    (afterAbort 0x0600#16).env.red.rxv = false ∧ (afterAbort 0x0600#16).env.red.overrun = false ∧
    Memory.wf (afterAbort 0x0600#16).env.red.vr = true ∧
    (afterAbort 0x0600#16).port = some (encodeCmd false 0x06#7 0x00#8) ∧
    (afterAbort 0x8420#16).port = some (encodeCmd true 0x04#7 0x20#8) ∧ (0x20#8 : Byte).getLsbD 7 = false ∧
    (0xA0#8 : Byte).getLsbD 7 = true := by decide

/-! ### The host -/

theorem witness_ReadModifyWriteArithmetic : (7 : Nat) < 8 ∧ fieldUpdate 0xFF#8 0x02#8 1 0#8 = 0xFD#8 := by decide

/-- Both ends of 0..3 and of 0..255, one value below and one above, both policies, and a one-shot mode. -/
theorem witness_OperationExpansions :
    (0 : Int) ≤ 3 ∧ (3 : Int) ≤ 3 ∧ (0 : Int) ≤ 0 ∧ (-1 : Int) < 0 ∧ (3 : Int) < 4 ∧ (255 : Int) ≤ 255 ∧
    (255 : Int) < 256 ∧ Params.default.gainClamp = .toZero ∧
    { Params.default with gainClamp := .toThree }.gainClamp = .toThree ∧
    { Params.default with gainClamp := .reject }.gainClamp = .reject ∧ Params.default.modeClamp = .toThree ∧
    { Params.default with modeClamp := .toZero }.modeClamp = .toZero ∧
    { Params.default with modeClamp := .reject }.modeClamp = .reject ∧
    { Params.default with oneShotMode := some 3#2 }.oneShotMode = some 3#2 := by decide

theorem witness_ChannelAssembly :
    (List.replicate 24 0x40#8).length = 24 ∧
    (((List.replicate 24 0x40#8).drop (4 * 5)).take 4 = [0x40#8, 0x40#8, 0x40#8, 0x40#8]) ∧
    { Params.default with tempSigned := some true }.tempSigned = some true ∧
    { Params.default with tempSigned := some false }.tempSigned = some false ∧
    ConsumerOp.clearDataReady ∈ [ConsumerOp.setIndicatorLED true, .clearDataReady] := by decide

/-- A `setGain(2)` whose read has been offered and has ended with the response given. -/
def waiting (x : Option Rsp) : State :=
  { State.reset with
    rsp := x
    host := { todo := [], results := [], resets := []
              running := some { op := .setGain 2, rest := [.wrField 0x04#7 0x30#8 4 2#8], got := [] } } }

/-- The same with nothing left to offer. -/
def lastOf (x : Rsp) : State :=
  { State.reset with
    rsp := some x
    host := { todo := [], results := [], resets := [], running := some { op := .sensorType, rest := [], got := [] } } }

theorem witness_HostSequenceOrder :
    (waiting none).phase = .idle ∧ (waiting none).port = none ∧ (waiting none).env.overrun = false ∧
    (waiting none).resetDue = false ∧
    (waiting none).host.running = some { op := .setGain 2, rest := [.wrField 0x04#7 0x30#8 4 2#8], got := [] } ∧
    (waiting (some (.err .timeout))).rsp = some (.err .timeout) ∧ (waiting (some (.okRd 0x00#8))).rsp = some (.okRd 0x00#8) ∧
    (waiting (some .okWr)).rsp = some .okWr ∧ (waiting none).rsp = none ∧
    (lastOf (.okRd 0x3E#8)).host.running = some { op := .sensorType, rest := [], got := [] } ∧
    (lastOf (.okRd 0x3E#8)).rsp = some (.okRd 0x3E#8) ∧ (lastOf .okWr).rsp = some .okWr := by decide

end Sys2Proof.Machine
end

section
/-! PROOFS. The scope of the machine (00_scope.md): a step runs what is fetched (R9), and no step changes a parameter
(R10, R16). -/

namespace Sys2Proof.Machine

variable {s t : State}

/-! ## What the fetch finds -/

/-- IDLE issues no descriptor (R131). -/
theorem State.phase_ne_idle_of_issued {x : Txd} (h : s.issued = some x) : s.phase ≠ .idle := by
  intro hp
  simp [State.issued, hp] at h

theorem State.fetch_of_offered {w : CmdWord} (hp : s.phase = .idle) (hw : s.port = some w) :
    s.fetch = .word (.cmd w) := by
  simp [State.fetch, hp, hw]

theorem State.fetch_of_idle (hp : s.phase = .idle) (hw : s.port = none) : s.fetch = .idle := by
  simp [State.fetch, hp, hw]

theorem State.fetch_of_issued {x : Txd} (h : s.issued = some x) : s.fetch = .word (.txd x) := by
  unfold State.fetch
  split
  · next hp => exact absurd hp (State.phase_ne_idle_of_issued h)
  · rw [h]

theorem State.fetch_of_not_issued (hp : s.phase ≠ .idle) (h : s.issued = none) : s.fetch = .delay := by
  unfold State.fetch
  split
  · next hi => exact absurd hi hp
  · rw [h]

/-! ## What is done with it -/

theorem act_of_fetch_word {e : Encoded} {i : Instr} (hf : s.fetch = .word e) (hd : decode e = .ok i) :
    act s = exec i s := by
  simp only [act, hf, hd]

theorem act_of_fetch_delay (hf : s.fetch = .delay) : act s = .next s.delay := by
  simp only [act, hf]

theorem act_of_fetch_idle (hf : s.fetch = .idle) : act s = .next s.hostTurn := by
  simp only [act, hf]

/-- Settles O36: the fetch finds the offered word, the issued descriptor, the delay or nothing; each is then run. -/
theorem stepRunsDecodedInstruction : Obligations.StepRunsDecodedInstruction := by
  intro s ho
  refine ⟨step_reset ho, fun hr => ?_, rfl, State.tick_of_no_resets⟩
  rw [step_act ho hr]
  exact ⟨fun _ _ hp hw => act_of_fetch_word (State.fetch_of_offered (s := s.tick) hp hw),
    fun _ _ hi => act_of_fetch_word (State.fetch_of_issued (s := s.tick) hi),
    fun hp hi => act_of_fetch_delay (State.fetch_of_not_issued (s := s.tick) hp hi),
    fun hp hw => act_of_fetch_idle (State.fetch_of_idle (s := s.tick) hp hw)⟩

/-! ## The parameters -/

/-- Row by row: only the rest of a sample and the host's move need a look, every other row is an update of other fields. -/
theorem act_params (h : act s = .next t) : t.params = s.params := by
  refine act_keeps (fun t => t.params = s.params) (haccept := fun _ _ => rfl) (hhost := fun _ => s.hostTurn_frame.params)
    (hdelay := fun _ => rfl) (hbad := fun _ _ => ⟨rfl, rfl⟩) (hfirst := fun b _ _ => ?firstLook)
    (hflush := fun _ _ => rfl) (hpoll := fun pass exit wait b _ _ => ?poll) (hdata := fun _ _ => rfl)
    (hrsel := fun _ => rfl) (hwsel := fun _ => rfl) (hwdata := fun _ => rfl) h
  case firstLook => exact (State.afterFirstLook_fields b _).1
  case poll => exact (State.afterPoll_fields pass exit wait b _).1

theorem step_params (h : step s = .next t) : t.params = s.params :=
  step_keeps (fun t => t.params = s.params) rfl act_params h

/-- Settles O39: the reset values are those of `Params.default`, and `step_params` is the constancy. -/
theorem parametersFixed : Obligations.ParametersFixed :=
  ⟨rfl, rfl, fun _ _ => step_params⟩

end Sys2Proof.Machine
end

section
/-! PROOFS. The state (10_state.md): the values after reset (R53, R54), the rows of the two READ reads (R36), and three
invariants that a step keeps: the form of the virtual registers (R45), DIR (R32) and POLLS (R37). -/

namespace Sys2Proof.Machine

variable {s t : State}

/-! ## After reset -/

/-- Settles O10: each value stands in `State.reset`. -/
theorem resetStateValues : Obligations.ResetStateValues :=
  ⟨rfl, rfl, rfl, rfl, rfl, rfl, rfl⟩

/-- Settles O46: the trace and the memory are empty, the environment is the oracle, IDLE has no direction and the default
parameters no limit. -/
theorem resetMeetsInvariants : Obligations.ResetMeetsInvariants :=
  ⟨rfl, rfl, Memory.wf_reset, rfl, rfl, rfl⟩

/-! ## The rows that read READ -/

/-- A transaction that completes records its event and goes on with the byte. -/
theorem State.transact_done {x : Tx} {b : Byte} (f : Byte → State → State) (h : s.env.result x = .done b) :
    s.transact x f = f b ((s.afterTx x).emit (x.event b)) := by
  simp only [State.transact, h]

theorem exec_prdRead_flush (hp : s.phase = .r1Flush) : exec .prdRead s = .next (s.transact .read State.afterFlush) := by
  simp only [exec, execPrdRead, hp]

theorem exec_prdRead_data (hp : s.phase = .r5Data) : exec .prdRead s = .next (s.transact .read State.afterData) := by
  simp only [exec, execPrdRead, hp]

/-- Settles O18: each row's continuation after the completed read is the state the obligation writes out. -/
theorem readRows : Obligations.ReadRows := by
  intro s b hb
  constructor
  · intro hp
    rw [exec_prdRead_flush hp, State.transact_done _ hb]
    rfl
  · intro hp
    rw [exec_prdRead_data hp, State.transact_done _ hb]
    rfl

/-! ## The environment and the virtual registers -/

/-- All that becomes of the environment: nothing, the device's move in IDLE, or one transaction. -/
theorem act_env (h : act s = .next t) :
    t.env = s.env ∨ t.env = s.env.drain ∨ ∃ x, t.env = s.env.after x := by
  refine act_keeps (fun t => t.env = s.env ∨ t.env = s.env.drain ∨ ∃ x, t.env = s.env.after x)
    (haccept := fun _ _ => .inl rfl) (hhost := fun _ => ?host) (hdelay := fun _ => .inl rfl)
    (hbad := fun x _ => ⟨.inr (.inr ⟨x, rfl⟩), .inr (.inr ⟨x, rfl⟩)⟩) (hfirst := fun b _ _ => ?firstLook)
    (hflush := fun _ _ => .inr (.inr ⟨_, rfl⟩)) (hpoll := fun pass exit wait b _ _ => ?poll)
    (hdata := fun _ _ => .inr (.inr ⟨_, rfl⟩)) (hrsel := fun _ => .inr (.inr ⟨_, rfl⟩))
    (hwsel := fun _ => .inr (.inr ⟨_, rfl⟩)) (hwdata := fun _ => .inr (.inr ⟨_, rfl⟩)) h
  case host => exact s.hostTurn_frame.env.imp_right .inl
  case firstLook =>
    obtain ⟨_, henv, _⟩ := State.afterFirstLook_fields b ((s.afterTx .status).emit (.rs b))
    exact .inr (.inr ⟨_, henv⟩)
  case poll =>
    obtain ⟨_, henv, _⟩ := State.afterPoll_fields pass exit wait b ((s.afterTx .status).emit (.rs b))
    exact .inr (.inr ⟨_, henv⟩)

/-- The same for a step: the reset input leaves the environment alone. -/
theorem step_env (h : step s = .next t) : t.env = s.env ∨ t.env = s.env.drain ∨ ∃ x, t.env = s.env.after x :=
  step_keeps (fun t => t.env = s.env ∨ t.env = s.env.drain ∨ ∃ x, t.env = s.env.after x) (.inl rfl) act_env h

/-- Settles O43: neither the device's move in IDLE nor a transaction breaks the form, and a step does no more. -/
theorem virtualRegistersCanonicalKept : Obligations.VirtualRegistersCanonicalKept := by
  intro s t hs h
  unfold vrCanonical at hs ⊢
  rcases step_env h with henv | henv | ⟨x, henv⟩ <;> rw [henv]
  · exact hs
  · exact s.env.drain_quiet.wf hs
  · exact Env.after_wf x hs

/-! ## DIR -/

theorem dirAgrees_iff (s : State) : dirAgrees s = true ↔ ∀ d, s.phase.direction = some d → s.dir = d := by
  unfold dirAgrees
  cases s.phase.direction <;> simp

theorem dirAgrees_of_idle (hp : s.phase = .idle) : dirAgrees s = true :=
  (dirAgrees_iff s).mpr fun d hd => by simp [hp, Phase.direction] at hd

/-- What keeps DIR and the direction of the phase keeps their agreement. -/
theorem dirAgrees_congr (hs : dirAgrees s = true) (hd : t.dir = s.dir) (hp : t.phase.direction = s.phase.direction) :
    dirAgrees t = true := by
  unfold dirAgrees at hs ⊢
  rwa [hd, hp]

@[simp] theorem direction_firstPhase (write : Bool) : (firstPhase write).direction = some write := by
  cases write <;> rfl

@[simp] theorem direction_afterWait (p : Phase) : (afterWait p).direction = p.direction := by
  cases p <;> rfl

/-- A poll leaves its command only by IDLE: its exit and its wait belong to the same direction. -/
theorem Phase.pollRow_direction {p exit wait : Phase} {pass : Byte → Bool} (h : p.pollRow = some (pass, exit, wait)) :
    exit.direction = p.direction ∧ wait.direction = p.direction := by
  rcases Phase.pollRow_cases h with ⟨hp, hr⟩ | ⟨hp, hr⟩ | ⟨hp, hr⟩ | ⟨hp, hr⟩ <;> cases hr <;> rw [hp] <;> exact ⟨rfl, rfl⟩

/-- A command sets DIR as it chooses its first phase; every later row stays in the direction or returns to IDLE. -/
theorem act_dirAgrees (hs : dirAgrees s = true) (h : act s = .next t) : dirAgrees t = true := by
  refine act_keeps (fun t => dirAgrees t = true) (haccept := fun w _ => ?accept)
    (hhost := fun _ => dirAgrees_congr hs s.hostTurn_frame.dir (by rw [s.hostTurn_frame.phase]))
    (hdelay := fun _ => dirAgrees_congr hs rfl (direction_afterWait _))
    (hbad := fun _ _ => ⟨dirAgrees_of_idle rfl, dirAgrees_of_idle rfl⟩) (hfirst := fun b hp _ => ?firstLook)
    (hflush := fun _ hp => dirAgrees_congr hs rfl (by rw [hp]; rfl))
    (hpoll := fun pass exit wait b hp _ => ?poll) (hdata := fun _ _ => dirAgrees_of_idle rfl)
    (hrsel := fun hp => dirAgrees_congr hs rfl (by rw [hp]; rfl))
    (hwsel := fun hp => dirAgrees_congr hs rfl (by rw [hp]; rfl)) (hwdata := fun _ => dirAgrees_of_idle rfl) h
  case accept => simp [dirAgrees]
  case firstLook =>
    rcases State.afterFirstLook_cases b ((s.afterTx .status).emit (.rs b)) with ⟨_, hf⟩ | ⟨_, hf⟩ <;> rw [hf] <;>
      exact dirAgrees_congr hs rfl (by rw [hp]; rfl)
  case poll =>
    obtain ⟨hexit, hwait⟩ := Phase.pollRow_direction hp
    rcases State.afterPoll_cases pass exit wait b ((s.afterTx .status).emit (.rs b)) with
      ⟨_, hf⟩ | ⟨_, _, hf⟩ | ⟨_, _, hf⟩ <;> rw [hf]
    · exact dirAgrees_congr hs rfl hexit
    · exact dirAgrees_of_idle rfl
    · exact dirAgrees_congr hs rfl hwait

/-- Settles O44: `act_dirAgrees` for the step, and in the two select phases the direction of the phase is the bit issued. -/
theorem directionAgreesKept : Obligations.DirectionAgreesKept := by
  constructor
  · intro s t hs
    exact step_keeps (fun t => dirAgrees t = true) (dirAgrees_of_idle rfl) (act_dirAgrees (s := s.tick) hs)
  · intro s hs hp
    have hdir := (dirAgrees_iff s).mp hs
    rcases hp with hp | hp
    · have hd : s.dir = false := hdir false (by rw [hp]; rfl)
      simp only [State.issued, hp, hd]
    · have hd : s.dir = true := hdir true (by rw [hp]; rfl)
      simp only [State.issued, hp, hd]

/-! ## POLLS -/

/-- The phases of a poll loop: another poll may follow. -/
def Phase.inLoop (p : Phase) : Bool := p.waits || p.pollRow.isSome

theorem pollsBounded_iff (s : State) :
    pollsBounded s = true ↔
      ∀ n, s.params.pollLimit = some n → s.polls ≤ n ∧ (s.phase.inLoop = true → s.polls < n) := by
  unfold pollsBounded Phase.inLoop
  cases s.params.pollLimit with
  | none => simp
  | some n => cases s.phase.waits || s.phase.pollRow.isSome <;> simp

theorem Params.one_le_of_wellFormed {p : Params} {n : Nat} (hw : p.wellFormed = true) (hn : p.pollLimit = some n) :
    1 ≤ n := by
  simpa [Params.wellFormed, hn] using hw

theorem lt_of_not_limitReached {limit : Option Nat} {n k : Nat} (h : limitReached limit k = false)
    (hn : limit = some n) : k < n := by
  simpa [limitReached, hn] using h

/-- A loop that is entered starts below a well-formed limit. -/
theorem pollsBounded_of_polls_zero (hw : s.params.wellFormed = true) (h : s.polls = 0) : pollsBounded s = true :=
  (pollsBounded_iff s).mpr fun n hn => by
    have := Params.one_le_of_wellFormed hw hn
    omega

/-- What leaves the counter alone and enters no loop keeps the bound. -/
theorem pollsBounded_of_polls_eq (hs : pollsBounded s = true) (hl : t.params = s.params) (hk : t.polls = s.polls)
    (hp : t.phase.inLoop = true → s.phase.inLoop = true) : pollsBounded t = true :=
  (pollsBounded_iff t).mpr fun n hn => by
    obtain ⟨hle, hlt⟩ := (pollsBounded_iff s).mp hs n (hl ▸ hn)
    exact ⟨hk ▸ hle, fun h => hk ▸ hlt (hp h)⟩

theorem Phase.inLoop_of_waits {p : Phase} (h : p.waits = true) : p.inLoop = true := by
  simp [Phase.inLoop, h]

theorem Phase.inLoop_of_pollRow {p : Phase} {r : (Byte → Bool) × Phase × Phase} (h : p.pollRow = some r) :
    p.inLoop = true := by
  simp [Phase.inLoop, h]

/-- The exit of a poll leaves the loop. -/
theorem Phase.inLoop_exit {p exit wait : Phase} {pass : Byte → Bool} (h : p.pollRow = some (pass, exit, wait)) :
    exit.inLoop = false := by
  rcases Phase.pollRow_cases h with ⟨_, hr⟩ | ⟨_, hr⟩ | ⟨_, hr⟩ | ⟨_, hr⟩ <;> cases hr <;> rfl

/-- A poll counts one from below the limit, and goes on to a wait only if that has not reached it (R124, R227). -/
theorem pollsBounded_afterPoll {pass : Byte → Bool} {exit wait : Phase} (b : Byte) (hs : pollsBounded s = true)
    (hp : s.phase.pollRow = some (pass, exit, wait)) : pollsBounded (s.afterPoll pass exit wait b) = true := by
  rw [pollsBounded_iff] at hs ⊢
  intro n hn
  obtain ⟨hparams, _, _, hpolls⟩ := State.afterPoll_fields pass exit wait b s
  rw [hparams] at hn
  rw [hpolls]
  refine ⟨(hs n hn).2 (Phase.inLoop_of_pollRow hp), fun hloop => ?_⟩
  rcases State.afterPoll_cases pass exit wait b s with ⟨_, hf⟩ | ⟨_, _, hf⟩ | ⟨_, hl, _⟩
  · simp [hf, Phase.inLoop_exit hp] at hloop
  · rw [hf] at hloop
    cases hloop
  · exact lt_of_not_limitReached hl hn

/-- Entering a loop clears the counter, a poll counts by `pollsBounded_afterPoll`, and no other row counts. -/
theorem act_pollsBounded (hw : s.params.wellFormed = true) (hs : pollsBounded s = true) (h : act s = .next t) :
    pollsBounded t = true := by
  refine act_keeps (fun t => pollsBounded t = true) (haccept := fun w _ => ?accept) (hhost := fun _ => ?host)
    (hdelay := fun hp => pollsBounded_of_polls_eq hs rfl rfl fun _ => Phase.inLoop_of_waits hp)
    (hbad := fun _ _ => ⟨pollsBounded_of_polls_eq hs rfl rfl nofun, pollsBounded_of_polls_zero hw rfl⟩)
    (hfirst := fun b _ _ => ?firstLook) (hflush := fun _ _ => pollsBounded_of_polls_zero hw rfl)
    (hpoll := fun _ _ _ b hp _ => pollsBounded_afterPoll b hs hp)
    (hdata := fun _ _ => pollsBounded_of_polls_eq hs rfl rfl nofun)
    (hrsel := fun _ => pollsBounded_of_polls_zero hw rfl) (hwsel := fun _ => pollsBounded_of_polls_zero hw rfl)
    (hwdata := fun _ => pollsBounded_of_polls_eq hs rfl rfl nofun) h
  case accept =>
    cases cmdDir w
    · exact pollsBounded_of_polls_eq hs rfl rfl nofun
    · exact pollsBounded_of_polls_zero hw rfl
  case host =>
    have hf := s.hostTurn_frame
    exact pollsBounded_of_polls_eq hs hf.params hf.polls (by rw [hf.phase]; exact id)
  case firstLook =>
    rcases State.afterFirstLook_cases b ((s.afterTx .status).emit (.rs b)) with ⟨_, hf⟩ | ⟨_, hf⟩ <;> rw [hf]
    · exact pollsBounded_of_polls_eq hs rfl rfl nofun
    · exact pollsBounded_of_polls_zero hw rfl

/-- Settles O45: `act_pollsBounded` for the step, and reset clears the counter. -/
theorem pollCounterBoundedKept : Obligations.PollCounterBoundedKept := by
  intro s t hw hs
  exact step_keeps (fun t => pollsBounded t = true) (pollsBounded_of_polls_zero hw rfl)
    (act_pollsBounded (s := s.tick) hw hs)

end Sys2Proof.Machine
end

section
/-! PROOFS. The encodings (30_encoding.md): command words (R91, R99, R100, R108), transaction descriptors (R96, R99,
R102), the select byte (R92), phase numbers (R97) and response words (R95, R104). -/

namespace Sys2Proof.Machine

variable {s : State} {w : CmdWord} {t : Txd}

/-! ## Command words -/

theorem decodeCmd_of_clear (h : cmdDir w = false) : decodeCmd w = .rdv (cmdVaddr w) (cmdWdata w) := by
  simp [decodeCmd, h]

theorem decodeCmd_of_set (h : cmdDir w = true) : decodeCmd w = .wrv (cmdVaddr w) (cmdWdata w) := by
  simp [decodeCmd, h]

theorem decodeCmd_encodeCmd (write : Bool) (a : VAddr) (d : Byte) :
    decodeCmd (encodeCmd write a d) = if write then .wrv a d else .rdv a d := by
  simp only [decodeCmd, cmdDir_encodeCmd, cmdVaddr_encodeCmd, cmdWdata_encodeCmd]

theorem encode_decodeCmd (w : CmdWord) : encode (decodeCmd w) = .cmd w := by
  have fields := encodeCmd_fields w
  cases h : cmdDir w <;> rw [h] at fields
  · rw [decodeCmd_of_clear h, encode, fields]
  · rw [decodeCmd_of_set h, encode, fields]

/-- The mask 0x8000 of the match/mask pairs takes the direction bit alone (R99). -/
theorem cmdDir_of_masked {write : Bool} (h : w &&& 0x8000#16 = if write then 0x8000#16 else 0x0000#16) :
    cmdDir w = write := by
  rw [Laws.FixedBits.and_dirMask] at h
  cases hw : cmdDir w <;> cases write <;> simp [hw] at h ⊢

theorem decodeBytes_cmdBytes (w : CmdWord) (rest : List Byte) :
    decodeBytes (cmdBytes w ++ rest) = .ok (decodeCmd w, rest) := by
  have halves : w.extractLsb' 8 8 ++ w.extractLsb' 0 8 = w := BitVec.extractLsb'_append_extractLsb'
  simp only [cmdBytes, List.cons_append, List.nil_append, decodeBytes, halves]

/-! ## Descriptors -/

/-- TXD[16:8] is the direction above the register address (R96). -/
theorem extractLsb'_encodeTxd (write : Bool) (reg data : Byte) :
    (encodeTxd write reg data).extractLsb' 8 9 = BitVec.ofBool write ++ reg :=
  BitVec.extractLsb'_append_eq_left

theorem txdReg_of_upper {c : BitVec 9} (h : t.extractLsb' 8 9 = c) : txdReg t = c.extractLsb' 0 8 := by
  rw [← h, ← encodeTxd_fields t, extractLsb'_encodeTxd, txdReg_encodeTxd]
  exact BitVec.extractLsb'_append_eq_right.symm

theorem txdRw_of_upper {c : BitVec 9} (h : t.extractLsb' 8 9 = c) : txdRw t = c.getLsbD 8 := by
  rw [← h, txdRw, BitVec.getLsbD_extractLsb']
  rfl

theorem decodeTxd_prdStatus (h : t.extractLsb' 8 9 = 0x000#9) : decodeTxd t = .ok .prdStatus := by
  simp [decodeTxd, txdRw_of_upper h, txdReg_of_upper h, Config.regStatus]

theorem decodeTxd_prdRead (h : t.extractLsb' 8 9 = 0x002#9) : decodeTxd t = .ok .prdRead := by
  simp [decodeTxd, txdRw_of_upper h, txdReg_of_upper h, Config.regStatus, Config.regRead]

theorem decodeTxd_pwrWrite (h : t.extractLsb' 8 9 = 0x101#9) : decodeTxd t = .ok (.pwrWrite (txdData t)) := by
  simp [decodeTxd, txdRw_of_upper h, txdReg_of_upper h, Config.regWrite]

theorem decodeTxd_statusIsReadOnly (h : t.extractLsb' 8 9 = 0x100#9) : decodeTxd t = .error .statusIsReadOnly := by
  simp [decodeTxd, txdRw_of_upper h, txdReg_of_upper h, Config.regWrite, Config.regStatus]

theorem decodeTxd_readIsReadOnly (h : t.extractLsb' 8 9 = 0x102#9) : decodeTxd t = .error .readIsReadOnly := by
  simp [decodeTxd, txdRw_of_upper h, txdReg_of_upper h, Config.regWrite, Config.regStatus, Config.regRead]

theorem decodeTxd_writeIsWriteOnly (h : t.extractLsb' 8 9 = 0x001#9) : decodeTxd t = .error .writeIsWriteOnly := by
  simp [decodeTxd, txdRw_of_upper h, txdReg_of_upper h, Config.regWrite, Config.regStatus, Config.regRead]

theorem decodeTxd_noSuchRegister (h : 3 ≤ (txdReg t).toNat) : decodeTxd t = .error .noSuchRegister := by
  have other {r : Byte} (hr : r.toNat < 3) : txdReg t ≠ r := by
    rintro rfl
    omega
  have hstatus : txdReg t ≠ Config.regStatus := other (by decide)
  have hwrite : txdReg t ≠ Config.regWrite := other (by decide)
  have hread : txdReg t ≠ Config.regRead := other (by decide)
  simp only [decodeTxd, hstatus, hwrite, hread, if_false, ite_self]

/-- The three descriptors that are instructions, with the fields that make them so (R99). -/
theorem decodeTxd_ok_cases {i : Instr} (h : decodeTxd t = .ok i) :
    (txdRw t = false ∧ txdReg t = Config.regStatus ∧ i = .prdStatus) ∨
    (txdRw t = false ∧ txdReg t = Config.regRead ∧ i = .prdRead) ∨
    (txdRw t = true ∧ txdReg t = Config.regWrite ∧ i = .pwrWrite (txdData t)) := by
  unfold decodeTxd at h
  cases hrw : txdRw t <;> simp only [hrw, if_true, Bool.false_eq_true, if_false] at h
  case false =>
    split at h
    · next hreg => exact .inl ⟨rfl, hreg, (Except.ok.inj h).symm⟩
    · split at h
      · next hreg => exact .inr (.inl ⟨rfl, hreg, (Except.ok.inj h).symm⟩)
      · split at h <;> cases h
  case true =>
    split at h
    · next hreg => exact .inr (.inr ⟨rfl, hreg, (Except.ok.inj h).symm⟩)
    · split at h
      · cases h
      · split at h <;> cases h

/-- The mask of TXD[16:8] clears the data field and leaves the rest. -/
theorem and_upperMask (t : Txd) : t &&& 0x1FF00#17 = encodeTxd (txdRw t) (txdReg t) 0#8 := by
  have mask : (0x1FF00#17 : Txd) = BitVec.allOnes 9 ++ 0#8 := by decide
  conv_lhs => rw [← encodeTxd_fields t]
  rw [encodeTxd, mask]
  exact BitVec.and_append.trans (by rw [BitVec.and_allOnes, BitVec.and_zero]; rfl)

/-- The sequencer hands over descriptors of transactions only (R131). -/
theorem State.issued_descriptor (h : s.issued = some t) : ∃ x : Tx, t = x.descriptor := by
  unfold State.issued at h
  split at h <;> cases h <;> exact ⟨_, rfl⟩

theorem Tx.descriptor_upper (x : Tx) :
    x.descriptor.extractLsb' 8 9 = 0x000#9 ∨ x.descriptor.extractLsb' 8 9 = 0x002#9 ∨
      x.descriptor.extractLsb' 8 9 = 0x101#9 := by
  cases x with
  | status => exact .inl (extractLsb'_encodeTxd ..)
  | read => exact .inr (.inl (extractLsb'_encodeTxd ..))
  | write v => exact .inr (.inr (extractLsb'_encodeTxd ..))

theorem decodeTxd_descriptor (x : Tx) : ∃ i, decodeTxd x.descriptor = .ok i := by
  cases x with
  | status => exact ⟨_, decodeTxd_status⟩
  | read => exact ⟨_, decodeTxd_read⟩
  | write v => exact ⟨_, decodeTxd_write v⟩

/-! ## The statements about words and descriptors -/

/-- Settles O3: a command by `decodeCmd_encodeCmd`, a micro-operation by what its descriptor decodes to. -/
theorem decodeEncodeRoundTrip : Obligations.DecodeEncodeRoundTrip := by
  intro i
  cases i with
  | rdv a x => exact congrArg Except.ok (decodeCmd_encodeCmd false a x)
  | wrv a d => exact congrArg Except.ok (decodeCmd_encodeCmd true a d)
  | prdStatus => exact decodeTxd_status
  | prdRead => exact decodeTxd_read
  | pwrWrite v => exact decodeTxd_write v

/-- Settles O1: the direction bit decides a command word, TXD[16:8] a descriptor, and an issued descriptor is that of a
transaction. -/
theorem decodingOfWordsAndDescriptors : Obligations.DecodingOfWordsAndDescriptors := by
  refine ⟨fun _ h => congrArg Except.ok (decodeCmd_of_clear h), fun _ h => congrArg Except.ok (decodeCmd_of_set h),
    fun w h => ⟨cmdVaddr w, cmdWdata w, congrArg Except.ok (decodeCmd_of_clear (cmdDir_of_masked h))⟩,
    fun w h => ⟨cmdVaddr w, cmdWdata w, congrArg Except.ok (decodeCmd_of_set (cmdDir_of_masked h))⟩,
    fun _ => decodeTxd_prdStatus, fun _ => decodeTxd_prdRead, fun _ => decodeTxd_pwrWrite, fun s t h => ?issued⟩
  case issued =>
    obtain ⟨x, rfl⟩ := State.issued_descriptor h
    exact x.descriptor_upper

/-- Settles O2: each reserved access has its row in `decodeTxd`, and an issued descriptor is that of a transaction. -/
theorem reservedDescriptorsAreRefused : Obligations.ReservedDescriptorsAreRefused := by
  refine fun t => ⟨decodeTxd_statusIsReadOnly, decodeTxd_readIsReadOnly, decodeTxd_writeIsWriteOnly,
    decodeTxd_noSuchRegister, fun s h => ?issued⟩
  case issued =>
    obtain ⟨x, rfl⟩ := State.issued_descriptor h
    exact decodeTxd_descriptor x

/-- Settles O4: `encode_decodeCmd`, and the two bytes put together are the word. -/
theorem commandWordsEncodeBack : Obligations.CommandWordsEncodeBack := by
  refine fun w rest => ⟨fun i h => ?_, decodeBytes_cmdBytes w rest⟩
  cases h
  exact encode_decodeCmd w

/-- Settles O5: by `decodeTxd_ok_cases` the fields are known, and they hold all of the descriptor. -/
theorem descriptorsEncodeBack : Obligations.DescriptorsEncodeBack := by
  intro t i h
  change encode i = .txd (if txdRw t then t else t &&& 0x1FF00#17) ∧ i.isCommand = false
  rcases decodeTxd_ok_cases h with ⟨hrw, hreg, rfl⟩ | ⟨hrw, hreg, rfl⟩ | ⟨hrw, hreg, rfl⟩
  · exact ⟨by simp [encode, and_upperMask, hrw, hreg], rfl⟩
  · exact ⟨by simp [encode, and_upperMask, hrw, hreg], rfl⟩
  · have fields : encodeTxd true Config.regWrite (txdData t) = t := by rw [← hrw, ← hreg, encodeTxd_fields]
    exact ⟨by simp [encode, fields, hrw], rfl⟩

/-- Settles O6: each word, written out, evaluates to its instruction or to none. -/
theorem writtenWordsDecode : Obligations.WrittenWordsDecode := by
  unfold Obligations.WrittenWordsDecode
  decide

/-! ## The select byte -/

theorem selectByte_read (a : VAddr) : selectByte false a = a.setWidth 8 :=
  (BitVec.setWidth_eq_append (by decide)).symm

theorem selectByte_write (a : VAddr) : selectByte true a = a.setWidth 8 ||| 0x80#8 := by
  have high : (0x80#8 : Byte) = BitVec.ofBool true ++ 0#7 := by decide
  rw [← selectByte_read, high]
  exact (BitVec.or_append.trans (by rw [BitVec.or_zero]; rfl)).symm

/-- Settles O7: `selectByte_read` and `selectByte_write`, which are also the bytes of the two select rows. -/
theorem selectByteOnTheWire : Obligations.SelectByteOnTheWire := by
  refine ⟨fun a => ⟨selectByte_bit7 false a, selectByte_low false a, selectByte_read a⟩,
    fun a => ⟨selectByte_bit7 true a, selectByte_low true a, selectByte_write a⟩, fun s hp => ?_, fun s hp => ?_⟩
  · rw [← selectByte_read]
    simp only [State.issued, hp]
  · rw [← selectByte_write]
    simp only [State.issued, hp]

/-! ## Phase numbers -/

theorem Phase.ofNumber_number (p : Phase) : Phase.ofNumber p.number = some p := by
  cases p <;> rfl

/-- The phase of a number has that number, and only 15 has no phase (R97, R103). -/
theorem Phase.map_number_ofNumber :
    ∀ n : BitVec 4, (Phase.ofNumber n).map Phase.number = if n = 15#4 then none else some n := by
  decide

theorem Phase.number_of_ofNumber {n : BitVec 4} {p : Phase} (h : Phase.ofNumber n = some p) : p.number = n := by
  have hn := Phase.map_number_ofNumber n
  rw [h, Option.map_some] at hn
  split at hn
  · cases hn
  · exact Option.some.inj hn

theorem Phase.ofNumber_eq_none_iff (n : BitVec 4) : Phase.ofNumber n = none ↔ n = 15#4 := by
  rw [← Option.map_eq_none_iff (f := Phase.number), Phase.map_number_ofNumber]
  simp

/-- Settles O8: number and phase determine each other, and the fifteen numbers are those of `Phase.number`. -/
theorem phaseNumbering : Obligations.PhaseNumbering :=
  ⟨Phase.ofNumber_number, fun _ _ => Phase.number_of_ofNumber, Phase.ofNumber_eq_none_iff, rfl, rfl, rfl, rfl, rfl, rfl,
    rfl, rfl, rfl, rfl, rfl, rfl, rfl, rfl, rfl⟩

/-! ## Response words -/

theorem Rsp.code_word (free : Byte) (x : Rsp) : (x.word free).extractLsb' 8 2 = x.code := by
  cases x <;> exact BitVec.extractLsb'_append_eq_left

theorem Rsp.rdata_word_okRd (free b : Byte) : ((Rsp.okRd b).word free).extractLsb' 0 8 = b :=
  BitVec.extractLsb'_append_eq_right

theorem Rsp.code_ne_three (x : Rsp) : x.code ≠ 3#2 := by
  rcases x with _ | _ | (_ | _) <;> simp [Rsp.code]

theorem State.rspWord_of_rsp {x : Rsp} (h : s.rsp = some x) :
    s.rspWord = some (x.word (Config.freeRspData s.env.tx)) := by
  rw [State.rspWord, h, Option.map_some]

/-- Settles O9: the word at the port is the response's, and `Rsp.code_word` reads its CODE. -/
theorem responseWord : Obligations.ResponseWord := by
  refine fun s => ⟨fun h => by rw [State.rspWord, h, Option.map_none],
    fun b h => ⟨_, State.rspWord_of_rsp h, Rsp.code_word _ _, Rsp.rdata_word_okRd _ b⟩,
    fun h => ⟨_, State.rspWord_of_rsp h, Rsp.code_word _ _⟩, fun h => ⟨_, State.rspWord_of_rsp h, Rsp.code_word _ _⟩,
    fun h => ⟨_, State.rspWord_of_rsp h, Rsp.code_word _ _⟩, fun w h => ?noThree⟩
  case noThree =>
    obtain ⟨x, _, rfl⟩ := Option.map_eq_some_iff.mp h
    rw [Rsp.code_word]
    exact x.code_ne_three

end Sys2Proof.Machine
end

section
/-! PROOFS. How an encoded instruction meets the machine (30_encoding.md): a placed word is what the next step runs (R99,
R131), and the data field of a read is never used (R100). -/

namespace Sys2Proof.Machine

variable {s t : State}

/-! ## A placed word -/

theorem eq_ok_of_toOption {ε α : Type} {x : Except ε α} {a : α} (h : x.toOption = some a) : x = .ok a := by
  cases x <;> cases h
  rfl

/-- The decoder of table words is the decoder on the object the word stands for. -/
theorem decodeTableWord_eq_some {nbits w : Nat} {i : Instr} (h : decodeTableWord nbits w = some i) :
    ∃ e, tableObject nbits w = some e ∧ decode e = .ok i := by
  unfold decodeTableWord at h
  unfold tableObject
  split at h
  · next hbits =>
    split at h <;> cases h
    exact ⟨_, if_pos hbits, rfl⟩
  · next hbits =>
    split at h
    · next hbits' =>
      split at h
      · exact ⟨.txd (BitVec.ofNat 17 w), by rw [if_neg hbits, if_pos hbits'], eq_ok_of_toOption h⟩
      · cases h
    · cases h

/-- Placing writes PHASE, the command port and WDATA, nothing that could keep the next step from its row. -/
theorem State.place_frame (s : State) (e : Encoded) :
    (s.place e).resetReq = s.resetReq ∧ (s.place e).host = s.host ∧ (s.place e).env = s.env := by
  unfold State.place
  split
  · exact ⟨rfl, rfl, rfl⟩
  · split <;> exact ⟨rfl, rfl, rfl⟩

/-- The fetch finds the placed instruction; a read descriptor is issued with its data field zero (log 22). -/
theorem State.fetch_place {e : Encoded} {i : Instr} (s : State) (h : decode e = .ok i) :
    ∃ e', (s.place e).fetch = .word e' ∧ decode e' = .ok i := by
  cases e with
  | cmd w => exact ⟨.cmd w, rfl, h⟩
  | txd x =>
    have hx : decodeTxd x = .ok i := h
    rcases decodeTxd_ok_cases hx with ⟨_, _, rfl⟩ | ⟨_, _, rfl⟩ | ⟨_, _, rfl⟩
    · exact ⟨.txd Tx.status.descriptor, by simp only [State.place, hx]; rfl, decodeTxd_status⟩
    · exact ⟨.txd Tx.read.descriptor, by simp only [State.place, hx]; rfl, decodeTxd_read⟩
    · exact ⟨.txd (Tx.write (txdData x)).descriptor, by simp only [State.place, hx]; rfl, decodeTxd_write _⟩

/-- The state in which a table word is placed: no reset asserted now or later, no run marked faulted. -/
theorem State.withFetchWord_eq_place {nbits w : Nat} {e : Encoded} (s : State) (h : tableObject nbits w = some e) :
    ∃ r : State, s.withFetchWord nbits w = r.place e ∧ r.resetReq = false ∧ r.host.resets = [] ∧
      r.env.overrun = false := by
  refine ⟨_, by rw [State.withFetchWord, State.placeWord, h], rfl, rfl, ?_⟩
  unfold Env.overrun
  split <;> rfl

/-- Settles O37: the placed word is fetched, and nothing stands in the way of the step that runs it. -/
theorem placedWordRuns : Obligations.PlacedWordRuns := by
  intro s nbits w i hi
  obtain ⟨e, he, hd⟩ := decodeTableWord_eq_some hi
  obtain ⟨r, hplaced, hreq, hresets, hover⟩ := s.withFetchWord_eq_place he
  obtain ⟨hreq', hhost, henv⟩ := r.place_frame e
  obtain ⟨e', hfetch, hd'⟩ := r.fetch_place hd
  rw [hplaced]
  have ho : (r.place e).env.overrun = false := by rw [henv, hover]
  have hr : (r.place e).resetDue = false := by simp [State.resetDue, hreq', hhost, hreq, hresets]
  have htick : (r.place e).tick = r.place e := State.tick_of_no_resets (by rw [hhost, hresets])
  refine ⟨?_, (step_live ho hr).imp fun _ h => h.1⟩
  rw [step_act ho hr, htick, act_of_fetch_word hfetch hd']

/-! ## The rows as equations -/

theorem act_of_issued {x : Txd} {i : Instr} (hi : s.issued = some x) (hd : decodeTxd x = .ok i) : act s = exec i s :=
  act_of_fetch_word (State.fetch_of_issued hi) hd

theorem State.issued_of_samples (h : s.phase.samples = true) : s.issued = some Tx.status.descriptor := by
  cases hp : s.phase <;> simp [hp, Phase.samples] at h <;> simp only [State.issued, hp]

theorem State.issued_of_reads (h : s.phase.reads = true) : s.issued = some Tx.read.descriptor := by
  cases hp : s.phase <;> simp [hp, Phase.reads] at h <;> simp only [State.issued, hp]

theorem Phase.samples_of_pollRow {p : Phase} {r : (Byte → Bool) × Phase × Phase} (h : p.pollRow = some r) :
    p.samples = true := by
  rcases Phase.pollRow_cases h with ⟨hp, _⟩ | ⟨hp, _⟩ | ⟨hp, _⟩ | ⟨hp, _⟩ <;> rw [hp] <;> rfl

theorem State.not_issued_of_waits (h : s.phase.waits = true) : s.phase ≠ .idle ∧ s.issued = none := by
  cases hp : s.phase <;> simp [hp, Phase.waits] at h <;> simp [State.issued, hp]

/-- The converse of `act_cases`: each row is what the machine does where its condition holds. -/
theorem StepCase.act_eq (c : StepCase s t) : act s = .next t := by
  cases c with
  | accept w hp hw => rw [act_of_fetch_word (State.fetch_of_offered hp hw) rfl, exec_decodeCmd_idle w hp]
  | host hp hw => exact act_of_fetch_idle (State.fetch_of_idle hp hw)
  | delay hp =>
    obtain ⟨hidle, hissued⟩ := State.not_issued_of_waits hp
    exact act_of_fetch_delay (State.fetch_of_not_issued hidle hissued)
  | firstLook hp =>
    rw [act_of_issued (State.issued_of_samples (by rw [hp]; rfl)) decodeTxd_status]
    simp only [exec, execPrdStatus, hp]
  | flush hp => rw [act_of_issued (State.issued_of_reads (by rw [hp]; rfl)) decodeTxd_read, exec_prdRead_flush hp]
  | poll pass exit wait hp =>
    rw [act_of_issued (State.issued_of_samples (Phase.samples_of_pollRow hp)) decodeTxd_status, exec_prdStatus_poll hp]
  | data hp => rw [act_of_issued (State.issued_of_reads (by rw [hp]; rfl)) decodeTxd_read, exec_prdRead_data hp]
  | readSelect hp =>
    rw [act_of_issued (by simp only [State.issued, hp]) (decodeTxd_write (selectByte false s.vaddr))]
    simp only [exec, execPwrWrite, hp]
  | writeSelect hp =>
    rw [act_of_issued (by simp only [State.issued, hp]) (decodeTxd_write (selectByte true s.vaddr))]
    simp only [exec, execPwrWrite, hp]
  | writeData hp =>
    rw [act_of_issued (by simp only [State.issued, hp]) (decodeTxd_write s.wdata)]
    simp only [exec, execPwrWrite, hp]

/-! ## The data field of a read -/

/-- A continuation that neither looks at WDATA nor changes it. -/
def IgnoresWdata (f : Byte → State → State) : Prop :=
  ∀ (b d : Byte) (u : State), f b { u with wdata := d } = { f b u with wdata := d }

theorem ignoresWdata_afterFirstLook : IgnoresWdata State.afterFirstLook := by
  intro b d u
  unfold State.afterFirstLook
  dsimp only
  split <;> rfl

theorem ignoresWdata_afterPoll (pass : Byte → Bool) (exit wait : Phase) :
    IgnoresWdata (State.afterPoll pass exit wait) := by
  intro b d u
  unfold State.afterPoll
  dsimp only
  split
  · rfl
  · split <;> rfl

theorem ignoresWdata_afterFlush : IgnoresWdata State.afterFlush := fun _ _ _ => rfl

theorem ignoresWdata_afterData : IgnoresWdata State.afterData := fun _ _ _ => rfl

theorem ignoresWdata_enterLoop (p : Phase) : IgnoresWdata fun _ s => s.enterLoop p := fun _ _ _ => rfl

/-- A transaction that the reset input does not cut off ignores WDATA if its continuation does. -/
theorem State.transact_wdata {f : Byte → State → State} (hf : IgnoresWdata f) (x : Tx) (d : Byte)
    (hr : s.env.choice.reset = false) :
    State.transact x f { s with wdata := d } = { s.transact x f with wdata := d } := by
  cases hres : s.env.result x with
  | done b =>
    have hres' : ({ s with wdata := d } : State).env.result x = .done b := hres
    rw [State.transact_done f hres, State.transact_done f hres']
    exact hf b d ((s.afterTx x).emit (x.event b))
  | failed => simp only [State.transact, hres]; rfl
  | reset => simp [(s.env.result_reset_iff x).mp hres] at hr

/-- Row by row through the phases of a read: no row looks at WDATA. -/
theorem StepCase.wdata (c : StepCase s t) (d : Byte) (hdir : s.phase.direction = some false)
    (hr : s.env.choice.reset = false) : StepCase { s with wdata := d } { t with wdata := d } := by
  cases c with
  | accept w hp => simp [hp, Phase.direction] at hdir
  | host hp => simp [hp, Phase.direction] at hdir
  | delay hp => exact .delay hp
  | firstLook hp => rw [← State.transact_wdata ignoresWdata_afterFirstLook _ d hr]; exact .firstLook hp
  | flush hp => rw [← State.transact_wdata ignoresWdata_afterFlush _ d hr]; exact .flush hp
  | poll pass exit wait hp =>
    rw [← State.transact_wdata (ignoresWdata_afterPoll pass exit wait) _ d hr]
    exact .poll pass exit wait hp
  | data hp => rw [← State.transact_wdata ignoresWdata_afterData _ d hr]; exact .data hp
  | readSelect hp => rw [← State.transact_wdata (ignoresWdata_enterLoop .r4Poll) _ d hr]; exact .readSelect hp
  | writeSelect hp => simp [hp, Phase.direction] at hdir
  | writeData hp => simp [hp, Phase.direction] at hdir

/-- Settles O14: the row of the step is the row for any WDATA, by `StepCase.wdata`. -/
theorem readIgnoresDataField : Obligations.ReadIgnoresDataField := by
  intro s t d hdir hdue hr h
  obtain ⟨ho, ⟨hdue', _⟩ | ⟨_, row⟩⟩ := step_cases h
  · rw [hdue] at hdue'
    cases hdue'
  · have ho' : ({ s with wdata := d } : State).env.overrun = false := ho
    rw [step_act ho' hdue]
    exact (row.wdata d hdir hr).act_eq

end Sys2Proof.Machine
end

section
/-! PROOFS. The transport commands row by row (40_transport_commands.md R120, R121, R124 to R126, R131): acceptance, the
sampling, writing and waiting rows, that every state has a step, and the write and read disciplines (R133, R134). -/

namespace Sys2Proof.Machine

variable {s t : State}

/-! ## Acceptance -/

theorem State.offer_idle (write : Bool) (a : VAddr) (d : Byte) (hp : s.phase = .idle) :
    s.offer write a d = s.accept write a d := by
  simp only [State.offer, hp]

theorem State.offer_busy (write : Bool) (a : VAddr) (d : Byte) (hp : s.phase ≠ .idle) : s.offer write a d = s := by
  unfold State.offer
  split
  · next hi => exact absurd hi hp
  · rfl

/-- A continuation that neither looks at the command port nor changes it. -/
def IgnoresPort (f : Byte → State → State) : Prop :=
  ∀ (b : Byte) (p : Option CmdWord) (u : State), f b { u with port := p } = { f b u with port := p }

theorem ignoresPort_afterFirstLook : IgnoresPort State.afterFirstLook := by
  intro b p u
  unfold State.afterFirstLook
  dsimp only
  split <;> rfl

theorem ignoresPort_afterPoll (pass : Byte → Bool) (exit wait : Phase) :
    IgnoresPort (State.afterPoll pass exit wait) := by
  intro b p u
  unfold State.afterPoll
  dsimp only
  split
  · rfl
  · split <;> rfl

/-- While a command is in progress the reset input abandons it whatever stands at the port (log 12). -/
theorem State.applyReset_port_busy (p : Option CmdWord) (hp : s.phase ≠ .idle) :
    State.applyReset { s with port := p } = { s.applyReset with port := p } := by
  have hosts : State.abandonedHost { s with port := p } = s.abandonedHost := by
    simp only [State.abandonedHost, ne_eq, hp, not_false_eq_true, true_or, if_true]
  simp only [State.applyReset, hosts]

theorem State.transact_port {f : Byte → State → State} (hf : IgnoresPort f) (x : Tx) (p : Option CmdWord)
    (hp : s.phase ≠ .idle) : State.transact x f { s with port := p } = { s.transact x f with port := p } := by
  cases hres : s.env.result x with
  | done b =>
    have hres' : ({ s with port := p } : State).env.result x = .done b := hres
    rw [State.transact_done f hres, State.transact_done f hres']
    exact hf b p ((s.afterTx x).emit (x.event b))
  | failed => simp only [State.transact, hres]; rfl
  | reset =>
    simp only [State.transact, hres]
    exact State.applyReset_port_busy (s := s.afterTx x) p hp

/-- Row by row through a command in progress: no row looks at the command port. -/
theorem StepCase.port (c : StepCase s t) (p : Option CmdWord) (hbusy : s.phase ≠ .idle) :
    StepCase { s with port := p } { t with port := p } := by
  cases c with
  | accept w hp => exact absurd hp hbusy
  | host hp => exact absurd hp hbusy
  | delay hp => exact .delay hp
  | firstLook hp => rw [← State.transact_port ignoresPort_afterFirstLook _ p hbusy]; exact .firstLook hp
  | flush hp => rw [← State.transact_port (fun _ _ _ => rfl) _ p hbusy]; exact .flush hp
  | poll pass exit wait hp =>
    rw [← State.transact_port (ignoresPort_afterPoll pass exit wait) _ p hbusy]
    exact .poll pass exit wait hp
  | data hp => rw [← State.transact_port (fun _ _ _ => rfl) _ p hbusy]; exact .data hp
  | readSelect hp => rw [← State.transact_port (fun _ _ _ => rfl) _ p hbusy]; exact .readSelect hp
  | writeSelect hp => rw [← State.transact_port (fun _ _ _ => rfl) _ p hbusy]; exact .writeSelect hp
  | writeData hp => rw [← State.transact_port (fun _ _ _ => rfl) _ p hbusy]; exact .writeData hp

/-- Settles O13: a command in IDLE means its acceptance, and by `StepCase.port` no later row depends on the port. -/
theorem acceptLatchesCommand : Obligations.AcceptLatchesCommand := by
  constructor
  · intro s a d hp
    simp only [exec, execRdv, execWrv, State.offer_idle _ _ _ hp]
    exact ⟨rfl, rfl⟩
  · intro s t p hp h
    obtain ⟨ho, ⟨hr, rfl⟩ | ⟨hr, row⟩⟩ := step_cases h
    · have ho' : ({ s with port := p } : State).env.overrun = false := ho
      rw [step_reset ho' hr, ← State.applyReset_port_busy (s := s.tick) p hp]
      rfl
    · have ho' : ({ s with port := p } : State).env.overrun = false := ho
      rw [step_act ho' hr]
      exact (row.port p hp).act_eq

/-- The offered word of `s` still stands in `t`, and no word has been accepted from the one to the other. -/
def HoldsOffered (s t : State) : Prop :=
  t.port = s.port ∧ t.trace.countP Event.isAcc = s.trace.countP Event.isAcc

/-- No row of a command in progress accepts a word or takes one away, nor does the reset input. -/
theorem step_busy_holdsOffered (hp : s.phase ≠ .idle) (h : step s = .next t) : HoldsOffered s t := by
  refine step_keeps (HoldsOffered s) ⟨rfl, rfl⟩
    (act_keeps (HoldsOffered s) (haccept := fun _ hi => absurd hi hp) (hhost := fun hi => absurd hi hp)
      (hdelay := fun _ => ⟨rfl, rfl⟩) (hbad := fun _ _ => ⟨⟨rfl, rfl⟩, rfl, rfl⟩)
      (hfirst := fun b _ _ => ?firstLook) (hflush := fun _ _ => ⟨rfl, rfl⟩)
      (hpoll := fun pass exit wait b _ _ => ?poll) (hdata := fun _ _ => ⟨rfl, rfl⟩) (hrsel := fun _ => ⟨rfl, rfl⟩)
      (hwsel := fun _ => ⟨rfl, rfl⟩) (hwdata := fun _ => ⟨rfl, rfl⟩)) h
  case firstLook =>
    rcases State.afterFirstLook_cases b ((s.tick.afterTx .status).emit (.rs b)) with ⟨_, hf⟩ | ⟨_, hf⟩ <;> rw [hf] <;>
      exact ⟨rfl, rfl⟩
  case poll =>
    rcases State.afterPoll_cases pass exit wait b ((s.tick.afterTx .status).emit (.rs b)) with
      ⟨_, hf⟩ | ⟨_, _, hf⟩ | ⟨_, _, hf⟩ <;> rw [hf] <;> exact ⟨rfl, rfl⟩

/-- The step that accepts an offered word. -/
theorem step_accept {w : CmdWord} (hp : s.phase = .idle) (hw : s.port = some w) (ho : s.env.overrun = false)
    (hr : s.resetDue = false) : step s = .next (s.tick.accept (cmdDir w) (cmdVaddr w) (cmdWdata w)) := by
  rw [step_act ho hr]
  exact (StepCase.accept (s := s.tick) w hp hw).act_eq

theorem firstPhase_ne_idle (write : Bool) : firstPhase write ≠ .idle := by cases write <;> decide

theorem State.accept_word_trace (w : CmdWord) :
    (s.accept (cmdDir w) (cmdVaddr w) (cmdWdata w)).trace = .acc w :: s.trace := by
  rw [State.accept_trace, encodeCmd_fields]

/-- Settles O15: outside IDLE by `State.offer_busy` and `step_busy_holdsOffered`, in IDLE by `step_accept`. -/
theorem busyHoldsOfferedCommand : Obligations.BusyHoldsOfferedCommand := by
  refine ⟨fun s a d hp => ?_, fun s t => step_busy_holdsOffered, fun s w hp hw ho hr =>
    ⟨_, step_accept hp hw ho hr, rfl, firstPhase_ne_idle _, State.accept_word_trace w⟩⟩
  simp only [exec, execRdv, execWrv, State.offer_busy _ _ _ hp, and_self]

/-! ## The rows that sample STATUS -/

theorem Tx.event_status (b : Byte) : Tx.status.event b = .rs b := rfl

theorem limitReached_eq_false {limit : Option Nat} {k : Nat} (h : ∀ n, limit = some n → k < n) :
    limitReached limit k = false := by
  cases limit with
  | none => rfl
  | some n => simpa only [limitReached, decide_eq_false_iff_not, Nat.not_le] using h n rfl

/-- Settles O16: the two cases of `State.afterFirstLook_cases`. -/
theorem firstLookDecidesFlush : Obligations.FirstLookDecidesFlush := by
  intro s b hp hb
  have row : exec .prdStatus s = .next (s.transact .status State.afterFirstLook) := by
    simp only [exec, execPrdStatus, hp]
  rw [row, State.transact_done _ hb, Tx.event_status]
  rcases State.afterFirstLook_cases b ((s.afterTx .status).emit (.rs b)) with ⟨hrx, hf⟩ | ⟨hrx, hf⟩
  · exact ⟨fun _ => congrArg _ hf, fun h => absurd (hrx.symm.trans h) nofun⟩
  · exact ⟨fun h => absurd (hrx.symm.trans h) nofun, fun _ => congrArg _ hf⟩

/-- Settles O17: each row is its row of `Phase.pollRow`, and where the test fails the limit is not reached. -/
theorem pollRows : Obligations.PollRows := by
  intro s b pass exit wait hrow hb hlimit
  have hp : s.phase.pollRow = some (pass, exit, wait) := by
    rcases hrow with ⟨hp, hpass, rfl, rfl⟩ | ⟨hp, hpass, rfl, rfl⟩ | ⟨hp, hpass, rfl, rfl⟩ | ⟨hp, hpass, rfl, rfl⟩ <;>
      rw [hp, funext hpass] <;> rfl
  rw [exec_prdStatus_poll hp, State.transact_done _ hb, Tx.event_status]
  rcases State.afterPoll_cases pass exit wait b ((s.afterTx .status).emit (.rs b)) with
    ⟨hpass, hf⟩ | ⟨hpass, hl, _⟩ | ⟨hpass, _, hf⟩
  · rw [hf, hpass]
    rfl
  · have below := hlimit.resolve_left (by simp [hpass])
    exact absurd (hl.symm.trans (limitReached_eq_false below)) nofun
  · rw [hf, hpass]
    rfl

/-! ## The rows that write, and the waits -/

/-- Settles O19: each row's continuation after the completed write is the state the obligation writes out. -/
theorem writeRows : Obligations.WriteRows := by
  intro s v b hb
  refine ⟨fun hp => ?_, fun hp => ?_, fun hp => ?_⟩ <;>
  · simp only [exec, execPwrWrite, hp, State.transact_done _ hb]
    rfl

theorem step_delay (ho : s.env.overrun = false) (hr : s.resetDue = false) (hp : s.phase.waits = true) :
    step s = .next s.tick.delay := by
  rw [step_act ho hr]
  exact (StepCase.delay (s := s.tick) hp).act_eq

/-- Settles O23: `step_delay` with the poll that follows each wait. -/
theorem delayRows : Obligations.DelayRows := by
  intro s ho hr
  have row {p : Phase} (hp : s.phase = p) (hw : p.waits = true) :
      step s = .next { s.tick with phase := afterWait p, trace := .dly :: s.trace } := by
    subst hp
    exact step_delay ho hr hw
  exact ⟨fun hp => row hp rfl, fun hp => row hp rfl, fun hp => row hp rfl, fun hp => row hp rfl⟩

/-! ## Every state has a step -/

/-- Settles O40: the reset input's step, or what `step_live` finds. -/
theorem stepAlwaysGoesOn : Obligations.StepAlwaysGoesOn := by
  refine fun s => ⟨fun ho => ?_, step_overrun⟩
  cases hr : s.resetDue
  · exact (step_live ho hr).imp fun _ h => h.1
  · exact ⟨_, step_reset ho hr⟩

/-! ## The write and the read discipline -/

theorem busDiscipline_iff (s : State) :
    busDiscipline s = true ↔ disciplined s.trace = true ∧ (s.phase.writes = true → headSample txClear s.trace = true) ∧
      (s.phase.reads = true → headSample rxValid s.trace = true) := by
  unfold busDiscipline armed
  cases s.phase.writes <;> cases s.phase.reads <;> simp

/-- In a phase that neither writes nor reads the trace alone counts. -/
theorem busDiscipline_of_trace (ht : disciplined t.trace = true) (hp : t.phase.writes = false ∧ t.phase.reads = false) :
    busDiscipline t = true :=
  (busDiscipline_iff t).mpr ⟨ht, fun h => by simp [hp.1] at h, fun h => by simp [hp.2] at h⟩

/-- The exit of a poll writes, and then its test is TX_VALID clear, or reads, and then it is RX_VALID set. -/
theorem Phase.pollRow_exit {p exit wait : Phase} {pass : Byte → Bool} (h : p.pollRow = some (pass, exit, wait)) :
    (exit.writes = true → pass = txClear) ∧ (exit.reads = true → pass = rxValid) ∧
      wait.writes = false ∧ wait.reads = false := by
  rcases Phase.pollRow_cases h with ⟨_, hr⟩ | ⟨_, hr⟩ | ⟨_, hr⟩ | ⟨_, hr⟩ <;> cases hr <;>
    simp [Phase.writes, Phase.reads]

theorem firstPhase_unarmed (write : Bool) : (firstPhase write).writes = false ∧ (firstPhase write).reads = false := by
  cases write <;> exact ⟨rfl, rfl⟩

theorem Phase.afterWait_unarmed {p : Phase} (h : p.waits = true) :
    (afterWait p).writes = false ∧ (afterWait p).reads = false := by
  cases p <;> simp [Phase.waits] at h <;> exact ⟨rfl, rfl⟩

/-- A write or a read stands on the sample that its phase carries; a sample that arms a phase passed its test. -/
theorem act_busDiscipline (hs : busDiscipline s = true) (h : act s = .next t) : busDiscipline t = true := by
  obtain ⟨htrace, hwrite, hread⟩ := (busDiscipline_iff s).mp hs
  have written (v : Byte) (hp : s.phase.writes = true) : disciplined (.ww v :: s.trace) = true := by
    simp [disciplined, hwrite hp, htrace]
  have taken (b : Byte) (hp : s.phase.reads = true) : disciplined (.rr b :: s.trace) = true := by
    simp [disciplined, hread hp, htrace]
  refine act_keeps (fun t => busDiscipline t = true)
    (haccept := fun w _ => busDiscipline_of_trace htrace (firstPhase_unarmed _))
    (hhost := fun hp => busDiscipline_of_trace (by rw [s.hostTurn_frame.trace, htrace])
      (by rw [s.hostTurn_frame.phase, hp]; exact ⟨rfl, rfl⟩))
    (hdelay := fun hp => busDiscipline_of_trace htrace (Phase.afterWait_unarmed hp))
    (hbad := fun _ _ => ⟨busDiscipline_of_trace htrace ⟨rfl, rfl⟩, busDiscipline_of_trace htrace ⟨rfl, rfl⟩⟩)
    (hfirst := fun b _ _ => ?firstLook)
    (hflush := fun _ hp => busDiscipline_of_trace (taken _ (by rw [hp]; rfl)) ⟨rfl, rfl⟩)
    (hpoll := fun pass exit wait b hp _ => ?poll)
    (hdata := fun b hp => busDiscipline_of_trace (taken b (by rw [hp]; rfl)) ⟨rfl, rfl⟩)
    (hrsel := fun hp => busDiscipline_of_trace (written _ (by rw [hp]; rfl)) ⟨rfl, rfl⟩)
    (hwsel := fun hp => busDiscipline_of_trace (written _ (by rw [hp]; rfl)) ⟨rfl, rfl⟩)
    (hwdata := fun hp => busDiscipline_of_trace (written s.wdata (by rw [hp]; rfl)) ⟨rfl, rfl⟩) h
  case firstLook =>
    rcases State.afterFirstLook_cases b ((s.afterTx .status).emit (.rs b)) with ⟨hb, hf⟩ | ⟨_, hf⟩ <;> rw [hf]
    · exact (busDiscipline_iff _).mpr ⟨htrace, nofun, fun _ => hb⟩
    · exact busDiscipline_of_trace htrace ⟨rfl, rfl⟩
  case poll =>
    obtain ⟨hexitW, hexitR, hwait⟩ := Phase.pollRow_exit hp
    rcases State.afterPoll_cases pass exit wait b ((s.afterTx .status).emit (.rs b)) with
      ⟨hb, hf⟩ | ⟨_, _, hf⟩ | ⟨_, _, hf⟩ <;> rw [hf]
    · exact (busDiscipline_iff _).mpr ⟨htrace, fun h => hexitW h ▸ hb, fun h => hexitR h ▸ hb⟩
    · exact busDiscipline_of_trace htrace ⟨rfl, rfl⟩
    · exact busDiscipline_of_trace htrace hwait

/-- Settles O41: `act_busDiscipline` for the step; the reset input records no event and arms nothing. -/
theorem writeAndReadDisciplineKept : Obligations.WriteAndReadDisciplineKept := by
  intro s t hs
  exact step_keeps (fun t => busDiscipline t = true)
    (busDiscipline_of_trace ((busDiscipline_iff s).mp hs).1 ⟨rfl, rfl⟩) (act_busDiscipline (s := s.tick) hs)

end Sys2Proof.Machine
end

section
/-! PROOFS. The table of the sequencer and the numbered pseudocode (40_transport_commands.md R122, R124 to R127, R131,
R132): what is left of the pseudocode in each phase, and that a step of a command in progress plays its next piece. -/

namespace Sys2Proof.Machine

variable {s t : State}

/-! ## One thing after another -/

section
variable {α β : Type}

theorem Big.after_nil (x : Big α) : x.after [] = x := by cases x <;> rfl

theorem Big.after_after (before before' : List Event) (x : Big α) :
    (x.after before').after before = x.after (before ++ before') := by
  cases x <;> simp only [Big.after, List.append_assoc]

theorem Big.andThen_after (before : List Event) (x : Big α) (f : α → List BusReply → Big β) :
    (x.after before).andThen f = (x.andThen f).after before := by
  cases x with
  | ok evs a rest => exact (Big.after_after before evs (f a rest)).symm
  | raised evs e rest => rfl
  | running evs => rfl

theorem Big.events_after (before : List Event) (x : Big α) : (x.after before).events = before ++ x.events := by
  cases x <;> rfl

theorem Big.unused_after (before : List Event) (x : Big α) : (x.after before).unused = x.unused := by
  cases x <;> rfl

theorem Big.response_after (before : List Event) (x : Big Rsp) : (x.after before).response = x.response := by
  cases x <;> rfl

end

section
variable {limit : Option Nat} {pass : Byte → Bool} {k : Nat} {b : Byte}

theorem bigPoll_pass (hpass : pass b = true) (rest : List BusReply) :
    bigPoll limit pass k (.ok b :: rest) = .ok [.rs b] () rest := if_pos hpass

theorem bigPoll_timeout (hpass : pass b = false) (hlimit : limitReached limit (k + 1) = true) (rest : List BusReply) :
    bigPoll limit pass k (.ok b :: rest) = .raised [.rs b] .timeout rest := by
  simp only [bigPoll, hpass, hlimit, if_true, Bool.false_eq_true, if_false]

theorem bigPoll_again (hpass : pass b = false) (hlimit : limitReached limit (k + 1) = false) (rest : List BusReply) :
    bigPoll limit pass k (.ok b :: rest) = (bigPoll limit pass (k + 1) rest).after [.rs b, .dly] := by
  simp only [bigPoll, hpass, hlimit, Bool.false_eq_true, if_false]

end

/-! ## What is left of the pseudocode -/

/-- `RDV`, step 5 (R125). -/
def rdvFrom5 (replies : List BusReply) : Big Rsp :=
  (bigTx .read replies).andThen fun b r => .ok [] (.okRd b) r

/-- `RDV` from step 4 on, with `polls` polls of it taken. -/
def rdvFrom4 (limit : Option Nat) (polls : Nat) (replies : List BusReply) : Big Rsp :=
  (bigPoll limit rxValid polls replies).andThen fun _ r => rdvFrom5 r

/-- `RDV` from step 3 on. -/
def rdvFrom3 (limit : Option Nat) (a : VAddr) (replies : List BusReply) : Big Rsp :=
  (bigTx (.write (selectByte false a)) replies).andThen fun _ r => rdvFrom4 limit 0 r

/-- `RDV` from step 2 on, with `polls` polls of it taken. -/
def rdvFrom2 (limit : Option Nat) (a : VAddr) (polls : Nat) (replies : List BusReply) : Big Rsp :=
  (bigPoll limit txClear polls replies).andThen fun _ r => rdvFrom3 limit a r

/-- `RDV` from the flush of step 1 on. -/
def rdvFromFlush (limit : Option Nat) (a : VAddr) (replies : List BusReply) : Big Rsp :=
  (bigTx .read replies).andThen fun _ r => rdvFrom2 limit a 0 r

/-- `WRV`, step 4 (R126). -/
def wrvFrom4 (d : Byte) (replies : List BusReply) : Big Rsp :=
  (bigTx (.write d) replies).andThen fun _ r => .ok [] .okWr r

/-- `WRV` from step 3 on, with `polls` polls of it taken. -/
def wrvFrom3 (limit : Option Nat) (d : Byte) (polls : Nat) (replies : List BusReply) : Big Rsp :=
  (bigPoll limit txClear polls replies).andThen fun _ r => wrvFrom4 d r

/-- `WRV` from step 2 on. -/
def wrvFrom2 (limit : Option Nat) (a : VAddr) (d : Byte) (replies : List BusReply) : Big Rsp :=
  (bigTx (.write (selectByte true a)) replies).andThen fun _ r => wrvFrom3 limit d 0 r

/-- `WRV` from step 1 on, with `polls` polls of it taken. -/
def wrvFrom1 (limit : Option Nat) (a : VAddr) (d : Byte) (polls : Nat) (replies : List BusReply) : Big Rsp :=
  (bigPoll limit txClear polls replies).andThen fun _ r => wrvFrom2 limit a d r

theorem bigRdv_eq (limit : Option Nat) (a : VAddr) (replies : List BusReply) :
    bigRdv limit a replies = (bigTx .status replies).andThen fun s0 r =>
      if rxValid s0 then rdvFromFlush limit a r else rdvFrom2 limit a 0 r := by
  have look (s0 : Byte) (r : List BusReply) :
      ((if rxValid s0 then bigTx .read r else .ok [] 0#8 r).andThen fun _ r2 => rdvFrom2 limit a 0 r2) =
        if rxValid s0 then rdvFromFlush limit a r else rdvFrom2 limit a 0 r := by
    split
    · rfl
    · exact Big.after_nil _
  simp only [← look]
  rfl

/-- What is left of the pseudocode of the command in progress, by the phase; a wait is the delay of a loop (R124). IDLE
has no command. -/
def Phase.pseudo (limit : Option Nat) (a : VAddr) (d : Byte) (polls : Nat) (p : Phase) (replies : List BusReply) :
    Big Rsp :=
  match p with
  | .idle => .running []
  | .r1Stat => bigRdv limit a replies
  | .r1Flush => rdvFromFlush limit a replies
  | .r2Poll => rdvFrom2 limit a polls replies
  | .r2Wait => (rdvFrom2 limit a polls replies).after [.dly]
  | .r3Sel => rdvFrom3 limit a replies
  | .r4Poll => rdvFrom4 limit polls replies
  | .r4Wait => (rdvFrom4 limit polls replies).after [.dly]
  | .r5Data => rdvFrom5 replies
  | .w1Poll => wrvFrom1 limit a d polls replies
  | .w1Wait => (wrvFrom1 limit a d polls replies).after [.dly]
  | .w2Sel => wrvFrom2 limit a d replies
  | .w3Poll => wrvFrom3 limit d polls replies
  | .w3Wait => (wrvFrom3 limit d polls replies).after [.dly]
  | .w4Data => wrvFrom4 d replies

/-- The same of a state: the latches and POLLS are its operands. -/
def State.pseudo (s : State) (replies : List BusReply) : Big Rsp :=
  s.phase.pseudo s.params.pollLimit s.vaddr s.wdata s.polls replies

section
variable {limit : Option Nat} {a : VAddr} {d : Byte} {k : Nat}

theorem Phase.pseudo_pollRow {p exit wait : Phase} {pass : Byte → Bool} (hp : p.pollRow = some (pass, exit, wait))
    (k' : Nat) (replies : List BusReply) :
    p.pseudo limit a d k replies =
      (bigPoll limit pass k replies).andThen fun _ r => exit.pseudo limit a d k' r := by
  rcases Phase.pollRow_cases hp with ⟨rfl, hr⟩ | ⟨rfl, hr⟩ | ⟨rfl, hr⟩ | ⟨rfl, hr⟩ <;> cases hr <;> rfl

theorem Phase.pseudo_wait {p : Phase} (hp : p.waits = true) (replies : List BusReply) :
    p.pseudo limit a d k replies = ((afterWait p).pseudo limit a d k replies).after [.dly] := by
  cases p <;> simp [Phase.waits] at hp <;> rfl

theorem Phase.afterWait_of_pollRow {p exit wait : Phase} {pass : Byte → Bool}
    (hp : p.pollRow = some (pass, exit, wait)) : wait.waits = true ∧ afterWait wait = p := by
  rcases Phase.pollRow_cases hp with ⟨rfl, hr⟩ | ⟨rfl, hr⟩ | ⟨rfl, hr⟩ | ⟨rfl, hr⟩ <;> cases hr <;> exact ⟨rfl, rfl⟩

theorem Phase.busy_of_pollRow {p exit wait : Phase} {pass : Byte → Bool} (hp : p.pollRow = some (pass, exit, wait)) :
    p.waits = false ∧ exit ≠ .idle ∧ wait ≠ .idle := by
  rcases Phase.pollRow_cases hp with ⟨rfl, hr⟩ | ⟨rfl, hr⟩ | ⟨rfl, hr⟩ | ⟨rfl, hr⟩ <;> cases hr <;>
    exact ⟨rfl, nofun, nofun⟩

/-- A phase that begins with a transaction waits for its answer. -/
theorem Phase.pseudo_nil {p : Phase} (hwaits : p.waits = false) : p.pseudo limit a d k [] = .running [] := by
  cases p <;> simp [Phase.waits] at hwaits <;> rfl

end

theorem bigCommand_of_clear {w : CmdWord} (h : cmdDir w = false) (limit : Option Nat) (replies : List BusReply) :
    bigCommand limit w replies = bigRdv limit (cmdVaddr w) replies := by
  simp only [bigCommand, h, Bool.false_eq_true, if_false]

theorem bigCommand_of_set {w : CmdWord} (h : cmdDir w = true) (limit : Option Nat) (replies : List BusReply) :
    bigCommand limit w replies = bigWrv limit (cmdVaddr w) (cmdWdata w) replies := by
  simp only [bigCommand, h, if_true]

theorem State.pseudo_accept (w : CmdWord) (replies : List BusReply) :
    (s.accept (cmdDir w) (cmdVaddr w) (cmdWdata w)).pseudo replies = bigCommand s.params.pollLimit w replies := by
  cases hw : cmdDir w
  · rw [bigCommand_of_clear hw]
    rfl
  · rw [bigCommand_of_set hw]
    rfl

/-! ## One step of a command in progress -/

/-- The events that the rows of a command in progress record, but for its response: a transaction or a delay. -/
def Event.ofRow (e : Event) : Prop := e.isTx = true ∨ e = .dly

theorem Event.ofRow_event (x : Tx) (b : Byte) : (x.event b).ofRow := by cases x <;> exact .inl rfl

theorem Event.not_rsp_of_ofRow {e : Event} (h : e.ofRow) : e.isRsp = false := by
  rcases h with h | rfl
  · cases e <;> simp [Event.isTx] at h <;> rfl
  · rfl

/-- From `s` to `t` the command goes on: `evs` are the events, oldest first, `used` the answers they took, and what was
left of the pseudocode is `evs` and then what is left now. -/
structure Advances (s t : State) (evs : List Event) (used : List BusReply) : Prop where
  busy : t.phase ≠ .idle
  rsp : t.rsp = s.rsp
  trace : t.trace = evs.reverse ++ s.trace
  pseudo : ∀ rest, s.pseudo (used ++ rest) = (t.pseudo rest).after evs

/-- From `s` to `t` the command ends with `x`, as what was left of the pseudocode does. -/
structure Ends (s t : State) (evs : List Event) (x : Rsp) (used : List BusReply) : Prop where
  idle : t.phase = .idle
  rsp : t.rsp = some x
  trace : t.trace = .rsp x :: (evs.reverse ++ s.trace)
  response : ∀ rest, (s.pseudo (used ++ rest)).response = some x
  events : ∀ rest, (s.pseudo (used ++ rest)).events = evs
  unused : ∀ rest, (s.pseudo (used ++ rest)).unused = rest

/-- The one or the other. -/
def Goes (s t : State) (e : Event) (used : List BusReply) : Prop :=
  Advances s t [e] used ∨ ∃ x, Ends s t [e] x used

/-- The host's entry for the reset input is no part of this. -/
theorem Advances.of_tick {evs : List Event} {used : List BusReply} (h : Advances s.tick t evs used) :
    Advances s t evs used :=
  ⟨h.busy, h.rsp, h.trace, h.pseudo⟩

theorem Ends.of_tick {evs : List Event} {x : Rsp} {used : List BusReply} (h : Ends s.tick t evs x used) :
    Ends s t evs x used :=
  ⟨h.idle, h.rsp, h.trace, h.response, h.events, h.unused⟩

theorem Goes.of_tick {e : Event} {used : List BusReply} (h : Goes s.tick t e used) : Goes s t e used :=
  h.imp Advances.of_tick fun h => h.imp fun _ => Ends.of_tick

theorem Ends.of_ok {e : Event} {x : Rsp} {used : List BusReply} (hp : t.phase = .idle) (hr : t.rsp = some x)
    (ht : t.trace = .rsp x :: e :: s.trace) (hb : ∀ rest, s.pseudo (used ++ rest) = .ok [e] x rest) :
    Ends s t [e] x used :=
  ⟨hp, hr, ht, fun rest => by rw [hb]; rfl, fun rest => by rw [hb]; rfl, fun rest => by rw [hb]; rfl⟩

theorem Ends.of_raised {e : Event} {err : Err} {used : List BusReply} (hp : t.phase = .idle)
    (hr : t.rsp = some (.err err)) (ht : t.trace = .rsp (.err err) :: e :: s.trace)
    (hb : ∀ rest, s.pseudo (used ++ rest) = .raised [e] err rest) : Ends s t [e] (.err err) used :=
  ⟨hp, hr, ht, fun rest => by rw [hb]; rfl, fun rest => by rw [hb]; rfl, fun rest => by rw [hb]; rfl⟩

/-- The answers that a transaction's result can stand for; none where the reset input cut it off. -/
def TxResult.AnsweredBy (result : TxResult) (r : BusReply) : Prop :=
  match result with
  | .done b => r = .ok b
  | .failed => ∃ took, r = .fail took
  | .reset => False

/-- What the step that issued the transaction `x` has come to: the reset input cut it off, or the command goes on or
ends as the pseudocode does with any answer that the result stands for. -/
structure Answered (s t : State) (x : Tx) : Prop where
  env : t.env = s.env.after x
  goes : s.env.result x = .reset ∧ t = (s.afterTx x).applyReset ∨
    s.env.result x ≠ .reset ∧ ∃ e, e.isTx = true ∧ ∀ r, (s.env.result x).AnsweredBy r → Goes s t e [r]

/-- A transaction plays its piece of the pseudocode if its continuation does where it completes. -/
theorem State.transact_answered {x : Tx} {f : Byte → State → State} (henv : ∀ b u, (f b u).env = u.env)
    (hfail : ∀ took rest, s.pseudo (.fail took :: rest) = .raised [.fail x.kind] .busError rest)
    (hdone : ∀ b, Goes s (f b ((s.afterTx x).emit (x.event b))) (x.event b) [.ok b]) :
    Answered s (s.transact x f) x := by
  rcases s.transact_cases x f with ⟨b, hres, ht⟩ | ⟨hres, ht⟩ | ⟨hres, ht⟩ <;> rw [ht]
  · refine ⟨henv b _, .inr ⟨by rw [hres]; nofun, x.event b, by cases x <;> rfl, fun r hr => ?_⟩⟩
    rw [hres] at hr
    cases hr
    exact hdone b
  · refine ⟨rfl, .inr ⟨by rw [hres]; nofun, .fail x.kind, rfl, fun r hr => ?_⟩⟩
    rw [hres] at hr
    obtain ⟨took, rfl⟩ := hr
    exact .inr ⟨_, .of_raised rfl rfl rfl (hfail took)⟩
  · exact ⟨rfl, .inl ⟨hres, rfl⟩⟩

theorem State.afterFirstLook_env (b : Byte) (u : State) : (u.afterFirstLook b).env = u.env := by
  obtain ⟨_, henv, _⟩ := u.afterFirstLook_fields b
  exact henv

theorem State.afterPoll_env (pass : Byte → Bool) (exit wait : Phase) (b : Byte) (u : State) :
    (u.afterPoll pass exit wait b).env = u.env := by
  obtain ⟨_, henv, _⟩ := u.afterPoll_fields pass exit wait b
  exact henv

/-- A wait plays the delay of its loop. -/
theorem delay_advances (hp : s.phase.waits = true) : Advances s s.delay [.dly] [] where
  busy := by cases h : s.phase <;> simp [h, Phase.waits] at hp <;> simp [h, afterWait]
  rsp := rfl
  trace := rfl
  pseudo := Phase.pseudo_wait hp

/-- A poll plays one round of `bigPoll`: the exit test, the limit, the delay (R124, R227). -/
theorem afterPoll_goes {pass : Byte → Bool} {exit wait : Phase} (b : Byte)
    (hp : s.phase.pollRow = some (pass, exit, wait)) :
    Goes s (((s.afterTx .status).emit (.rs b)).afterPoll pass exit wait b) (.rs b) [.ok b] := by
  have piece (rest : List BusReply) := Phase.pseudo_pollRow (limit := s.params.pollLimit) (a := s.vaddr) (d := s.wdata)
    (k := s.polls) hp (s.polls + 1) (.ok b :: rest)
  obtain ⟨hwaits, hback⟩ := Phase.afterWait_of_pollRow hp
  obtain ⟨_, hexit, hwait⟩ := Phase.busy_of_pollRow hp
  rcases State.afterPoll_cases pass exit wait b ((s.afterTx .status).emit (.rs b)) with
    ⟨hpass, hf⟩ | ⟨hpass, hlimit, hf⟩ | ⟨hpass, hlimit, hf⟩ <;> rw [hf]
  · refine .inl ⟨hexit, rfl, rfl, fun rest => (piece rest).trans ?_⟩
    rw [bigPoll_pass hpass]
    rfl
  · refine .inr ⟨_, .of_raised rfl rfl rfl fun rest => (piece rest).trans ?_⟩
    rw [bigPoll_timeout (limit := s.params.pollLimit) (k := s.polls) hpass hlimit]
    rfl
  · refine .inl ⟨hwait, rfl, rfl, fun rest => (piece rest).trans ?_⟩
    have back := Phase.pseudo_wait (limit := s.params.pollLimit) (a := s.vaddr) (d := s.wdata) (k := s.polls + 1)
      hwaits rest
    rw [hback] at back
    rw [bigPoll_again (limit := s.params.pollLimit) (k := s.polls) hpass hlimit, Big.andThen_after,
      ← Phase.pseudo_pollRow hp]
    exact (Big.after_after [.rs b] [.dly] _).symm.trans (congrArg (Big.after [.rs b]) back.symm)

/-- The first look plays step 1 of `RDV`: the flush where RX_VALID is set, else step 2 (R125). -/
theorem afterFirstLook_goes (b : Byte) (hp : s.phase = .r1Stat) :
    Goes s (((s.afterTx .status).emit (.rs b)).afterFirstLook b) (.rs b) [.ok b] := by
  have piece (rest : List BusReply) : s.pseudo (.ok b :: rest) =
      (if rxValid b then rdvFromFlush s.params.pollLimit s.vaddr rest
        else rdvFrom2 s.params.pollLimit s.vaddr 0 rest).after [.rs b] := by
    rw [State.pseudo, hp]
    exact bigRdv_eq _ _ _
  rcases State.afterFirstLook_cases b ((s.afterTx .status).emit (.rs b)) with ⟨hb, hf⟩ | ⟨hb, hf⟩ <;> rw [hf]
  · exact .inl ⟨nofun, rfl, rfl, fun rest => (piece rest).trans (by rw [if_pos hb]; rfl)⟩
  · exact .inl ⟨nofun, rfl, rfl, fun rest => (piece rest).trans (by rw [if_neg (by simp [hb])]; rfl)⟩

/-- A step of a command in progress is the delay of a wait, or plays the transaction of its phase. -/
theorem StepCase.busy (c : StepCase s t) (hbusy : s.phase ≠ .idle) :
    s.phase.waits = true ∧ t = s.delay ∨ s.phase.waits = false ∧ ∃ x, Answered s t x := by
  cases c with
  | accept w hp => exact absurd hp hbusy
  | host hp => exact absurd hp hbusy
  | delay hp => exact .inl ⟨hp, rfl⟩
  | firstLook hp =>
    exact .inr ⟨by rw [hp]; rfl, _, State.transact_answered State.afterFirstLook_env
      (fun _ _ => by rw [State.pseudo, hp]; rfl) fun b => afterFirstLook_goes b hp⟩
  | flush hp =>
    exact .inr ⟨by rw [hp]; rfl, _, State.transact_answered (fun _ _ => rfl) (fun _ _ => by rw [State.pseudo, hp]; rfl)
      fun b => .inl ⟨nofun, rfl, rfl, fun _ => by rw [State.pseudo, hp]; rfl⟩⟩
  | poll pass exit wait hp =>
    exact .inr ⟨(Phase.busy_of_pollRow hp).1, _, State.transact_answered (State.afterPoll_env pass exit wait)
      (fun _ _ => Phase.pseudo_pollRow hp 0 _) fun b => afterPoll_goes b hp⟩
  | data hp =>
    exact .inr ⟨by rw [hp]; rfl, _, State.transact_answered (fun _ _ => rfl) (fun _ _ => by rw [State.pseudo, hp]; rfl)
      fun b => .inr ⟨_, .of_ok rfl rfl rfl fun _ => by rw [State.pseudo, hp]; rfl⟩⟩
  | readSelect hp =>
    exact .inr ⟨by rw [hp]; rfl, _, State.transact_answered (fun _ _ => rfl) (fun _ _ => by rw [State.pseudo, hp]; rfl)
      fun b => .inl ⟨nofun, rfl, rfl, fun _ => by rw [State.pseudo, hp]; rfl⟩⟩
  | writeSelect hp =>
    exact .inr ⟨by rw [hp]; rfl, _, State.transact_answered (fun _ _ => rfl) (fun _ _ => by rw [State.pseudo, hp]; rfl)
      fun b => .inl ⟨nofun, rfl, rfl, fun _ => by rw [State.pseudo, hp]; rfl⟩⟩
  | writeData hp =>
    exact .inr ⟨by rw [hp]; rfl, _, State.transact_answered (fun _ _ => rfl) (fun _ _ => by rw [State.pseudo, hp]; rfl)
      fun b => .inr ⟨_, .of_ok rfl rfl rfl fun _ => by rw [State.pseudo, hp]; rfl⟩⟩

/-- Every result but a reset stands for some answer. -/
theorem TxResult.exists_answeredBy {result : TxResult} (h : result ≠ .reset) : ∃ r, result.AnsweredBy r := by
  cases result with
  | done b => exact ⟨.ok b, rfl⟩
  | failed => exact ⟨.fail false, false, rfl⟩
  | reset => exact absurd rfl h

/-- A step of a command in progress is a reset, which records no event, or plays the next piece of its pseudocode. -/
theorem step_busy_cases (hbusy : s.phase ≠ .idle) (h : step s = .next t) :
    ((s.resetDue = true ∨ s.env.choice.reset = true) ∧ t.phase = .idle ∧ t.trace = s.trace) ∨
      ∃ e used, e.ofRow ∧ Goes s t e used := by
  obtain ⟨_, ⟨hdue, rfl⟩ | ⟨_, row⟩⟩ := step_cases h
  · exact .inl ⟨.inl hdue, rfl, rfl⟩
  · obtain ⟨hp, rfl⟩ | ⟨_, x, hx⟩ := row.busy hbusy
    · exact .inr ⟨.dly, [], .inr rfl, Goes.of_tick (.inl (delay_advances hp))⟩
    · obtain ⟨hres, rfl⟩ | ⟨hres, e, he, hgoes⟩ := hx.goes
      · exact .inl ⟨.inr ((s.env.result_reset_iff x).mp hres), rfl, rfl⟩
      · obtain ⟨r, hr⟩ := TxResult.exists_answeredBy hres
        exact .inr ⟨e, [r], .inl he, (hgoes r hr).of_tick⟩

/-- Without a reset it plays the next piece. -/
theorem step_goes (hbusy : s.phase ≠ .idle) (hdue : s.resetDue = false) (hcut : s.env.choice.reset = false)
    (h : step s = .next t) : ∃ e used, e.ofRow ∧ Goes s t e used :=
  (step_busy_cases hbusy h).resolve_left (by simp [hdue, hcut])

/-- Settles O48: `step_goes`, and the one event beside the response is a transaction or a delay. -/
theorem oneResponsePerCommand : Obligations.OneResponsePerCommand := by
  intro s t hbusy hdue hcut h
  obtain ⟨e, used, he, hadv | ⟨x, hend⟩⟩ := step_goes hbusy hdue hcut h
  · refine .inr ⟨hadv.busy, hadv.rsp, ?_⟩
    rw [hadv.trace]
    exact List.countP_cons_of_neg (by simp [Event.not_rsp_of_ofRow he])
  · refine .inl ⟨hend.idle, x, hend.rsp, ?_, ?_⟩ <;> rw [hend.trace]
    · rfl
    · exact (List.countP_cons_of_pos rfl).trans
        (congrArg (· + 1) (List.countP_cons_of_neg (by simp [Event.not_rsp_of_ofRow he])))

/-! ## The oracle's answers -/

/-- The choices of an oracle that answers one transaction after another as listed. -/
def scripted (replies : List BusReply) : List Choice :=
  replies.map fun r => { fire := none, reply := r, reset := false }

theorem answeredBy_scripted {r : BusReply} {rest : List Choice} (hm : s.env.mode = .oracle)
    (hs : s.env.script = { fire := none, reply := r, reset := false } :: rest) (x : Tx) :
    (s.env.result x).AnsweredBy r := by
  obtain ⟨hok, hfail⟩ := Env.result_script hs rfl hm x
  cases r with
  | ok b => rw [hok b rfl]; rfl
  | fail took => rw [hfail took rfl]; exact ⟨took, rfl⟩

theorem overrun_oracle (hm : s.env.mode = .oracle) : s.env.overrun = false := by
  simp only [Env.overrun, hm]

/-- The steps from `s` come to what the pseudocode `b` comes to, and leave `more` beside the unused answers. -/
structure Realises (s : State) (b : Big Rsp) (more : List Choice) : Prop where
  ended : ∀ x, b.response = some x → ∃ n t, untilIdle n s = some t ∧ t.rsp = some x ∧
    t.trace = .rsp x :: (b.events.reverse ++ s.trace) ∧ t.env.script = scripted b.unused ++ more
  waiting : b.response = none → ∃ n t, run n s = .next t ∧ untilIdle n s = none ∧ t.rsp = s.rsp ∧
    t.trace = b.events.reverse ++ s.trace ∧ t.env.script = more

theorem Realises.of_ends {e : Event} {x : Rsp} {used rest : List BusReply} {more : List Choice} (h : step s = .next t)
    (hend : Ends s t [e] x used) (hscript : t.env.script = scripted rest ++ more) :
    Realises s (s.pseudo (used ++ rest)) more := by
  refine ⟨fun y hy => ?_, fun hn => ?_⟩
  · rw [hend.response rest] at hy
    cases hy
    exact ⟨1, t, untilIdle_of_step_idle h hend.idle, hend.rsp, by rw [hend.events]; exact hend.trace,
      by rw [hend.unused]; exact hscript⟩
  · rw [hend.response rest] at hn
    cases hn

theorem Realises.of_advances {evs : List Event} {used rest : List BusReply} {more : List Choice} (h : step s = .next t)
    (hadv : Advances s t evs used) (ht : Realises t (t.pseudo rest) more) :
    Realises s (s.pseudo (used ++ rest)) more := by
  have chain (l : List Event) : l.reverse ++ t.trace = (evs ++ l).reverse ++ s.trace := by
    rw [hadv.trace, List.reverse_append, List.append_assoc]
  rw [hadv.pseudo rest]
  refine ⟨fun x hx => ?_, fun hn => ?_⟩
  · rw [Big.response_after] at hx
    obtain ⟨n, u, hu, hrsp, htrace, hscript⟩ := ht.ended x hx
    exact ⟨n + 1, u, by rw [untilIdle_of_step_busy h hadv.busy, hu], hrsp, by rw [htrace, Big.events_after, chain],
      by rw [Big.unused_after, hscript]⟩
  · rw [Big.response_after] at hn
    obtain ⟨n, u, hu, hidle, hrsp, htrace, hscript⟩ := ht.waiting hn
    exact ⟨n + 1, u, by rw [run_succ_of_step h, hu], by rw [untilIdle_of_step_busy h hadv.busy, hidle],
      hrsp.trans hadv.rsp, by rw [htrace, Big.events_after, chain], hscript⟩

/-- A command in progress before an oracle that answers as listed and then has `more`; no reset is ahead. -/
structure Scripted (s : State) (replies : List BusReply) (more : List Choice) : Prop where
  busy : s.phase ≠ .idle
  oracle : s.env.mode = .oracle
  noReset : noResetAhead s = true
  script : s.env.script = scripted replies ++ more

theorem Scripted.step {replies : List BusReply} {more : List Choice} (h : Scripted s replies more) :
    ∃ t, step s = .next t ∧ StepCase s.tick t :=
  step_live (overrun_oracle h.oracle) (resetDue_of_noResetAhead h.noReset)

/-- A wait goes back to its poll, which sees the same answers. -/
theorem realises_of_polled {replies : List BusReply} {more : List Choice}
    (hpolled : ∀ u, Scripted u replies more → u.phase.waits = false → Realises u (u.pseudo replies) more)
    (h : Scripted s replies more) : Realises s (s.pseudo replies) more := by
  cases hw : s.phase.waits
  · exact hpolled s h hw
  · have hstep := step_delay (overrun_oracle h.oracle) (resetDue_of_noResetAhead h.noReset) hw
    have hadv : Advances s s.tick.delay [.dly] [] := (delay_advances (s := s.tick) hw).of_tick
    have back : s.tick.delay.phase.waits = false := by
      cases hp : s.phase <;> simp [hp, Phase.waits] at hw <;> simp [hp, afterWait, Phase.waits]
    exact .of_advances hstep hadv
      (hpolled _ ⟨hadv.busy, h.oracle, noResetAhead_step h.noReset hstep, h.script⟩ back)

/-- Before such an oracle the steps of a command in progress come to what is left of its pseudocode: each transaction
takes the next answer, and where there is none left it waits. -/
theorem realises_pseudo {replies : List BusReply} {more : List Choice} (h : Scripted s replies more) :
    Realises s (s.pseudo replies) more := by
  induction replies generalizing s with
  | nil =>
    refine realises_of_polled (fun u hu hw => ?_) h
    rw [State.pseudo, Phase.pseudo_nil hw]
    exact ⟨nofun, fun _ => ⟨0, u, rfl, rfl, rfl, rfl, hu.script⟩⟩
  | cons r rest ih =>
    refine realises_of_polled (fun u hu hw => ?_) h
    obtain ⟨t, hstep, row⟩ := hu.step
    obtain ⟨hw', _⟩ | ⟨_, x, hx⟩ := row.busy hu.busy
    · exact absurd (hw.symm.trans hw') nofun
    · have hr : (u.env.result x).AnsweredBy r := answeredBy_scripted hu.oracle hu.script x
      have henv : t.env = u.env.after x := hx.env
      have hscript : t.env.script = scripted rest ++ more := by rw [henv, Env.after_script, hu.script]; rfl
      obtain ⟨hres, _⟩ | ⟨_, e, _, hgoes⟩ := hx.goes
      · rw [show u.env.result x = .reset from hres] at hr
        exact hr.elim
      · obtain hadv | ⟨y, hend⟩ := (hgoes r hr).of_tick
        · refine .of_advances (used := [r]) hstep hadv (ih ⟨hadv.busy, ?_, noResetAhead_step hu.noReset hstep, hscript⟩)
          rw [henv, Env.after_mode, hu.oracle]
        · exact .of_ends (used := [r]) hstep hend hscript

/-- Settles O52: after acceptance what is left is the whole pseudocode, and `realises_pseudo` plays it. -/
theorem tableRefinesPseudocode : Obligations.TableRefinesPseudocode := by
  intro s w replies more hp hw hm hn hs
  have hstep := step_accept hp hw (overrun_oracle hm) (resetDue_of_noResetAhead hn)
  have hbusy : (s.tick.accept (cmdDir w) (cmdVaddr w) (cmdWdata w)).phase ≠ .idle := firstPhase_ne_idle _
  have real := realises_pseudo ⟨hbusy, hm, noResetAhead_step hn hstep, hs⟩
  have htrace : (s.tick.accept (cmdDir w) (cmdVaddr w) (cmdWdata w)).trace = .acc w :: s.trace :=
    State.accept_word_trace w
  rw [State.pseudo_accept] at real
  refine ⟨fun x hx => ?_, fun hx => ?_⟩
  · obtain ⟨n, t, hu, hrsp, ht, hscript⟩ := real.ended x hx
    exact ⟨n + 1, t, by rw [untilIdle_of_step_busy hstep hbusy, hu], hrsp, by rw [ht, htrace]; rfl, hscript⟩
  · obtain ⟨n, t, hu, hidle, hrsp, ht, hscript⟩ := real.waiting hx
    exact ⟨n + 1, t, by rw [run_succ_of_step hstep, hu], by rw [untilIdle_of_step_busy hstep hbusy, hidle], hrsp,
      by rw [ht, htrace]; rfl, hscript⟩

end Sys2Proof.Machine
end

section
/-! PROOFS. The trace of a completed command (30_encoding.md R105; 40_transport_commands.md R135 to R138): its events
are those of the pseudocode for some list of answers, and the pseudocode leaves R136's and R137's shapes. -/

namespace Sys2Proof.Machine

variable {s t : State}

/-! ## From a completed command to the pseudocode -/

theorem Advances.trans_advances {u : State} {evs evs' : List Event} {used used' : List BusReply}
    (h : Advances s u evs used) (h' : Advances u t evs' used') : Advances s t (evs ++ evs') (used ++ used') where
  busy := h'.busy
  rsp := h'.rsp.trans h.rsp
  trace := by rw [h'.trace, h.trace, List.reverse_append, List.append_assoc]
  pseudo rest := by rw [List.append_assoc, h.pseudo, h'.pseudo, Big.after_after]

theorem Advances.trans_ends {u : State} {evs evs' : List Event} {used used' : List BusReply} {x : Rsp}
    (h : Advances s u evs used) (h' : Ends u t evs' x used') : Ends s t (evs ++ evs') x (used ++ used') where
  idle := h'.idle
  rsp := h'.rsp
  trace := by rw [h'.trace, h.trace, List.reverse_append, List.append_assoc]
  response rest := by rw [List.append_assoc, h.pseudo, Big.response_after, h'.response]
  events rest := by rw [List.append_assoc, h.pseudo, Big.events_after, h'.events]
  unused rest := by rw [List.append_assoc, h.pseudo, Big.unused_after, h'.unused]

theorem Advances.rfl' (hbusy : s.phase ≠ .idle) : Advances s s [] [] :=
  ⟨hbusy, rfl, rfl, fun _ => (Big.after_nil _).symm⟩

/-- A command in progress that comes to IDLE was reset, and recorded no response, or has ended as its pseudocode. -/
theorem untilIdle_busy_cases {n : Nat} (hbusy : s.phase ≠ .idle) (h : untilIdle n s = some t) :
    ∃ evs, (∀ e ∈ evs, Event.ofRow e) ∧ (t.trace = evs.reverse ++ s.trace ∨ ∃ x used, Ends s t evs x used) := by
  induction n generalizing s with
  | zero => cases h
  | succ n ih =>
    unfold untilIdle at h
    split at h
    case h_2 => cases h
    case h_3 => cases h
    case h_1 u hu =>
      obtain ⟨_, hidle, htrace⟩ | ⟨e, used, he, hadv | ⟨x, hend⟩⟩ := step_busy_cases hbusy hu
      · rw [if_pos hidle] at h
        cases h
        exact ⟨[], nofun, .inl htrace⟩
      · rw [if_neg hadv.busy] at h
        obtain ⟨evs, hevs, hreset | ⟨x, used', hend⟩⟩ := ih hadv.busy h
        · refine ⟨e :: evs, List.forall_mem_cons.mpr ⟨he, hevs⟩, .inl ?_⟩
          rw [hreset, hadv.trace, ← List.append_assoc, ← List.reverse_append]
          rfl
        · exact ⟨e :: evs, List.forall_mem_cons.mpr ⟨he, hevs⟩, .inr ⟨x, _, hadv.trans_ends hend⟩⟩
      · rw [if_pos hend.idle] at h
        cases h
        exact ⟨[e], by simpa using he, .inr ⟨x, used, hend⟩⟩

/-- A completed command was accepted, and its first step was no reset, which records nothing. -/
theorem CompletedCommand.accepted {w : CmdWord} {evs : List Event} {x : Rsp} (h : CompletedCommand s w evs x t) :
    ∃ n, untilIdle n (s.tick.accept (cmdDir w) (cmdVaddr w) (cmdWdata w)) = some t := by
  obtain ⟨hp, hw, ⟨n, hu⟩, htrace⟩ := h
  cases n with
  | zero => cases hu
  | succ n =>
    unfold untilIdle at hu
    split at hu
    case h_2 => cases hu
    case h_3 => cases hu
    case h_1 v hv =>
      obtain ⟨ho, ⟨_, rfl⟩ | ⟨hdue, _⟩⟩ := step_cases hv
      · rw [if_pos (State.applyReset_phase _)] at hu
        cases hu
        have hlen : s.trace.length = _ := congrArg List.length htrace
        simp only [List.length_cons, List.length_append] at hlen
        omega
      · cases (step_accept hp hw ho hdue).symm.trans hv
        have hbusy : (s.tick.accept (cmdDir w) (cmdVaddr w) (cmdWdata w)).phase ≠ .idle := firstPhase_ne_idle _
        rw [if_neg hbusy] at hu
        exact ⟨n, hu⟩

/-- The events of a completed command are those of its pseudocode for some list of answers, and so is its response. -/
theorem CompletedCommand.pseudo {w : CmdWord} {evs : List Event} {x : Rsp} (h : CompletedCommand s w evs x t) :
    (∀ e ∈ evs, Event.ofRow e) ∧ ∃ replies, (bigCommand s.params.pollLimit w replies).response = some x ∧
      (bigCommand s.params.pollLimit w replies).events = evs := by
  obtain ⟨n, hu⟩ := h.accepted
  obtain ⟨_, _, _, htrace⟩ := h
  have hacc : (s.tick.accept (cmdDir w) (cmdVaddr w) (cmdWdata w)).trace = .acc w :: s.trace :=
    State.accept_word_trace w
  obtain ⟨evs', hrow, hreset | ⟨y, used, hend⟩⟩ := untilIdle_busy_cases (firstPhase_ne_idle _) hu
  · rw [htrace, hacc, ← List.cons_append] at hreset
    have hmem : Event.rsp x ∈ evs' := by
      rw [← List.mem_reverse, ← List.append_cancel_right hreset]
      exact List.mem_cons_self
    exact absurd (Event.not_rsp_of_ofRow (hrow _ hmem)) nofun
  · have same := htrace.symm.trans hend.trace
    rw [hacc] at same
    obtain ⟨hx, hevs⟩ := List.cons.inj same
    cases hx
    cases List.reverse_injective (List.append_cancel_right hevs)
    have hr := hend.response []
    have he := hend.events []
    rw [State.pseudo_accept] at hr he
    exact ⟨hrow, _, hr, he⟩

/-! ## What the pieces leave -/

section
variable {α β : Type} {evs : List Event} {rest replies : List BusReply}

theorem Big.andThen_eq_ok {x : Big α} {f : α → List BusReply → Big β} {b : β} (h : x.andThen f = .ok evs b rest) :
    ∃ evs1 a r evs2, x = .ok evs1 a r ∧ f a r = .ok evs2 b rest ∧ evs = evs1 ++ evs2 := by
  cases x with
  | ok evs1 a r =>
    unfold Big.andThen at h
    dsimp only at h
    cases hf : f a r with
    | ok evs2 b' r' =>
      rw [hf] at h
      cases h
      exact ⟨evs1, a, r, evs2, rfl, hf, rfl⟩
    | raised => rw [hf] at h; cases h
    | running => rw [hf] at h; cases h
  | raised => cases h
  | running => cases h

theorem bigTx_eq_ok {x : Tx} {b : Byte} (h : bigTx x replies = .ok evs b rest) : evs = [x.event b] := by
  unfold bigTx at h
  split at h <;> cases h
  rfl

theorem Big.eq_ok_of_response {x : Big Rsp} {r : Rsp} (h : x.response = some r) (hr : ∀ e, r ≠ .err e) :
    ∃ rest, x = .ok x.events r rest := by
  cases x with
  | ok evs y rest => cases h; exact ⟨rest, rfl⟩
  | raised evs e rest => cases h; exact absurd rfl (hr e)
  | running evs => cases h

end

/-- The events of a poll loop that is left by its exit: failed samples with a delay after each, then one that passes. -/
inductive LoopEvents (pass : Byte → Bool) : List Event → Prop
  | exit {b : Byte} (h : pass b = true) : LoopEvents pass [.rs b]
  | again {b : Byte} {evs : List Event} (h : pass b = false) (hevs : LoopEvents pass evs) :
      LoopEvents pass (.rs b :: .dly :: evs)

theorem bigPoll_eq_ok {limit : Option Nat} {pass : Byte → Bool} {k : Nat} {replies rest : List BusReply}
    {evs : List Event} (h : bigPoll limit pass k replies = .ok evs () rest) : LoopEvents pass evs := by
  induction replies generalizing k evs with
  | nil => cases h
  | cons r replies ih =>
    cases r with
    | fail took => cases h
    | ok b =>
      cases hb : pass b
      · cases hl : limitReached limit (k + 1)
        · rw [bigPoll_again hb hl] at h
          cases hloop : bigPoll limit pass (k + 1) replies with
          | ok evs' a r' =>
            rw [hloop] at h
            cases h
            exact .again hb (ih hloop)
          | raised => rw [hloop] at h; cases h
          | running => rw [hloop] at h; cases h
        · rw [bigPoll_timeout hb hl] at h
          cases h
      · rw [bigPoll_pass hb] at h
        cases h
        exact .exit hb

/-- The events of a read that returned `b` (R125, R136): with the flush of a stale result, or without. -/
inductive RdvEvents (a : VAddr) (b : Byte) : List Event → Prop
  | flushed {s0 y : Byte} {ready result : List Event} (h : rxValid s0 = true) (hready : LoopEvents txClear ready)
      (hresult : LoopEvents rxValid result) :
      RdvEvents a b (.rs s0 :: .rr y :: (ready ++ .ww (selectByte false a) :: (result ++ [.rr b])))
  | direct {s0 : Byte} {ready result : List Event} (h : rxValid s0 = false) (hready : LoopEvents txClear ready)
      (hresult : LoopEvents rxValid result) :
      RdvEvents a b (.rs s0 :: (ready ++ .ww (selectByte false a) :: (result ++ [.rr b])))

/-- The events of a write that was done (R126, R137). -/
inductive WrvEvents (a : VAddr) (d : Byte) : List Event → Prop
  | done {ready taken : List Event} (hready : LoopEvents txClear ready) (htaken : LoopEvents txClear taken) :
      WrvEvents a d (ready ++ .ww (selectByte true a) :: (taken ++ [.ww d]))

section
variable {limit : Option Nat} {a : VAddr} {d : Byte} {replies rest : List BusReply} {evs : List Event} {x : Rsp}

theorem rdvFrom2_eq_ok (h : rdvFrom2 limit a 0 replies = .ok evs x rest) :
    ∃ b ready result, x = .okRd b ∧ LoopEvents txClear ready ∧ LoopEvents rxValid result ∧
      evs = ready ++ .ww (selectByte false a) :: (result ++ [.rr b]) := by
  obtain ⟨ready, _, _, _, hready, h3, rfl⟩ := Big.andThen_eq_ok h
  obtain ⟨_, _, _, _, hselect, h4, rfl⟩ := Big.andThen_eq_ok h3
  obtain ⟨result, _, _, _, hresult, h5, rfl⟩ := Big.andThen_eq_ok h4
  obtain ⟨_, b, _, _, hdata, hx, rfl⟩ := Big.andThen_eq_ok h5
  cases hx
  rw [bigTx_eq_ok hselect, bigTx_eq_ok hdata]
  exact ⟨b, ready, result, rfl, bigPoll_eq_ok hready, bigPoll_eq_ok hresult, rfl⟩

theorem bigRdv_eq_ok (h : bigRdv limit a replies = .ok evs x rest) : ∃ b, x = .okRd b ∧ RdvEvents a b evs := by
  rw [bigRdv_eq] at h
  obtain ⟨_, s0, _, _, hlook, h2, rfl⟩ := Big.andThen_eq_ok h
  rw [bigTx_eq_ok hlook]
  split at h2
  · next hrx =>
    obtain ⟨_, y, _, _, hflush, hfrom2, rfl⟩ := Big.andThen_eq_ok h2
    obtain ⟨b, ready, result, rfl, hready, hresult, rfl⟩ := rdvFrom2_eq_ok hfrom2
    rw [bigTx_eq_ok hflush]
    exact ⟨b, rfl, .flushed hrx hready hresult⟩
  · next hrx =>
    obtain ⟨b, ready, result, rfl, hready, hresult, rfl⟩ := rdvFrom2_eq_ok h2
    exact ⟨b, rfl, .direct (by simpa using hrx) hready hresult⟩

theorem bigWrv_eq_ok (h : bigWrv limit a d replies = .ok evs x rest) : x = .okWr ∧ WrvEvents a d evs := by
  obtain ⟨ready, _, _, _, hready, h2, rfl⟩ := Big.andThen_eq_ok h
  obtain ⟨_, _, _, _, hselect, h3, rfl⟩ := Big.andThen_eq_ok h2
  obtain ⟨taken, _, _, _, htaken, h4, rfl⟩ := Big.andThen_eq_ok h3
  obtain ⟨_, _, _, _, hdata, hx, rfl⟩ := Big.andThen_eq_ok h4
  cases hx
  rw [bigTx_eq_ok hselect, bigTx_eq_ok hdata]
  exact ⟨rfl, .done (bigPoll_eq_ok hready) (bigPoll_eq_ok htaken)⟩

end

/-- What answered with a byte was a read. -/
theorem CompletedCommand.rdvEvents {w : CmdWord} {evs : List Event} {b : Byte}
    (h : CompletedCommand s w evs (.okRd b) t) : cmdDir w = false ∧ RdvEvents (cmdVaddr w) b evs := by
  obtain ⟨_, replies, hr, hevs⟩ := h.pseudo
  obtain ⟨rest, hok⟩ := Big.eq_ok_of_response hr nofun
  rw [hevs] at hok
  cases hw : cmdDir w
  · rw [bigCommand_of_clear hw] at hok
    obtain ⟨_, hb, hrdv⟩ := bigRdv_eq_ok hok
    cases hb
    exact ⟨rfl, hrdv⟩
  · rw [bigCommand_of_set hw] at hok
    cases (bigWrv_eq_ok hok).1

/-- What answered without one was a write. -/
theorem CompletedCommand.wrvEvents {w : CmdWord} {evs : List Event}
    (h : CompletedCommand s w evs .okWr t) : cmdDir w = true ∧ WrvEvents (cmdVaddr w) (cmdWdata w) evs := by
  obtain ⟨_, replies, hr, hevs⟩ := h.pseudo
  obtain ⟨rest, hok⟩ := Big.eq_ok_of_response hr nofun
  rw [hevs] at hok
  cases hw : cmdDir w
  · rw [bigCommand_of_clear hw] at hok
    obtain ⟨_, hb, _⟩ := bigRdv_eq_ok hok
    cases hb
  · rw [bigCommand_of_set hw] at hok
    exact ⟨rfl, (bigWrv_eq_ok hok).2⟩

/-! ## The shapes -/

theorem LoopEvents.dropPoll_append {pass : Byte → Bool} {evs : List Event} (h : LoopEvents pass evs)
    (rest : List Event) : dropPoll pass (evs ++ rest) = some rest := by
  induction h with
  | exit hb =>
    rw [List.cons_append, List.nil_append]
    unfold dropPoll
    split
    · next hl => cases hl; exact if_pos hb
    · next hl => cases hl; exact if_pos hb
    · next hno => exact absurd rfl (hno _ _)
  | again hb _ ih => exact (if_neg (by simp [hb])).trans ih

theorem dropEvent_cons (e : Event) (rest : List Event) : dropEvent e (e :: rest) = some rest := if_pos rfl

/-- A loop begins with a sample, so that after it no flush stands where R125 has none. -/
theorem LoopEvents.dropFirstLook_cons {pass : Byte → Bool} {evs : List Event} (h : LoopEvents pass evs) (s0 : Byte)
    (rest : List Event) :
    dropFirstLook (.rs s0 :: (evs ++ rest)) = if rxValid s0 then none else some (evs ++ rest) := by
  cases h <;> rfl

theorem RdvEvents.shape {a : VAddr} {b : Byte} {evs : List Event} (h : RdvEvents a b evs) :
    rdvShape a b evs = true := by
  cases h with
  | flushed hrx hready hresult =>
    rw [rdvShape, dropFirstLook, if_pos hrx]
    simp only [Option.bind_some, hready.dropPoll_append, hresult.dropPoll_append, dropEvent_cons, decide_true]
  | direct hrx hready hresult =>
    rw [rdvShape, hready.dropFirstLook_cons, if_neg (by simp [hrx])]
    simp only [Option.bind_some, hready.dropPoll_append, hresult.dropPoll_append, dropEvent_cons, decide_true]

theorem WrvEvents.shape {a : VAddr} {d : Byte} {evs : List Event} (h : WrvEvents a d evs) :
    wrvShape a d evs = true := by
  obtain ⟨hready, htaken⟩ := h
  simp only [wrvShape, Option.bind_some, hready.dropPoll_append, htaken.dropPoll_append, dropEvent_cons, decide_true]

/-- Settles O49: the events are those of the pseudocode, which have the shape. -/
theorem rdvTraceShape : Obligations.RdvTraceShape :=
  fun _ _ _ _ _ h => h.rdvEvents.imp_right RdvEvents.shape

/-- Settles O50: the same for a write. -/
theorem wrvTraceShape : Obligations.WrvTraceShape :=
  fun _ _ _ _ h => h.wrvEvents.imp_right WrvEvents.shape

/-! ## The counts -/

theorem txCount_cons (e : Event) (l : List Event) : txCount (e :: l) = txCount l + if e.isTx then 1 else 0 :=
  List.countP_cons

theorem dlyCount_cons (e : Event) (l : List Event) : dlyCount (e :: l) = dlyCount l + if e == .dly then 1 else 0 :=
  List.count_cons

theorem txCount_append (l l' : List Event) : txCount (l ++ l') = txCount l + txCount l' := List.countP_append

theorem dlyCount_append (l l' : List Event) : dlyCount (l ++ l') = dlyCount l + dlyCount l' := List.count_append

/-- Every event of a row is a transaction or a delay, and none is both. -/
theorem length_of_ofRow {evs : List Event} (h : ∀ e ∈ evs, Event.ofRow e) :
    evs.length = txCount evs + dlyCount evs := by
  induction evs with
  | nil => rfl
  | cons e evs ih =>
    obtain ⟨he, hevs⟩ := List.forall_mem_cons.mp h
    have one : (if e.isTx then 1 else 0) + (if e == .dly then 1 else 0) = 1 := by
      rcases he with he | rfl
      · cases e <;> simp [Event.isTx] at he ⊢
      · rfl
    rw [List.length_cons, txCount_cons, dlyCount_cons, ih hevs]
    omega

/-- What the counts of R105, R135 and R138 look at: the bytes written, the reads of READ, and the samples beside the
delays. -/
structure Counts (evs : List Event) (wire : List Byte) (reads samples : Nat) : Prop where
  ww : evs.filter Event.isWW = wire.map .ww
  rr : evs.countP Event.isRR = reads
  rs : evs.countP Event.isRS = dlyCount evs + samples
  tx : samples + reads + wire.length ≤ txCount evs

theorem Counts.append {l l' : List Event} {wire wire' : List Byte} {m m' n n' : Nat} (h : Counts l wire m n)
    (h' : Counts l' wire' m' n') : Counts (l ++ l') (wire ++ wire') (m + m') (n + n') where
  ww := by rw [List.filter_append, h.ww, h'.ww, List.map_append]
  rr := by rw [List.countP_append, h.rr, h'.rr]
  rs := by rw [List.countP_append, h.rs, h'.rs, dlyCount_append]; omega
  tx := by
    have := h.tx
    have := h'.tx
    rw [txCount_append, List.length_append]
    omega

theorem counts_rs (b : Byte) : Counts [.rs b] [] 0 1 := ⟨rfl, rfl, rfl, Nat.le_refl 1⟩
theorem counts_rr (b : Byte) : Counts [.rr b] [] 1 0 := ⟨rfl, rfl, rfl, Nat.le_refl 1⟩
theorem counts_ww (v : Byte) : Counts [.ww v] [v] 0 0 := ⟨rfl, rfl, rfl, Nat.le_refl 1⟩

/-- A failed sample and its delay cancel. -/
theorem counts_again (b : Byte) : Counts [.rs b, .dly] [] 0 0 := ⟨rfl, rfl, rfl, Nat.zero_le 1⟩

theorem LoopEvents.counts {pass : Byte → Bool} {evs : List Event} (h : LoopEvents pass evs) : Counts evs [] 0 1 := by
  induction h with
  | exit => exact counts_rs _
  | again _ _ ih => exact (counts_again _).append ih

/-- The flush is a second read of READ (R135). -/
theorem RdvEvents.counts {a : VAddr} {b : Byte} {evs : List Event} (h : RdvEvents a b evs) :
    ∃ s0, evs.head? = some (.rs s0) ∧ Counts evs [selectByte false a] (if rxValid s0 then 2 else 1) 3 := by
  have tail {ready result : List Event} (hready : LoopEvents txClear ready) (hresult : LoopEvents rxValid result) :
      Counts (ready ++ .ww (selectByte false a) :: (result ++ [.rr b])) [selectByte false a] 1 2 :=
    hready.counts.append ((counts_ww _).append (hresult.counts.append (counts_rr b)))
  cases h with
  | @flushed s0 y _ _ hrx hready hresult =>
    exact ⟨s0, rfl, by rw [if_pos hrx]; exact (counts_rs s0).append ((counts_rr y).append (tail hready hresult))⟩
  | @direct s0 _ _ hrx hready hresult =>
    exact ⟨s0, rfl, by rw [if_neg (by simp [hrx])]; exact (counts_rs s0).append (tail hready hresult)⟩

theorem WrvEvents.counts {a : VAddr} {d : Byte} {evs : List Event} (h : WrvEvents a d evs) :
    Counts evs [selectByte true a, d] 0 2 := by
  obtain ⟨hready, htaken⟩ := h
  exact hready.counts.append ((counts_ww _).append (htaken.counts.append (counts_ww d)))

/-- Settles O51: the counts of the events that `CompletedCommand.rdvEvents` and `CompletedCommand.wrvEvents` find. -/
theorem commandCounts : Obligations.CommandCounts := by
  constructor
  · intro s t w evs b h
    obtain ⟨hdir, hevs⟩ := h.rdvEvents
    obtain ⟨s0, hhead, hc⟩ := hevs.counts
    rw [decodeCmd_of_clear hdir]
    have htx := hc.tx
    refine ⟨hc.ww, ⟨s0, hhead, hc.rr⟩, hc.rs, length_of_ofRow h.pseudo.1, ?_⟩
    rw [List.length_singleton] at htx
    split at htx <;> omega
  · intro s t w evs h
    obtain ⟨hdir, hevs⟩ := h.wrvEvents
    have hc := hevs.counts
    rw [decodeCmd_of_set hdir]
    exact ⟨hc.ww, hc.rr, hc.rs, length_of_ofRow h.pseudo.1, hc.tx⟩

end Sys2Proof.Machine
end

section
/-! PROOFS. With a poll limit every command ends (40_transport_commands.md R139, 60_exceptions.md R222): the pseudocode
is bounded, the controller never overruns the reference device (43_device_environment.md R213), and each step plays on.
-/

namespace Sys2Proof.Machine

variable {s t : State}

/-! ## The reference device is never overrun -/

theorem redObeyed_iff (s : State) :
    redObeyed s = true ↔
      (s.env.mode = .red → s.env.red.overrun = false ∧ (s.phase.writes = true → s.env.red.inbox = none)) := by
  unfold redObeyed
  cases s.env.mode
  · simp
  · cases s.phase.writes <;> simp

theorem overrun_of_redObeyed (h : redObeyed s = true) : s.env.overrun = false := by
  unfold Env.overrun
  split
  · rfl
  · next hm => exact ((redObeyed_iff s).mp h hm).1

/-- In a phase that does not write only OVERRUN counts. -/
theorem redObeyed_of_overrun (ho : t.env.mode = .red → t.env.red.overrun = false) (hp : t.phase.writes = false) :
    redObeyed t = true :=
  (redObeyed_iff t).mpr fun hm => ⟨ho hm, fun h => by simp [hp] at h⟩

/-- Where a transaction is issued, it does not overrun: only a write could, and then the inbox is empty (R207). -/
theorem after_overrun_of_redObeyed {x : Tx} (hs : redObeyed s = true)
    (hx : s.phase.writes = true ∨ ∀ v, x ≠ .write v) (hm : (s.env.after x).mode = .red) :
    (s.env.after x).red.overrun = false := by
  rw [Env.after_mode] at hm
  obtain ⟨ho, hinbox⟩ := (redObeyed_iff s).mp hs hm
  rw [← ho]
  rcases hx with hw | hx
  · cases x with
    | status => exact (s.env.after_read_quiet .status nofun).2
    | read => exact (s.env.after_read_quiet .read nofun).2
    | write v => exact s.env.after_write_overrun v (hinbox hw)
  · exact (s.env.after_read_quiet x hx).2

/-- A phase that writes is entered on a sample that showed the inbox empty; the device does not fill it by itself. -/
theorem act_redObeyed (hs : redObeyed s = true) (h : act s = .next t) : redObeyed t = true := by
  have quiet (x : Tx) (hx : s.phase.writes = true ∨ ∀ v, x ≠ .write v) := after_overrun_of_redObeyed (x := x) hs hx
  have same (hm : s.env.mode = .red) : s.env.red.overrun = false := ((redObeyed_iff s).mp hs hm).1
  refine act_keeps (fun t => redObeyed t = true)
    (haccept := fun w _ => redObeyed_of_overrun same (firstPhase_unarmed _).1) (hhost := fun hp => ?host)
    (hdelay := fun hp => redObeyed_of_overrun same (Phase.afterWait_unarmed hp).1) (hbad := fun x hx => ?bad)
    (hfirst := fun b _ _ => ?firstLook) (hflush := fun _ _ => redObeyed_of_overrun (quiet .read (.inr nofun)) rfl)
    (hpoll := fun pass exit wait b hp hb => ?poll)
    (hdata := fun _ _ => redObeyed_of_overrun (quiet .read (.inr nofun)) rfl)
    (hrsel := fun hp => redObeyed_of_overrun (quiet _ (.inl (by rw [hp]; rfl))) rfl)
    (hwsel := fun hp => redObeyed_of_overrun (quiet _ (.inl (by rw [hp]; rfl))) rfl)
    (hwdata := fun hp => redObeyed_of_overrun (quiet (.write s.wdata) (.inl (by rw [hp]; rfl))) rfl) h
  case host =>
    refine redObeyed_of_overrun (fun hm => ?_) (by rw [s.hostTurn_frame.phase, hp]; rfl)
    rcases s.hostTurn_frame.env with henv | henv <;> rw [henv] at hm ⊢
    · exact same hm
    · rw [s.env.drain_quiet.overrun, same (by rwa [Env.drain_mode] at hm)]
  case bad =>
    have hx' : s.phase.writes = true ∨ ∀ v, x ≠ .write v := by
      rcases hx with ⟨_, rfl⟩ | ⟨_, rfl⟩ | ⟨hw, _⟩
      · exact .inr nofun
      · exact .inr nofun
      · exact .inl hw
    exact ⟨redObeyed_of_overrun (quiet x hx') rfl, redObeyed_of_overrun (quiet x hx') rfl⟩
  case firstLook =>
    rcases State.afterFirstLook_cases b ((s.afterTx .status).emit (.rs b)) with ⟨_, hf⟩ | ⟨_, hf⟩ <;> rw [hf] <;>
      exact redObeyed_of_overrun (quiet .status (.inr nofun)) rfl
  case poll =>
    obtain ⟨hexit, _, hwait, _⟩ := Phase.pollRow_exit hp
    rcases State.afterPoll_cases pass exit wait b ((s.afterTx .status).emit (.rs b)) with
      ⟨hpass, hf⟩ | ⟨_, _, hf⟩ | ⟨_, _, hf⟩ <;> rw [hf]
    · refine (redObeyed_iff _).mpr fun hm => ⟨quiet .status (.inr nofun) hm, fun hw => ?_⟩
      have hm' : s.env.mode = .red := by rwa [State.emit_env, State.afterTx_env, Env.after_mode] at hm
      rw [hexit hw, Env.result_status_red hm' hb, Red.txClear_status, Option.isNone_iff_eq_none] at hpass
      rw [State.emit_env, State.afterTx_env, Env.after_status_red, hpass]
    · exact redObeyed_of_overrun (quiet .status (.inr nofun)) rfl
    · exact redObeyed_of_overrun (quiet .status (.inr nofun)) hwait

/-- The same for a step; the reset input leaves the device alone and goes to a phase that does not write. -/
theorem step_redObeyed (hs : redObeyed s = true) (h : step s = .next t) : redObeyed t = true :=
  step_keeps (fun t => redObeyed t = true)
    (redObeyed_of_overrun (fun hm => ((redObeyed_iff s).mp hs hm).1) rfl) (act_redObeyed (s := s.tick) hs) h

/-! ## The pseudocode under a limit -/

/-- At most so many transactions and so many delays, however the piece of pseudocode ends or waits. -/
structure Big.Within {α : Type} (x : Big α) (tx dly : Nat) : Prop where
  tx : txCount x.events ≤ tx
  dly : dlyCount x.events ≤ dly

section
variable {α β : Type} {n : Nat}

theorem Big.Within.after {x : Big α} {evs : List Event} {m k m' k' : Nat} (h : x.Within m k)
    (htx : txCount evs + m ≤ m') (hdly : dlyCount evs + k ≤ k') : (x.after evs).Within m' k' where
  tx := by have := h.tx; rw [Big.events_after, txCount_append]; omega
  dly := by have := h.dly; rw [Big.events_after, dlyCount_append]; omega

theorem Big.Within.mono {x : Big α} {m k m' k' : Nat} (h : x.Within m k) (hm : m ≤ m') (hk : k ≤ k') : x.Within m' k' :=
  ⟨h.tx.trans hm, h.dly.trans hk⟩

theorem Big.Within.andThen {x : Big α} {f : α → List BusReply → Big β} {m k m' k' : Nat} (h : x.Within m k)
    (hf : ∀ a r, (f a r).Within m' k') : (x.andThen f).Within (m + m') (k + k') := by
  obtain ⟨htx, hdly⟩ := h
  cases x with
  | ok evs a r => exact (hf a r).after (Nat.add_le_add_right htx m') (Nat.add_le_add_right hdly k')
  | raised evs e r => exact ⟨htx.trans (Nat.le_add_right _ _), hdly.trans (Nat.le_add_right _ _)⟩
  | running evs => exact ⟨htx.trans (Nat.le_add_right _ _), hdly.trans (Nat.le_add_right _ _)⟩

theorem Big.within_ok (a : α) (rest : List BusReply) : (Big.ok [] a rest).Within 0 0 := ⟨Nat.le_refl 0, Nat.le_refl 0⟩

theorem bigTx_within (x : Tx) (replies : List BusReply) : (bigTx x replies).Within 1 0 := by
  unfold bigTx
  split
  · cases x <;> exact ⟨Nat.le_refl 1, Nat.le_refl 0⟩
  · exact ⟨Nat.le_refl 1, Nat.le_refl 0⟩
  · exact ⟨Nat.zero_le 1, Nat.le_refl 0⟩

/-- Before the limit a loop takes at most the polls that are left, with a delay between two (R222). -/
theorem bigPoll_within (pass : Byte → Bool) {k : Nat} (hk : k < n) (replies : List BusReply) :
    (bigPoll (some n) pass k replies).Within (n - k) (n - k - 1) := by
  have one {x : Big Unit} (h : x.Within 1 0) : x.Within (n - k) (n - k - 1) := h.mono (by omega) (Nat.zero_le _)
  induction replies generalizing k with
  | nil => exact one ⟨Nat.zero_le 1, Nat.le_refl 0⟩
  | cons r replies ih =>
    cases r with
    | fail took => exact one ⟨Nat.le_refl 1, Nat.le_refl 0⟩
    | ok b =>
      cases hb : pass b
      · cases hl : limitReached (some n) (k + 1)
        · have hk' : k + 1 < n := lt_of_not_limitReached hl rfl
          have next := ih hk' fun h => h.mono (by omega) (Nat.zero_le _)
          have htx : txCount [.rs b, .dly] = 1 := rfl
          have hdly : dlyCount [.rs b, .dly] = 1 := rfl
          rw [bigPoll_again hb hl]
          exact next.after (by omega) (by omega)
        · rw [bigPoll_timeout hb hl]
          exact one ⟨Nat.le_refl 1, Nat.le_refl 0⟩
      · rw [bigPoll_pass hb]
        exact one ⟨Nat.le_refl 1, Nat.le_refl 0⟩

/-- R139's bounds, for the whole pseudocode. -/
theorem bigCommand_within (hn : 1 ≤ n) (w : CmdWord) (replies : List BusReply) :
    (bigCommand (some n) w replies).Within (if cmdDir w then 2 * n + 2 else 2 * n + 4) (2 * (n - 1)) := by
  have loop (pass : Byte → Bool) (r : List BusReply) : (bigPoll (some n) pass 0 r).Within n (n - 1) :=
    bigPoll_within pass hn r
  have look (s0 : Byte) (r : List BusReply) : (if rxValid s0 then bigTx .read r else .ok [] 0#8 r).Within 1 0 := by
    split
    · exact bigTx_within .read r
    · exact (Big.within_ok _ r).mono (Nat.zero_le 1) (Nat.le_refl 0)
  have write : (bigWrv (some n) (cmdVaddr w) (cmdWdata w) replies).Within (n + (1 + (n + (1 + 0))))
      (n - 1 + (0 + (n - 1 + 0))) :=
    (loop _ _).andThen fun _ _ => (bigTx_within _ _).andThen fun _ _ => (loop _ _).andThen fun _ _ =>
      (bigTx_within _ _).andThen fun _ _ => Big.within_ok _ _
  have read : (bigRdv (some n) (cmdVaddr w) replies).Within (1 + (1 + (n + (1 + (n + (1 + 0))))))
      (0 + (0 + (n - 1 + (0 + (n - 1 + 0))))) :=
    (bigTx_within _ _).andThen fun _ _ => (look _ _).andThen fun _ _ => (loop _ _).andThen fun _ _ =>
      (bigTx_within _ _).andThen fun _ _ => (loop _ _).andThen fun _ _ => (bigTx_within _ _).andThen fun _ _ =>
        Big.within_ok _ _
  cases hw : cmdDir w
  · rw [bigCommand_of_clear hw, if_neg nofun]
    exact read.mono (by omega) (by omega)
  · rw [bigCommand_of_set hw, if_pos rfl]
    exact write.mono (by omega) (by omega)

end

/-! ## Every command ends -/

/-- What no reset disturbs: the host asserts none, no transaction is cut off, and the run is not faulted. -/
structure Undisturbed (s : State) : Prop where
  ahead : noResetAhead s = true
  script : noResetInScript s = true
  obeyed : redObeyed s = true

theorem Undisturbed.keeps (hs : Undisturbed s) (h : step s = .next t) : Undisturbed t where
  ahead := noResetAhead_step hs.ahead h
  obeyed := step_redObeyed hs.obeyed h
  script := by
    have all := hs.script
    have tail : (s.env.script.tail.all fun c => !c.reset) = true := by
      rw [noResetInScript, List.all_eq_true] at all
      exact List.all_eq_true.mpr fun c hc => all c (List.mem_of_mem_tail hc)
    unfold noResetInScript at all ⊢
    rcases step_env h with henv | henv | ⟨x, henv⟩ <;> rw [henv]
    · exact all
    · rwa [Env.drain_script]
    · rwa [Env.after_script]

/-- In `m` steps an undisturbed command has ended, or has gone on by `m` events. -/
theorem Undisturbed.ends_or_advances (m : Nat) (hs : Undisturbed s) (hbusy : s.phase ≠ .idle) :
    (∃ t evs x used, untilIdle m s = some t ∧ Ends s t evs x used) ∨
      ∃ t evs used, evs.length = m ∧ (∀ e ∈ evs, Event.ofRow e) ∧ Advances s t evs used := by
  induction m generalizing s with
  | zero => exact .inr ⟨s, [], [], rfl, nofun, .rfl' hbusy⟩
  | succ m ih =>
    obtain ⟨u, hu, _⟩ := step_live (overrun_of_redObeyed hs.obeyed) (resetDue_of_noResetAhead hs.ahead)
    obtain ⟨e, used, he, hadv | ⟨x, hend⟩⟩ :=
      step_goes hbusy (resetDue_of_noResetAhead hs.ahead) (Env.choice_reset_of_script hs.script) hu
    · rcases ih (hs.keeps hu) hadv.busy with ⟨t, evs, x, used', ht, hend⟩ | ⟨t, evs, used', hlen, hevs, hadv'⟩
      · exact .inl ⟨t, e :: evs, x, _, by rw [untilIdle_of_step_busy hu hadv.busy, ht], hadv.trans_ends hend⟩
      · exact .inr ⟨t, e :: evs, _, by rw [List.length_cons, hlen], List.forall_mem_cons.mpr ⟨he, hevs⟩,
          hadv.trans_advances hadv'⟩
    · exact .inl ⟨u, [e], x, used, untilIdle_of_step_idle hu hend.idle, hend⟩

/-- Settles O53: the events of the command are those of its pseudocode, whose bound they would pass if it went on. -/
theorem pollLimitBoundsCommands : Obligations.PollLimitBoundsCommands := by
  intro s w n hp hw hahead ho hscript hlimit hn
  have hobeyed : redObeyed s = true :=
    redObeyed_of_overrun (fun hm => by simpa [Env.overrun, hm] using ho) (by rw [hp]; rfl)
  have hstep := step_accept hp hw ho (resetDue_of_noResetAhead hahead)
  have hbusy : (s.tick.accept (cmdDir w) (cmdVaddr w) (cmdWdata w)).phase ≠ .idle := firstPhase_ne_idle _
  have hacc : (s.tick.accept (cmdDir w) (cmdVaddr w) (cmdWdata w)).trace = .acc w :: s.trace :=
    State.accept_word_trace w
  have bound (used : List BusReply) := bigCommand_within hn w used
  have hlive : Undisturbed s := ⟨hahead, hscript, hobeyed⟩
  rcases (hlive.keeps hstep).ends_or_advances (4 * n + 3) hbusy with
    ⟨t, evs, x, used, ht, hend⟩ | ⟨t, evs, used, hlen, hrow, hadv⟩
  · have hevs := hend.events []
    rw [State.pseudo_accept, State.tick_params, hlimit] at hevs
    obtain ⟨htx, hdly⟩ := bound (used ++ [])
    rw [hevs] at htx hdly
    exact ⟨evs, x, t, ⟨hp, hw, ⟨_, (untilIdle_of_step_busy hstep hbusy).trans ht⟩, by rw [hend.trace, hacc]⟩, hdly, htx⟩
  · have hevs := congrArg Big.events (hadv.pseudo [])
    rw [State.pseudo_accept, State.tick_params, hlimit, Big.events_after] at hevs
    obtain ⟨htx, hdly⟩ := bound (used ++ [])
    rw [hevs, txCount_append] at htx
    rw [hevs, dlyCount_append] at hdly
    rw [length_of_ofRow hrow] at hlen
    split at htx <;> omega

end Sys2Proof.Machine
end

section
/-! PROOFS. A write and then a read against the reference device (40_transport_commands.md R140;
43_device_environment.md R203 to R214): what the device holds at each stage of the two commands, and that each poll loop
waits no longer than the device lags behind. -/

namespace Sys2Proof.Machine

variable {s t u : State}

/-! ## The device at a boundary -/

/-- What `CONSUME`, `PRODUCE` and the passing of time keep, a boundary keeps. -/
theorem Red.boundary_keeps {I : Red → Prop} (hconsume : ∀ r, I r → I r.consume) (hproduce : ∀ r, I r → I r.produce)
    (hage : ∀ (r : Red) (m n : Nat), I r → I { r with ageConsume := m, ageProduce := n }) (k : Nat) {r : Red}
    (h : I r) : I (r.boundary k) := by
  have sched : I (r.schedConsume k) := by
    unfold Red.schedConsume
    split
    · split
      · exact hconsume r h
      · exact hage r _ r.ageProduce h
    · exact h
  unfold Red.boundary Red.schedProduce
  split
  · split
    · exact hproduce _ sched
    · exact hage _ (r.schedConsume k).ageConsume _ sched
  · exact sched

theorem Red.quiescent_iff (r : Red) : r.quiescent = true ↔ r.inbox = none ∧ r.rpend = none := by
  simp [Red.quiescent]

theorem Red.boundary_quiescent {r : Red} (h : r.quiescent = true) (k : Nat) : r.boundary k = r := by
  obtain ⟨hi, hr⟩ := r.quiescent_iff.mp h
  simp [Red.boundary, Red.schedConsume, Red.schedProduce, hi, hr]

/-- A bound on the boundaries that pass until a lazy-k device is quiescent: the wait of each step that is due, and where
`CONSUME` is due that of the `PRODUCE` it may lead to. -/
def Red.lag (k : Nat) (r : Red) : Nat :=
  (if r.inbox.isSome then k - r.ageConsume + 1 + (k + 1) else 0) + if r.rpend.isSome then k - r.ageProduce + 1 else 0

theorem Red.lag_schedConsume_lt (k : Nat) {r : Red} (h : r.inbox.isSome = true) :
    (r.schedConsume k).lag k < r.lag k := by
  unfold Red.schedConsume
  rw [if_pos h]
  split
  · have : r.consume.lag k ≤ k + 1 := by
      unfold Red.lag
      rw [Red.consume_inbox, if_neg nofun]
      split <;> omega
    unfold Red.lag at this ⊢
    rw [if_pos h]
    omega
  · simp only [Red.lag, h, if_true]
    omega

theorem Red.lag_schedProduce_le (k : Nat) (r : Red) :
    (r.schedProduce k).lag k ≤ r.lag k ∧ (r.rpend.isSome = true → (r.schedProduce k).lag k < r.lag k) := by
  unfold Red.schedProduce
  split
  · next h =>
    split
    · rcases r.produce_cases with ⟨hn, _⟩ | ⟨a, _, hp⟩
      · simp [hn] at h
      · simp only [hp, Red.lag, h, if_true, Option.isSome_none, Bool.false_eq_true, if_false]
        omega
    · simp only [Red.lag, h, if_true]
      omega
  · next h => exact ⟨Nat.le_refl _, fun h' => absurd h' h⟩

/-- A device that is not quiescent lags less after a boundary. -/
theorem Red.lag_boundary_lt (k : Nat) {r : Red} (h : r.quiescent = false) : (r.boundary k).lag k < r.lag k := by
  cases hi : r.inbox.isSome
  · have same : r.schedConsume k = r := by simp only [Red.schedConsume, hi, Bool.false_eq_true, if_false]
    have due : r.rpend.isSome = true := by simpa [Red.quiescent, ← Option.not_isSome, hi] using h
    rw [Red.boundary, same]
    exact (Red.lag_schedProduce_le k r).2 due
  · exact (Red.lag_schedProduce_le k _).1.trans_lt (Red.lag_schedConsume_lt k hi)

/-! ## The stages of the two commands -/

section
variable {r : Red} {a : VAddr}

theorem Red.consume_empty (hi : r.inbox = none) : r.consume = r := by
  simp only [Red.consume, hi]

theorem Red.consume_select {write : Bool} (hi : r.inbox = some (selectByte write a)) (hw : r.wpend = none) :
    r.consume = if write then { r with wpend := some a, inbox := none, ageConsume := 0 }
      else { r with rpend := some a, inbox := none, ageConsume := 0 } := by
  simp only [Red.consume, hi, hw, selectByte_bit7, selectByte_low]

theorem Red.consume_data {d : Byte} (hi : r.inbox = some d) (hw : r.wpend = some a) :
    r.consume = { r with vr := Memory.write r.vr a.toNat d, wpend := none, inbox := none, ageConsume := 0 } := by
  simp only [Red.consume, hi, hw]

theorem Red.produce_none (hr : r.rpend = none) : r.produce = r := by
  simp only [Red.produce, hr]

theorem Red.produce_result (hr : r.rpend = some a) :
    r.produce = { r with rbuf := Memory.read r.vr a.toNat, rxv := true, rpend := none, ageProduce := 0 } := by
  simp only [Red.produce, hr]

end

/-- The write-select of `a` is sent: it waits in the inbox, or is pending (R208). The memory is `m`. -/
def Red.Selected (m : Memory) (a : VAddr) (r : Red) : Prop :=
  r.vr = m ∧ r.rpend = none ∧
    (r.inbox = some (selectByte true a) ∧ r.wpend = none ∨ r.inbox = none ∧ r.wpend = some a)

/-- The data byte `d` for `a` is sent: it waits in the inbox, or is stored in the memory `m`. RX_VALID is `x`. -/
def Red.Stored (m : Memory) (a : VAddr) (d : Byte) (x : Bool) (r : Red) : Prop :=
  r.rpend = none ∧ r.rxv = x ∧
    (r.inbox = some d ∧ r.wpend = some a ∧ r.vr = m ∨
      r.inbox = none ∧ r.wpend = none ∧ r.vr = Memory.write m a.toNat d)

/-- The read-select of `a` is sent: it waits in the inbox, or its result is awaited, or stands in RBUF (R209). -/
def Red.Requested (m : Memory) (a : VAddr) (r : Red) : Prop :=
  r.vr = m ∧ r.wpend = none ∧
    (r.inbox = some (selectByte false a) ∧ r.rpend = none ∧ r.rxv = false ∨
      r.inbox = none ∧ r.rpend = some a ∧ r.rxv = false ∨
      r.inbox = none ∧ r.rpend = none ∧ r.rxv = true ∧ r.rbuf = Memory.read m a.toNat)

section
variable {m : Memory} {a : VAddr} {d : Byte} {x : Bool} {r : Red}

theorem Red.Selected.boundary (k : Nat) (h : r.Selected m a) : (r.boundary k).Selected m a := by
  refine Red.boundary_keeps (fun r h => ?_) (fun r h => ?_) (fun _ _ _ h => h) k h
  · obtain ⟨hvr, hr, ⟨hi, hw⟩ | ⟨hi, hw⟩⟩ := h
    · rw [Red.consume_select hi hw]
      exact ⟨hvr, hr, .inr ⟨rfl, rfl⟩⟩
    · rw [Red.consume_empty hi]
      exact ⟨hvr, hr, .inr ⟨hi, hw⟩⟩
  · rwa [Red.produce_none h.2.1]

theorem Red.Stored.boundary (k : Nat) (h : r.Stored m a d x) : (r.boundary k).Stored m a d x := by
  refine Red.boundary_keeps (fun r h => ?_) (fun r h => ?_) (fun _ _ _ h => h) k h
  · obtain ⟨hr, hx, ⟨hi, hw, hvr⟩ | ⟨hi, hw, hvr⟩⟩ := h
    · rw [Red.consume_data hi hw, hvr]
      exact ⟨hr, hx, .inr ⟨rfl, rfl, rfl⟩⟩
    · rw [Red.consume_empty hi]
      exact ⟨hr, hx, .inr ⟨hi, hw, hvr⟩⟩
  · rwa [Red.produce_none h.1]

theorem Red.Requested.boundary (k : Nat) (h : r.Requested m a) : (r.boundary k).Requested m a := by
  refine Red.boundary_keeps (fun r h => ?_) (fun r h => ?_) (fun _ _ _ h => h) k h
  · obtain ⟨hvr, hw, ⟨hi, hr, hx⟩ | ⟨hi, hcase⟩ | ⟨hi, hcase⟩⟩ := h
    · rw [Red.consume_select hi hw]
      exact ⟨hvr, hw, .inr (.inl ⟨rfl, rfl, hx⟩)⟩
    · rw [Red.consume_empty hi]
      exact ⟨hvr, hw, .inr (.inl ⟨hi, hcase⟩)⟩
    · rw [Red.consume_empty hi]
      exact ⟨hvr, hw, .inr (.inr ⟨hi, hcase⟩)⟩
  · obtain ⟨hvr, hw, ⟨hi, hr, hx⟩ | ⟨hi, hr, hx⟩ | ⟨hi, hr, hx⟩⟩ := h
    · rw [Red.produce_none hr]
      exact ⟨hvr, hw, .inl ⟨hi, hr, hx⟩⟩
    · rw [Red.produce_result hr, hvr]
      exact ⟨rfl, hw, .inr (.inr ⟨hi, rfl, rfl, rfl⟩)⟩
    · rw [Red.produce_none hr]
      exact ⟨hvr, hw, .inr (.inr ⟨hi, hr, hx⟩)⟩

end

/-! ## A machine alone with the reference device -/

/-- Nothing disturbs the machine and the reference device: no reset, no poll limit, no choice but the scheduler's. -/
structure Calm (s : State) : Prop where
  ahead : noResetAhead s = true
  limit : s.params.pollLimit = none
  mode : s.env.mode = .red
  script : s.env.script = []
  obeyed : redObeyed s = true

theorem Calm.keeps (hs : Calm s) (h : step s = .next t) : Calm t where
  ahead := noResetAhead_step hs.ahead h
  limit := (step_params h).symm ▸ hs.limit
  mode := by
    rcases step_env h with henv | henv | ⟨x, henv⟩ <;> rw [henv]
    · exact hs.mode
    · rw [Env.drain_mode, hs.mode]
    · rw [Env.after_mode, hs.mode]
  script := by
    rcases step_env h with henv | henv | ⟨x, henv⟩ <;> rw [henv]
    · exact hs.script
    · rw [Env.drain_script, hs.script]
    · rw [Env.after_script, hs.script, List.tail_nil]
  obeyed := step_redObeyed hs.obeyed h

theorem Calm.step_row (hs : Calm s) (row : StepCase s.tick t) : step s = .next t := by
  rw [step_act (overrun_of_redObeyed hs.obeyed) (resetDue_of_noResetAhead hs.ahead), row.act_eq]

/-- The device as the next transaction finds it. -/
def State.atBoundary (s : State) : Red := Red.boundary s.env.lazyK s.env.red

/-- The state in which a completed transaction leaves the sequencer to go on. -/
def State.played (x : Tx) (s : State) : State := (s.tick.afterTx x).emit (x.event (s.atBoundary.answer x))

theorem Calm.choice (hs : Calm s) : s.env.choice = { fire := none, reply := .ok 0x00#8, reset := false } := by
  simp only [Env.choice, hs.script, hs.mode]

theorem Calm.begin_red (hs : Calm s) : s.env.begin.red = s.atBoundary := by
  simp only [Env.begin, hs.mode, Env.redBefore, hs.choice]
  rfl

theorem Calm.played_red (hs : Calm s) (x : Tx) : (s.played x).env.red = s.atBoundary.effect x := by
  have h : (s.env.after x).red = s.env.begin.red.effect x := by
    simp only [Env.after, hs.mode, hs.choice, BusReply.took, if_true]
  rw [← hs.begin_red, ← h]
  rfl

theorem Calm.result (hs : Calm s) (x : Tx) : s.env.result x = .done (s.atBoundary.answer x) := by
  simp only [Env.result, hs.choice, hs.mode, hs.begin_red, Bool.false_eq_true, if_false]

theorem Calm.transact (hs : Calm s) (x : Tx) (f : Byte → State → State) :
    s.tick.transact x f = f (s.atBoundary.answer x) (s.played x) :=
  State.transact_done f (hs.result x)

/-- What a command in progress leaves alone until it responds: its operands, the host, the scheduler, the responses. -/
structure Context where
  vaddr : VAddr
  wdata : Byte
  port : Option CmdWord
  todo : List HostItem
  running : Option Running
  lazyK : Nat
  responses : Nat

def State.context (s : State) : Context where
  vaddr := s.vaddr
  wdata := s.wdata
  port := s.port
  todo := s.host.todo
  running := s.host.running
  lazyK := s.env.lazyK
  responses := s.trace.countP Event.isRsp

theorem State.played_context (x : Tx) (s : State) : (s.played x).context = s.context := by
  have hlazy : (s.played x).env.lazyK = s.env.lazyK := Env.after_lazyK s.env x
  have hrsp : (s.played x).trace.countP Event.isRsp = s.trace.countP Event.isRsp :=
    List.countP_cons_of_neg (by rw [Event.not_rsp_of_ofRow (Event.ofRow_event x _)]; nofun)
  unfold State.context
  rw [hlazy, hrsp]
  rfl

/-- A run leads from `s` to `t`. -/
def Reaches (s t : State) : Prop := ∃ n, run n s = .next t

theorem Reaches.trans (h : Reaches s t) (h' : Reaches t u) : Reaches s u := by
  obtain ⟨m, hm⟩ := h
  obtain ⟨n, hn⟩ := h'
  exact ⟨m + n, by rw [run_add hm, hn]⟩

theorem Reaches.of_step (h : step s = .next t) : Reaches s t := ⟨1, by rw [run_succ_of_step h, run]⟩

/-- A calm machine comes from `s` to `t` within one command. -/
structure Serves (s t : State) : Prop where
  reach : Reaches s t
  calm : Calm t
  context : t.context = s.context

theorem Serves.trans (h : Serves s t) (h' : Serves t u) : Serves s u :=
  ⟨h.reach.trans h'.reach, h'.calm, h'.context.trans h.context⟩

theorem Calm.serves_row (hs : Calm s) (row : StepCase s.tick t) (hc : t.context = s.context) : Serves s t :=
  ⟨.of_step (hs.step_row row), hs.keeps (hs.step_row row), hc⟩

/-- A poll loop ends: each sample that fails leaves the device less behind. `I` is the stage of the command. -/
theorem Calm.poll_loop {I : Red → Prop} {pass : Byte → Bool} {exit wait : Phase}
    (hkeeps : ∀ (k : Nat) (r : Red), I r → I (r.boundary k))
    (hwaits : ∀ r : Red, I r → pass r.status = false → r.quiescent = false) (hs : Calm s)
    (hp : s.phase.pollRow = some (pass, exit, wait)) (hI : I s.env.red) :
    ∃ t, Serves s t ∧ t.phase = exit ∧ I t.env.red ∧ pass t.env.red.status = true := by
  induction hlag : s.env.red.lag s.env.lazyK using Nat.strong_induction_on generalizing s with
  | _ lag ih =>
    have hplayed : (s.played .status).env.red = s.atBoundary := hs.played_red .status
    have hI' : I s.atBoundary := hkeeps _ _ hI
    have row : StepCase s.tick ((s.played .status).afterPoll pass exit wait s.atBoundary.status) := by
      have := StepCase.poll (s := s.tick) pass exit wait hp
      rwa [hs.transact] at this
    rcases State.afterPoll_cases pass exit wait s.atBoundary.status (s.played .status) with
      ⟨hpass, hf⟩ | ⟨_, hl, _⟩ | ⟨hfail, _, hf⟩
    · rw [hf] at row
      exact ⟨_, hs.serves_row row (State.played_context .status s), rfl, hplayed.symm ▸ hI', hplayed.symm ▸ hpass⟩
    · have hlimit : (s.played .status).params.pollLimit = none := hs.limit
      rw [hlimit] at hl
      cases hl
    · rw [hf] at row
      obtain ⟨hw, hback⟩ := Phase.afterWait_of_pollRow hp
      have first := hs.serves_row row (State.played_context .status s)
      have second := first.calm.serves_row (.delay hw) rfl
      have hless : s.atBoundary.lag s.env.lazyK < s.env.red.lag s.env.lazyK := by
        refine Red.lag_boundary_lt _ ?_
        by_contra hq
        have hq : s.env.red.quiescent = true := by simpa using hq
        have hstill : s.atBoundary = s.env.red := Red.boundary_quiescent hq _
        rw [hstill] at hfail hI'
        rw [hwaits _ hI' hfail] at hq
        cases hq
      have hlazy : (s.played .status).env.lazyK = s.env.lazyK := Env.after_lazyK s.env .status
      obtain ⟨t, ht, hrest⟩ := ih _ (hlag ▸ hless) second.calm (by rw [← hp, ← hback]; rfl) (hplayed.symm ▸ hI')
        (by rw [← hplayed, ← hlazy]; rfl)
      exact ⟨t, (first.trans second).trans ht, hrest⟩

/-! ## The rows of the two commands -/

/-- A completed row goes on in the phase that its continuation chooses. -/
theorem Calm.serves_transact {x : Tx} {f : Byte → State → State} (hs : Calm s)
    (row : StepCase s.tick (s.tick.transact x f))
    (hc : (f (s.atBoundary.answer x) (s.played x)).context = (s.played x).context)
    (henv : (f (s.atBoundary.answer x) (s.played x)).env = (s.played x).env) :
    Serves s (f (s.atBoundary.answer x) (s.played x)) ∧
      (f (s.atBoundary.answer x) (s.played x)).env.red = s.atBoundary.effect x := by
  rw [hs.transact] at row
  exact ⟨hs.serves_row row (hc.trans (State.played_context x s)), by rw [henv, hs.played_red]⟩

theorem Red.effect_write {r : Red} (hi : r.inbox = none) (v : Byte) :
    r.effect (.write v) = { r with inbox := some v } := by
  simp only [Red.effect, hi]

section
variable {r : Red}

/-- Where a poll fails for TX_VALID the device has still to consume. -/
theorem Red.not_quiescent_of_txClear (h : txClear r.status = false) : r.quiescent = false := by
  rw [Red.txClear_status] at h
  simp only [Red.quiescent, h, Bool.false_and]

theorem Red.inbox_of_txClear (h : txClear r.status = true) : r.inbox = none := by
  rwa [Red.txClear_status, Option.isNone_iff_eq_none] at h

end

section
variable {m : Memory} {a : VAddr} {d : Byte}

/-- A calm machine goes from a quiescent device straight through a transaction: nothing fires before it. -/
theorem Calm.atBoundary_quiescent (h : s.env.red.inbox = none) (h' : s.env.red.rpend = none) :
    s.atBoundary = s.env.red :=
  Red.boundary_quiescent (s.env.red.quiescent_iff.mpr ⟨h, h'⟩) _

/-- R126 steps 1 to 3: the device at rest shows TX_VALID clear at once, and takes the write-select. -/
theorem Calm.write_select (hs : Calm s) (hp : s.phase = .w1Poll) (hi : s.env.red.inbox = none)
    (hw : s.env.red.wpend = none) (hr : s.env.red.rpend = none) :
    ∃ t, Serves s t ∧ t.phase = .w4Data ∧ t.env.red.Selected s.env.red.vr s.vaddr ∧ t.env.red.inbox = none := by
  have still (k : Nat) (r : Red) (h : r = s.env.red) : r.boundary k = s.env.red := by
    rw [h, Red.boundary_quiescent (s.env.red.quiescent_iff.mpr ⟨hi, hr⟩)]
  obtain ⟨u, hu, hup, hured, -⟩ := hs.poll_loop still (fun _ _ => Red.not_quiescent_of_txClear)
    (by rw [hp]; rfl) rfl
  have hvaddr : u.vaddr = s.vaddr := congrArg Context.vaddr hu.context
  obtain ⟨hv, hvred⟩ := hu.calm.serves_transact (.writeSelect hup) rfl rfl
  have selected : u.atBoundary.effect (.write (selectByte true u.tick.vaddr)) =
      { s.env.red with inbox := some (selectByte true s.vaddr) } := by
    rw [Calm.atBoundary_quiescent (hured ▸ hi) (hured ▸ hr), hured, Red.effect_write hi, ← hvaddr]
    rfl
  rw [selected] at hvred
  obtain ⟨t, ht, htp, htred, hclear⟩ := hv.calm.poll_loop (I := Red.Selected s.env.red.vr s.vaddr)
    (fun k _ => Red.Selected.boundary k) (fun _ _ => Red.not_quiescent_of_txClear) rfl
    (by rw [hvred]; exact ⟨rfl, hr, .inl ⟨rfl, hw⟩⟩)
  exact ⟨t, (hu.trans hv).trans ht, htp, htred, Red.inbox_of_txClear hclear⟩

/-- R125 step 1, the sample: RX_VALID decides. -/
theorem Calm.look {x : Bool} (hs : Calm s) (hp : s.phase = .r1Stat) (hst : s.env.red.Stored m a d x) :
    ∃ t, Serves s t ∧ t.phase = (if x then .r1Flush else .r2Poll) ∧ t.env.red.Stored m a d x := by
  have hlook : s.atBoundary.Stored m a d x := hst.boundary _
  have hrxv : rxValid s.atBoundary.status = x := (Red.rxValid_status _).trans hlook.2.1
  have hred : (s.played .status).env.red.Stored m a d x := (hs.played_red .status).symm ▸ hlook
  have row : StepCase s.tick ((s.played .status).afterFirstLook s.atBoundary.status) := by
    have := StepCase.firstLook (s := s.tick) hp
    rwa [hs.transact] at this
  rcases State.afterFirstLook_cases s.atBoundary.status (s.played .status) with ⟨hx, hf⟩ | ⟨hx, hf⟩ <;>
    rw [hf] at row <;> rw [hrxv] at hx
  · exact ⟨_, hs.serves_row row (State.played_context .status s), by rw [hx]; rfl, hred⟩
  · exact ⟨_, hs.serves_row row (State.played_context .status s), by rw [hx]; rfl, hred⟩

/-- R125 step 1: whatever stale result stands, the flush leaves RX_VALID clear. -/
theorem Calm.first_look {x : Bool} (hs : Calm s) (hp : s.phase = .r1Stat) (hst : s.env.red.Stored m a d x) :
    ∃ t, Serves s t ∧ t.phase = .r2Poll ∧ t.env.red.Stored m a d false := by
  obtain ⟨u, hu, hup, hured⟩ := hs.look hp hst
  cases x with
  | false => exact ⟨u, hu, hup, hured⟩
  | true =>
    obtain ⟨ht, htred⟩ := hu.calm.serves_transact (.flush hup) rfl rfl
    obtain ⟨hr, _, hcase⟩ : u.atBoundary.Stored m a d true := hured.boundary _
    exact ⟨_, hu.trans ht, rfl, htred ▸ ⟨hr, rfl, hcase⟩⟩

/-- R125 steps 2 and 3: the byte still in the inbox is stored, then the read-select is sent. -/
theorem Calm.read_select (hs : Calm s) (hp : s.phase = .r2Poll) (hst : s.env.red.Stored m a d false) :
    ∃ t, Serves s t ∧ t.phase = .r4Poll ∧ t.env.red.Requested (Memory.write m a.toNat d) s.vaddr := by
  obtain ⟨u, hu, hup, hured, hclear⟩ := hs.poll_loop (fun k _ => Red.Stored.boundary k)
    (fun _ _ => Red.not_quiescent_of_txClear) (by rw [hp]; rfl) hst
  have hvaddr : u.vaddr = s.vaddr := congrArg Context.vaddr hu.context
  have hi := Red.inbox_of_txClear hclear
  obtain ⟨hr, hx, ⟨hi', _⟩ | ⟨_, hw, hvr⟩⟩ := hured
  · rw [hi] at hi'
    cases hi'
  · obtain ⟨hv, hvred⟩ := hu.calm.serves_transact (.readSelect hup) rfl rfl
    rw [Calm.atBoundary_quiescent hi hr, Red.effect_write hi] at hvred
    exact ⟨_, hu.trans hv, rfl, hvred ▸ ⟨hvr, hw, .inl ⟨congrArg (fun a => some (selectByte false a)) hvaddr, hr, hx⟩⟩⟩

/-- R125 step 4: the loop ends with the result in RBUF. -/
theorem Calm.read_result (hs : Calm s) (hp : s.phase = .r4Poll) (hreq : s.env.red.Requested m a) :
    ∃ t, Serves s t ∧ t.phase = .r5Data ∧ t.env.red.vr = m ∧ t.env.red.inbox = none ∧ t.env.red.rpend = none ∧
      t.env.red.rbuf = Memory.read m a.toNat := by
  have waits (r : Red) (h : r.Requested m a) (hx : rxValid r.status = false) : r.quiescent = false := by
    rw [Red.rxValid_status] at hx
    obtain ⟨_, _, ⟨hi, _⟩ | ⟨_, hr, _⟩ | ⟨_, _, hx', _⟩⟩ := h
    · simp [Red.quiescent, hi]
    · simp [Red.quiescent, hr]
    · rw [hx] at hx'
      cases hx'
  obtain ⟨t, ht, htp, ⟨hvr, _, hcase⟩, hvalid⟩ := hs.poll_loop (fun k _ => Red.Requested.boundary k) waits
    (by rw [hp]; rfl) hreq
  rw [Red.rxValid_status] at hvalid
  obtain ⟨_, _, hx⟩ | ⟨_, _, hx⟩ | ⟨hi, hr, _, hbuf⟩ := hcase
  · rw [hvalid] at hx
    cases hx
  · rw [hvalid] at hx
    cases hx
  · exact ⟨t, ht, htp, hvr, hi, hr, hbuf⟩

end

/-! ## A command from the host to its response -/

/-- The machine is idle, the host has `todo` to offer and awaits nothing, and `n` responses have been given. -/
structure Resting (s : State) (todo : List HostItem) (n : Nat) : Prop where
  calm : Calm s
  idle : s.phase = .idle
  port : s.port = none
  running : s.host.running = none
  todo : s.host.todo = todo
  responses : s.trace.countP Event.isRsp = n

section
variable {m : Memory} {a : VAddr} {d : Byte} {rest : List HostItem} {n : Nat}

/-- The host offers its next word, and the controller accepts it. -/
theorem Resting.accepted {w : CmdWord} (h : Resting s (.cmd w :: rest) n) :
    ∃ t, Reaches s t ∧ Calm t ∧ t.phase = firstPhase (cmdDir w) ∧ t.env.red = s.env.red ∧
      t.context = ⟨cmdVaddr w, cmdWdata w, none, rest, none, s.env.lazyK, n⟩ := by
  have offer : s.tick.hostTurn =
      { s.tick with port := some w, host := { s.tick.host with todo := rest } } := by
    simp only [State.hostTurn, State.tick_host, h.running, h.todo]
  have hoffer : step s = .next s.tick.hostTurn := h.calm.step_row (.host h.idle h.port)
  rw [offer] at hoffer
  have hcalm := h.calm.keeps hoffer
  have haccept := hcalm.step_row (.accept w h.idle rfl)
  refine ⟨_, (Reaches.of_step hoffer).trans (.of_step haccept), hcalm.keeps haccept, rfl, rfl, ?_⟩
  rw [← h.running, ← h.responses]
  rfl

/-- A response ends the command: the machine rests again. -/
theorem Calm.rests {g : State} {c : VAddr} {e : Byte} {k : Nat} {y : Rsp} (hs : Calm s)
    (hctx : s.context = ⟨c, e, none, rest, none, k, n⟩) (row : StepCase s.tick (g.respond y))
    (hg : g.context = s.context) :
    Reaches s (g.respond y) ∧ Resting (g.respond y) rest (n + 1) := by
  have hstep := hs.step_row row
  have hc := hg.trans hctx
  exact ⟨.of_step hstep, hs.keeps hstep, rfl, congrArg Context.port hc, congrArg Context.running hc,
    congrArg Context.todo hc, (List.countP_cons_of_pos rfl).trans (congrArg (fun c => c.responses + 1) hc)⟩

/-- The write, from the device at rest to the data byte in its inbox. -/
theorem Resting.write (h : Resting s (.cmd (encodeCmd true a d) :: rest) n) (hi : s.env.red.inbox = none)
    (hw : s.env.red.wpend = none) (hr : s.env.red.rpend = none) :
    ∃ t x, Reaches s t ∧ Resting t rest (n + 1) ∧ t.env.red.Stored s.env.red.vr a d x := by
  obtain ⟨u, hsu, hcalm, hup, hured, hctx⟩ := h.accepted
  rw [cmdDir_encodeCmd] at hup
  rw [cmdVaddr_encodeCmd, cmdWdata_encodeCmd] at hctx
  obtain ⟨v, hv, hvp, hvred, hvi⟩ := hcalm.write_select hup (hured ▸ hi) (hured ▸ hw) (hured ▸ hr)
  rw [hured, show u.vaddr = a from congrArg Context.vaddr hctx] at hvred
  obtain ⟨hvr, hvr', ⟨hvi', _⟩ | ⟨_, hvw⟩⟩ := hvred
  · rw [hvi] at hvi'
    cases hvi'
  · have hvctx := hv.context.trans hctx
    have hdata : v.tick.wdata = d := congrArg Context.wdata hvctx
    have row := StepCase.writeData (s := v.tick) hvp
    rw [hv.calm.transact, hdata] at row
    obtain ⟨hvt, hrest⟩ := hv.calm.rests hvctx row (State.played_context _ v)
    have hred : ((v.played (.write d)).respond .okWr).env.red = { v.env.red with inbox := some d } := by
      rw [State.respond_env, hv.calm.played_red, Calm.atBoundary_quiescent hvi hvr', Red.effect_write hvi]
    exact ⟨_, v.env.red.rxv, (hsu.trans hv.reach).trans hvt, hrest, hred ▸ ⟨hvr', rfl, .inl ⟨rfl, hvw, hvr⟩⟩⟩

/-- The read, from the data byte in the inbox, or stored, to the response. -/
theorem Resting.read {x : Bool} {y : Byte} (h : Resting s (.cmd (encodeCmd false a y) :: rest) n)
    (hst : s.env.red.Stored m a d x) :
    ∃ t, Reaches s t ∧ Resting t rest (n + 1) ∧ t.env.red.vr = Memory.write m a.toNat d ∧
      t.rsp = some (.okRd (Memory.read (Memory.write m a.toNat d) a.toNat)) := by
  obtain ⟨u, hsu, hcalm, hup, hured, hctx⟩ := h.accepted
  rw [cmdDir_encodeCmd] at hup
  rw [cmdVaddr_encodeCmd, cmdWdata_encodeCmd] at hctx
  obtain ⟨u2, h2, hp2, hred2⟩ := hcalm.first_look hup (hured ▸ hst)
  obtain ⟨u4, h4, hp4, hred4⟩ := h2.calm.read_select hp2 hred2
  have h24 := h2.trans h4
  have hvaddr : u2.vaddr = a := congrArg Context.vaddr (h2.context.trans hctx)
  rw [hvaddr] at hred4
  obtain ⟨v, h5, hvp, hvr, hvi, hvr', hbuf⟩ := h4.calm.read_result hp4 hred4
  have hv := h24.trans h5
  have row := StepCase.data (s := v.tick) hvp
  have still : v.atBoundary = v.env.red := Calm.atBoundary_quiescent hvi hvr'
  have hans : v.atBoundary.answer .read = Memory.read (Memory.write m a.toNat d) a.toNat := by rw [still, ← hbuf]; rfl
  rw [hv.calm.transact, hans] at row
  obtain ⟨hvt, hrest⟩ := hv.calm.rests (hv.context.trans hctx) row (State.played_context _ v)
  refine ⟨_, (hsu.trans hv.reach).trans hvt, hrest, ?_, rfl⟩
  have hred := hv.calm.played_red .read
  rw [still] at hred
  exact (congrArg Red.vr hred).trans hvr

end

/-- Settles O55: the write and then the read, from rest to rest; what is read is what was written (R63). -/
theorem writeThenReadRoundTrip : Obligations.WriteThenReadRoundTrip := by
  intro s a d x hp hport hahead hlimit hrest hscript hrunning htodo
  simp only [redAtRest, Bool.and_eq_true, decide_eq_true_eq, Option.isNone_iff_eq_none, Bool.not_eq_true',
    and_assoc] at hrest
  obtain ⟨hmode, hi, hw, hr, ho, hwf⟩ := hrest
  have hobeyed : redObeyed s = true := redObeyed_of_overrun (fun _ => ho) (by rw [hp]; rfl)
  have start : Resting s [.cmd (encodeCmd true a d), .cmd (encodeCmd false a x)] (s.trace.countP Event.isRsp) :=
    ⟨⟨hahead, hlimit, hmode, hscript, hobeyed⟩, hp, hport, hrunning, htodo, rfl⟩
  obtain ⟨u, _, hsu, hu, hst⟩ := start.write hi hw hr
  obtain ⟨t, hut, ht, hvr, hrsp⟩ := hu.read hst
  obtain ⟨n, hn⟩ := hsu.trans hut
  have stored (c : Nat) := Memory.read_write_wf hwf a.toNat d c
  rw [stored, if_pos rfl] at hrsp
  exact ⟨n, t, hn, ht.idle, ht.todo, ht.port, hrsp, ht.responses, fun c => by rw [hvr, stored]⟩

end Sys2Proof.Machine
end

section
/-! PROOFS. The physical transactions (41_physical_transactions.md R150 to R153, R161): where each micro-operation runs,
what it leaves unchanged, what a failed one does to the device, and what a step hands to the bus capability. -/

namespace Sys2Proof.Machine

variable {s t u : State}

/-! ## Where each micro-operation runs -/

theorem Phase.samples_iff (p : Phase) : p.samples = true ↔ p ∈ [Phase.r1Stat, .r2Poll, .r4Poll, .w1Poll, .w3Poll] := by
  cases p <;> decide

theorem Phase.reads_iff (p : Phase) : p.reads = true ↔ p ∈ [Phase.r1Flush, .r5Data] := by
  cases p <;> decide

theorem Phase.writes_iff (p : Phase) : p.writes = true ↔ p ∈ [Phase.r3Sel, .w2Sel, .w4Data] := by
  cases p <;> decide

theorem exec_prdStatus_refused (h : ¬ s.phase.samples = true) : exec .prdStatus s = .refused .notIssuedInPhase := by
  simp only [exec, execPrdStatus]
  split
  case h_6 => rfl
  all_goals next hp => exact absurd (by rw [hp]; rfl) h

theorem exec_prdRead_refused (h : ¬ s.phase.reads = true) : exec .prdRead s = .refused .notIssuedInPhase := by
  simp only [exec, execPrdRead]
  split
  case h_3 => rfl
  all_goals next hp => exact absurd (by rw [hp]; rfl) h

theorem exec_pwrWrite_refused (v : Byte) (h : ¬ s.phase.writes = true) :
    exec (.pwrWrite v) s = .refused .notIssuedInPhase := by
  simp only [exec, execPwrWrite]
  split
  case h_4 => rfl
  all_goals next hp => exact absurd (by rw [hp]; rfl) h

/-- Settles O24: in its own phases a micro-operation is its row's transaction, and elsewhere it is refused. -/
theorem microOperationsOnlyWhereIssued : Obligations.MicroOperationsOnlyWhereIssued := by
  intro s
  rw [← Phase.samples_iff, ← Phase.reads_iff, ← Phase.writes_iff]
  refine ⟨fun h => ?_, exec_prdStatus_refused, fun h => ?_, exec_prdRead_refused, fun v h => ?_, exec_pwrWrite_refused⟩
  · obtain ⟨f, hf⟩ := exec_prdStatus_samples h
    exact ⟨_, hf⟩
  · obtain ⟨f, hf⟩ := exec_prdRead_reads h
    exact ⟨_, hf⟩
  · obtain ⟨f, hf⟩ := exec_pwrWrite_writes v h
    exact ⟨_, hf⟩

/-! ## What the sequencer does with a transaction's result -/

/-- `t` is `u` but for PHASE, POLLS, the events and the latches STAT, now `st`, and RDATA, now `rd`; the response port
changed only on return to IDLE. -/
def Continues (u : State) (st rd : Byte) (t : State) : Prop :=
  ∃ p n x tr, t = { u with stat := st, rdata := rd, phase := p, polls := n, rsp := x, trace := tr } ∧
    (p ≠ .idle → x = u.rsp)

theorem afterFirstLook_continues (b : Byte) (u : State) : Continues u b u.rdata (u.afterFirstLook b) := by
  rcases u.afterFirstLook_cases b with ⟨_, h⟩ | ⟨_, h⟩ <;> rw [h] <;> exact ⟨_, _, _, _, rfl, fun _ => rfl⟩

theorem afterPoll_continues (pass : Byte → Bool) (exit wait : Phase) (b : Byte) (u : State) :
    Continues u b u.rdata (u.afterPoll pass exit wait b) := by
  rcases u.afterPoll_cases pass exit wait b with ⟨_, h⟩ | ⟨_, _, h⟩ | ⟨_, _, h⟩ <;> rw [h]
  · exact ⟨_, _, _, _, rfl, fun _ => rfl⟩
  · exact ⟨_, _, _, _, rfl, fun hp => absurd rfl hp⟩
  · exact ⟨_, _, _, _, rfl, fun _ => rfl⟩

theorem enterLoop_continues (p : Phase) (u : State) : Continues u u.stat u.rdata (u.enterLoop p) :=
  ⟨_, _, _, _, rfl, fun _ => rfl⟩

theorem respond_continues (x : Rsp) (u : State) : Continues u u.stat u.rdata (u.respond x) :=
  ⟨_, _, _, _, rfl, fun hp => absurd rfl hp⟩

theorem afterData_continues (b : Byte) (u : State) : Continues u u.stat b (u.afterData b) :=
  ⟨_, _, _, _, rfl, fun hp => absurd rfl hp⟩

/-- A transaction that the reset input does not cut off completes or fails (R158). -/
theorem State.transact_uncut {x : Tx} {f : Byte → State → State} (hr : s.env.choice.reset = false) :
    (∃ b, s.transact x f = f b ((s.afterTx x).emit (x.event b))) ∨
      s.transact x f = ((s.afterTx x).emit (.fail x.kind)).abort .busError := by
  rcases s.transact_cases x f with ⟨b, _, h⟩ | ⟨_, h⟩ | ⟨hcut, _⟩
  · exact .inl ⟨b, h⟩
  · exact .inr h
  · rw [Env.result_reset_iff, hr] at hcut
    cases hcut

/-- Where the continuation keeps the latches, the whole transaction does, completed or failed. -/
theorem State.transact_keepsLatches {x : Tx} {f : Byte → State → State}
    (hf : ∀ b u, Continues u u.stat u.rdata (f b u)) (hr : s.env.choice.reset = false) :
    Continues (s.afterTx x) s.stat s.rdata (s.transact x f) := by
  rcases s.transact_uncut (x := x) (f := f) hr with ⟨b, h⟩ | h <;> rw [h]
  · exact hf b _
  · exact respond_continues _ _

/-! ## The three micro-operations: their rows and their frames -/

theorem exec_prdStatus_row (h : exec .prdStatus s = .next t) :
    ∃ f, t = s.transact .status f ∧ ∀ b u, Continues u b u.rdata (f b u) := by
  simp only [exec, execPrdStatus] at h
  split at h <;> cases h
  · exact ⟨_, rfl, afterFirstLook_continues⟩
  all_goals exact ⟨_, rfl, afterPoll_continues _ _ _⟩

theorem exec_prdRead_row (h : exec .prdRead s = .next t) :
    s.phase = .r1Flush ∧ t = s.transact .read State.afterFlush ∨
      s.phase = .r5Data ∧ t = s.transact .read State.afterData := by
  simp only [exec, execPrdRead] at h
  split at h <;> cases h
  · next hp => exact .inl ⟨hp, rfl⟩
  · next hp => exact .inr ⟨hp, rfl⟩

theorem exec_pwrWrite_row {v : Byte} (h : exec (.pwrWrite v) s = .next t) :
    ∃ f, t = s.transact (.write v) f ∧ ∀ b u, Continues u u.stat u.rdata (f b u) := by
  simp only [exec, execPwrWrite] at h
  split at h <;> cases h
  · exact ⟨_, rfl, fun _ => enterLoop_continues _⟩
  · exact ⟨_, rfl, fun _ => enterLoop_continues _⟩
  · exact ⟨_, rfl, fun _ => respond_continues _⟩

/-- `PRD STATUS` may change STAT alone of the latches (R150). -/
theorem exec_prdStatus_continues (h : exec .prdStatus s = .next t) (hr : s.env.choice.reset = false) :
    ∃ st, Continues (s.afterTx .status) st s.rdata t := by
  obtain ⟨f, rfl, hf⟩ := exec_prdStatus_row h
  rcases s.transact_uncut (x := .status) (f := f) hr with ⟨b, h'⟩ | h' <;> rw [h']
  · exact ⟨b, hf b _⟩
  · exact ⟨s.stat, respond_continues _ _⟩

/-- `PRD READ` may change RDATA alone of the latches, and not where the byte is thrown away (R151). -/
theorem exec_prdRead_continues (h : exec .prdRead s = .next t) (hr : s.env.choice.reset = false) :
    ∃ rd, Continues (s.afterTx .read) s.stat rd t ∧ (s.phase = .r1Flush → rd = s.rdata) := by
  obtain ⟨_, rfl⟩ | ⟨hp, rfl⟩ := exec_prdRead_row h
  · exact ⟨s.rdata, State.transact_keepsLatches (fun _ => enterLoop_continues .r2Poll) hr, fun _ => rfl⟩
  · have notFlush : s.phase ≠ .r1Flush := by rw [hp]; nofun
    rcases s.transact_uncut (x := .read) (f := State.afterData) hr with ⟨b, h'⟩ | h' <;> rw [h']
    · exact ⟨b, afterData_continues b _, fun hflush => absurd hflush notFlush⟩
    · exact ⟨s.rdata, respond_continues _ _, fun _ => rfl⟩

/-- `PWR WRITE, v` changes no latch (R152). -/
theorem exec_pwrWrite_continues {v : Byte} (h : exec (.pwrWrite v) s = .next t) (hr : s.env.choice.reset = false) :
    Continues (s.afterTx (.write v)) s.stat s.rdata t := by
  obtain ⟨f, rfl, hf⟩ := exec_pwrWrite_row h
  exact State.transact_keepsLatches hf hr

/-- Settles O25: the frame of the row, and by `Env.after_status_red` the sample changes nothing on the device. -/
theorem statusReadFrame : Obligations.StatusReadFrame := by
  intro s t h hr
  obtain ⟨_, _, _, _, _, rfl, hrsp⟩ := exec_prdStatus_continues h hr
  exact ⟨rfl, rfl, rfl, rfl, rfl, rfl, rfl, rfl, s.env.after_status_red,
    fun a => congrArg (Memory.read · a) (s.env.after_vr .status), hrsp⟩

/-- Settles O26: the frame of the row; the device after it is as before, or without RX_VALID (R206). -/
theorem readReadFrame : Obligations.ReadReadFrame := by
  intro s t h hr
  obtain ⟨_, ⟨_, _, _, _, rfl, hrsp⟩, hflush⟩ := exec_prdRead_continues h hr
  exact ⟨rfl, rfl, rfl, rfl, rfl, rfl, rfl, rfl, s.env.after_red .read,
    fun a => congrArg (Memory.read · a) (s.env.after_vr .read), hflush, hrsp⟩

theorem Red.effect_write_full {r : Red} (hi : r.inbox ≠ none) (v : Byte) :
    r.effect (.write v) = { r with overrun := true } := by
  obtain ⟨_, hi⟩ := Option.ne_none_iff_exists'.mp hi
  simp only [Red.effect, hi]

/-- The device after a write: untouched, or the inbox filled, or the run marked faulted (R207). -/
theorem Env.after_write_red (e : Env) (v : Byte) :
    (e.after (.write v)).red = e.begin.red ∨
      e.begin.red.inbox = none ∧ (e.after (.write v)).red = { e.begin.red with inbox := some v } ∨
      e.begin.red.inbox ≠ none ∧ (e.after (.write v)).red = { e.begin.red with overrun := true } := by
  refine (e.after_red (.write v)).imp_right fun heffect => ?_
  rw [heffect]
  by_cases hi : e.begin.red.inbox = none
  · exact .inl ⟨hi, Red.effect_write hi v⟩
  · exact .inr ⟨hi, Red.effect_write_full hi v⟩

/-- Settles O27: the frame of the row; the device takes the byte or is overrun by it, as `Env.after_write_red` says. -/
theorem writeFrame : Obligations.WriteFrame := by
  intro s t v h hr
  obtain ⟨_, _, _, _, rfl, hrsp⟩ := exec_pwrWrite_continues h hr
  exact ⟨rfl, rfl, rfl, rfl, rfl, rfl, rfl, rfl, rfl, s.env.after_write_red v,
    fun a => congrArg (Memory.read · a) (s.env.after_vr (.write v)), hrsp⟩

/-! ## Failed transactions -/

theorem Env.result_of_fail {e : Env} {took : Bool} (hfail : e.choice.reply = .fail took) (hr : e.choice.reset = false)
    (x : Tx) : e.result x = .failed := by
  simp only [Env.result, hr, hfail, Bool.false_eq_true, if_false]

/-- The environment's choice is whether a failed transaction had its effect on the device (R161). -/
theorem Env.after_red_of_fail {e : Env} {took : Bool} (hm : e.mode = .red) (hfail : e.choice.reply = .fail took) (x : Tx) :
    (e.after x).red = if took then e.begin.red.effect x else e.begin.red := by
  simp only [Env.after, hm, hfail, BusReply.took]

/-- Settles O34: the effect that `Env.after_red_of_fail` takes or leaves is that of a completed transaction. -/
theorem failedTransactionOnDevice : Obligations.FailedTransactionOnDevice := by
  intro e took hm hfail hr
  have device := Env.after_red_of_fail hm hfail
  refine ⟨Env.result_of_fail hfail hr, e.after_status_red, device .read, ?_, ?_, ?_⟩
  · rintro v rfl hi
    exact (device (.write v)).trans (Red.effect_write hi v)
  · rintro v rfl hi
    exact (device (.write v)).trans (Red.effect_write_full hi v)
  · rintro v rfl
    exact device (.write v)

/-! ## What a step hands to the bus capability -/

theorem Tx.descriptor_cases (x : Tx) :
    x.descriptor = 0x00000#17 ∨ x.descriptor = 0x00200#17 ∨ ∃ v : Byte, x.descriptor = encodeTxd true 0x01#8 v := by
  cases x with
  | status => exact .inl (by decide)
  | read => exact .inr (.inl (by decide))
  | write v => exact .inr (.inr ⟨v, rfl⟩)

/-- What happens between `s` and `t` on the bus: nothing, or outside IDLE one transaction with DEV_ADDR. -/
def BusTraffic (s t : State) : Prop :=
  t.bus = s.bus ∨ s.phase ≠ .idle ∧ ∃ x : Tx, t.bus = (s.params.devAddr, x.descriptor) :: s.bus

theorem Continues.bus {st rd : Byte} (h : Continues u st rd t) : t.bus = u.bus := by
  obtain ⟨_, _, _, _, rfl, _⟩ := h
  rfl

/-- Row by row: the rows of IDLE and the delays hand over nothing, every other row its transaction. -/
theorem act_busTraffic (h : act s = .next t) : BusTraffic s t := by
  have busy {p : Phase} (hp : s.phase = p) (hne : p ≠ .idle) : s.phase ≠ .idle := hp ▸ hne
  refine act_keeps (BusTraffic s) (haccept := fun _ _ => .inl rfl) (hhost := fun _ => .inl s.hostTurn_frame.bus)
    (hdelay := fun _ => .inl rfl) (hbad := fun x hx => ?bad) (hfirst := fun b hp _ => ?firstLook)
    (hflush := fun _ hp => .inr ⟨busy hp nofun, .read, rfl⟩) (hpoll := fun pass exit wait b hp _ => ?poll)
    (hdata := fun _ hp => .inr ⟨busy hp nofun, .read, rfl⟩) (hrsel := fun hp => .inr ⟨busy hp nofun, .write _, rfl⟩)
    (hwsel := fun hp => .inr ⟨busy hp nofun, .write _, rfl⟩) (hwdata := fun hp => .inr ⟨busy hp nofun, .write _, rfl⟩) h
  case bad =>
    have hne : s.phase ≠ .idle := by
      intro hidle
      simp [hidle, Phase.samples, Phase.reads, Phase.writes] at hx
    exact ⟨.inr ⟨hne, x, rfl⟩, .inr ⟨hne, x, rfl⟩⟩
  case firstLook => exact .inr ⟨busy hp nofun, .status, (afterFirstLook_continues b _).bus⟩
  case poll =>
    have hne : s.phase ≠ .idle := by
      intro hidle
      simp [hidle, Phase.pollRow] at hp
    exact .inr ⟨hne, .status, (afterPoll_continues pass exit wait b _).bus⟩

/-- Settles O38: `act_busTraffic`, and the reset input hands over nothing; the descriptors are the three of R96. -/
theorem busTrafficOnlyTransport : Obligations.BusTrafficOnlyTransport := by
  intro s t h
  refine (step_keeps (BusTraffic s) (.inl rfl) act_busTraffic h).imp_right ?_
  rintro ⟨hp, x, hx⟩
  exact ⟨hp, _, hx, x.descriptor_cases⟩

end Sys2Proof.Machine
end

section
/-! PROOFS. The host's sequences (42_consumer_sequences.md R165 to R183): the read-modify-write, the expansion of every
operation, what it returns, and the host's move between two commands. -/

namespace Sys2Proof.Machine

/-! ## The read-modify-write (R166) -/

@[simp] theorem lastByte_concat (got : List Byte) (b : Byte) : lastByte (got ++ [b]) = b := by
  simp [lastByte]

/-- Bit by bit a field update is a choice by the mask. -/
theorem getLsbD_fieldUpdate (old mask val : Byte) (shift : Nat) {i : Nat} (hi : i < 8) :
    (fieldUpdate old mask shift val).getLsbD i =
      if mask.getLsbD i then (val <<< shift).getLsbD i else old.getLsbD i := by
  rw [fieldUpdate, BitVec.getLsbD_or, BitVec.getLsbD_and, BitVec.getLsbD_and, BitVec.getLsbD_not, decide_eq_true hi]
  cases mask.getLsbD i <;> simp

/-- Settles O57: the byte read last is the last one in the list, and the bits are `getLsbD_fieldUpdate`. -/
theorem readModifyWriteArithmetic : Obligations.ReadModifyWriteArithmetic := by
  refine ⟨fun a mask shift val old got => ?_, fun old mask val shift i hi => getLsbD_fieldUpdate old mask val shift hi⟩
  simp only [rmw, List.map_cons, List.map_nil, HostCmd.word, lastByte_concat, fieldUpdate]

/-! ## The expansions (R167 to R179) -/

section
variable {c : Clamp} {a : VAddr} {mask : Byte} {shift : Nat} {v : Int}

theorem inField_of_inside (h0 : 0 ≤ v) (h3 : v ≤ 3) : inField v = true := by simp [inField, h0, h3]

theorem inField_of_outside (hv : v < 0 ∨ 3 < v) : inField v = false := by
  simp only [inField, Bool.and_eq_false_iff, decide_eq_false_iff_not]
  omega

theorem clampedRmw_inside (h : inField v = true) :
    clampedRmw c a mask shift v = .run (rmw a mask shift (BitVec.ofInt 8 v)) := if_pos h

theorem clampedRmw_toZero (hc : c = .toZero) (h : inField v = false) :
    clampedRmw c a mask shift v = .run (rmw a mask shift 0#8) := by simp [clampedRmw, hc, h]

theorem clampedRmw_toThree (hc : c = .toThree) (h : inField v = false) :
    clampedRmw c a mask shift v = .run (rmw a mask shift 3#8) := by simp [clampedRmw, hc, h]

theorem clampedRmw_reject (hc : c = .reject) (h : inField v = false) :
    clampedRmw c a mask shift v = .reject := by simp [clampedRmw, hc, h]

theorem domainRmw_inside (h : inField v = true) :
    domainRmw a mask shift v = .run (rmw a mask shift (BitVec.ofInt 8 v)) := if_pos h

theorem domainRmw_outside (h : inField v = false) : domainRmw a mask shift v = .outOfDomain := by
  simp [domainRmw, h]
end

theorem oneShotMode_of_some {p : Params} {m : BitVec 2} (h : p.oneShotMode = some m) :
    oneShotMode p = m.setWidth 8 := by rw [oneShotMode, h, Option.getD_some]

/-- Settles O58: the operations without a range are their rows of `plan`; a level or mode is inside 0..3 or outside, where
its policy decides. -/
theorem operationExpansions : Obligations.OperationExpansions := by
  intro p on v
  refine ⟨rfl, rfl, rfl, rfl, rfl, rfl, fun h0 h3 => ?inside, fun hv => ?outside, fun h0 h255 => if_pos ⟨h0, h255⟩,
    fun hv => if_neg (by omega), fun m hm => ?oneShot, ⟨p.oneShotMode.getD Config.oneShotMode, rfl⟩, rfl⟩
  case inside =>
    have h := inField_of_inside h0 h3
    exact ⟨domainRmw_inside h, domainRmw_inside h, clampedRmw_inside h, clampedRmw_inside h⟩
  case outside =>
    have h := inField_of_outside hv
    exact ⟨fun hc => clampedRmw_toZero hc h, fun hc => clampedRmw_toThree hc h, fun hc => clampedRmw_reject hc h,
      fun hc => clampedRmw_toZero hc h, fun hc => clampedRmw_toThree hc h, fun hc => clampedRmw_reject hc h,
      domainRmw_outside h, domainRmw_outside h⟩
  case oneShot => rw [← oneShotMode_of_some hm]; rfl

/-! ## The results (R167, R168, R176, R179 to R182) -/

/-- Appending a byte below a word multiplies the word by 256. -/
theorem toNat_append_byte {n : Nat} (x : BitVec n) (b : Byte) : (x ++ b).toNat = x.toNat * 256 + b.toNat := by
  rw [BitVec.toNat_append, ← Nat.shiftLeft_add_eq_or_of_lt b.isLt, Nat.shiftLeft_eq]

theorem toNat_singleBits (b0 b1 b2 b3 : Byte) :
    (singleBits b0 b1 b2 b3).toNat = ((b0.toNat * 256 + b1.toNat) * 256 + b2.toNat) * 256 + b3.toNat := by
  rw [singleBits, toNat_append_byte, toNat_append_byte, toNat_append_byte]

/-- The addresses of the channels' bytes fit into seven bits. -/
theorem toNat_ofNat_vaddr {n : Nat} (h : n < 128) : (BitVec.ofNat 7 n).toNat = n := Nat.mod_eq_of_lt h

/-- A list that is not four bytes and a rest has fewer than four. -/
theorem length_lt_four_of_not_cons {bs : List Byte}
    (h : ∀ b0 b1 b2 b3 rest, bs = b0 :: b1 :: b2 :: b3 :: rest → False) : bs.length < 4 :=
  match bs with
  | [] | [_] | [_, _] | [_, _, _] => by simp
  | b0 :: b1 :: b2 :: b3 :: rest => (h b0 b1 b2 b3 rest rfl).elim

theorem length_singlesOf (bs : List Byte) : (singlesOf bs).length = bs.length / 4 := by
  fun_induction singlesOf bs with
  | case1 b0 b1 b2 b3 rest ih =>
    simp only [List.length_cons, ih]
    omega
  | case2 bs hshort => exact (Nat.div_eq_of_lt (length_lt_four_of_not_cons hshort)).symm

/-- The `i`-th pattern is made of the `i`-th four bytes. -/
theorem getElem?_singlesOf {b0 b1 b2 b3 : Byte} {i : Nat} {bs : List Byte}
    (h : (bs.drop (4 * i)).take 4 = [b0, b1, b2, b3]) : (singlesOf bs)[i]? = some (singleBits b0 b1 b2 b3) := by
  fun_induction singlesOf bs generalizing i with
  | case1 c0 c1 c2 c3 rest ih =>
    cases i with
    | zero =>
      cases h
      rfl
    | succ i => exact ih h
  | case2 bs hshort =>
    have hlt := length_lt_four_of_not_cons hshort
    have hlen := congrArg List.length h
    simp only [List.length_take, List.length_drop, List.length_cons, List.length_nil] at hlen
    omega

theorem celsius_of_signed {p : Params} (h : p.tempSigned.getD Config.tempSigned = true) (b : Byte) :
    celsius p b = b.toInt := if_pos h

theorem celsius_of_unsigned {p : Params} (h : p.tempSigned.getD Config.tempSigned = false) (b : Byte) :
    celsius p b = (b.toNat : Int) := by simp [celsius, h]

/-- What `finish` gives for the temperature is `celsius` of the byte read. -/
theorem finish_temperature (p : Params) (n : Nat) (b : Byte) :
    finish p n .temperatureCelsius [b] = .celsius (celsius p b) := rfl

/-- Settles O59: the patterns by `toNat_append_byte` and `getElem?_singlesOf`, the temperature by its signedness. -/
theorem channelAssembly : Obligations.ChannelAssembly := by
  refine ⟨fun p i => ⟨_, _, rfl, ?_⟩, fun p i => ⟨_, _, _, _, rfl, ?_⟩, fun p => rfl, ?raw, ?single, ?singles, ?byte,
    fun p => ?signedness, fun p n got => ⟨Config.integrationTimeRegister n, rfl⟩, ?noValue⟩
  · exact ⟨toNat_ofNat_vaddr (by omega), toNat_ofNat_vaddr (by omega)⟩
  · exact ⟨toNat_ofNat_vaddr (by omega), toNat_ofNat_vaddr (by omega), toNat_ofNat_vaddr (by omega),
      toNat_ofNat_vaddr (by omega)⟩
  case raw => exact fun p n i hi lo => ⟨_, rfl, toNat_append_byte hi lo⟩
  case single => exact fun p n i b0 b1 b2 b3 => ⟨_, rfl, toNat_singleBits b0 b1 b2 b3⟩
  case singles =>
    intro p n bs hlen
    refine ⟨_, rfl, by rw [length_singlesOf, hlen], fun i b0 b1 b2 b3 h => ?_⟩
    exact ⟨_, getElem?_singlesOf h, toNat_singleBits b0 b1 b2 b3⟩
  case byte =>
    intro p n b
    refine ⟨rfl, fun h => ?_, fun h => ?_, ⟨_, rfl, Iff.rfl⟩⟩
    · rw [finish_temperature, celsius_of_signed (by rw [h, Option.getD_some])]
    · rw [finish_temperature, celsius_of_unsigned (by rw [h, Option.getD_some])]
  case signedness =>
    cases h : p.tempSigned.getD Config.tempSigned with
    | true => exact .inl fun n b => by rw [finish_temperature, celsius_of_signed h]
    | false => exact .inr fun n b => by rw [finish_temperature, celsius_of_unsigned h]
  case noValue =>
    intro p n got on v o ho
    simp only [List.mem_cons, List.not_mem_nil, or_false] at ho
    rcases ho with rfl | rfl | rfl | rfl | rfl | rfl | rfl | rfl | rfl <;> rfl

/-! ## The host's move between two commands (R165) -/

section
variable {s : State} {r : Running}

/-- In IDLE with nothing offered the step is the host's move. -/
theorem step_hostTurn (hp : s.phase = .idle) (hw : s.port = none) (ho : s.env.overrun = false)
    (hr : s.resetDue = false) : step s = .next s.tick.hostTurn := by
  rw [step_act ho hr]
  exact act_of_fetch_idle (State.fetch_of_idle (s := s.tick) hp hw)

theorem State.hostTurn_of_response {x : Rsp} (hrun : s.host.running = some r) (hx : s.rsp = some x) :
    s.hostTurn = s.hostTake r x := by simp only [State.hostTurn, hrun, hx]

theorem State.hostTurn_of_waiting (hrun : s.host.running = some r) (hx : s.rsp = none) : s.hostTurn = s := by
  simp only [State.hostTurn, hrun, hx]

theorem State.hostContinue_of_cons {c : HostCmd} {cs : List HostCmd} (h : r.rest = c :: cs) :
    s.hostContinue r = { s with port := some (c.word r.got), host := { s.host with running := some { r with rest := cs } } } := by
  simp only [State.hostContinue, h]

theorem State.hostContinue_of_nil (h : r.rest = []) :
    s.hostContinue r = s.hostFinish (finish s.params s.env.tx r.op r.got) := by
  simp only [State.hostContinue, h]
end

/-- Settles O60: the step is the host's move, which takes the response; a success then goes on by the commands left. -/
theorem hostSequenceOrder : Obligations.HostSequenceOrder := by
  intro s r hp hw ho hr hrun
  have waits (hx : s.rsp = none) : step s = .next s.tick := by
    rw [step_hostTurn hp hw ho hr, State.hostTurn_of_waiting (s := s.tick) hrun hx]
  have takes {x : Rsp} (hx : s.rsp = some x) : step s = .next (s.tick.hostTake r x) := by
    rw [step_hostTurn hp hw ho hr, State.hostTurn_of_response (s := s.tick) hrun hx]
  refine ⟨fun e hx => ⟨_, takes hx, hw, rfl, rfl, rfl⟩, fun b c cs hx hrest => ⟨_, takes hx, ?_⟩,
    fun c cs hx hrest => ⟨_, takes hx, ?_⟩, fun b hx hrest => ⟨_, takes hx, ?_⟩, fun hx hrest => ⟨_, takes hx, ?_⟩, waits⟩
  · rw [State.hostTake, State.hostContinue_of_cons (r := { r with got := r.got ++ [b] }) hrest]
    exact ⟨rfl, rfl, rfl, rfl⟩
  · rw [State.hostTake, State.hostContinue_of_cons hrest]
    exact ⟨rfl, rfl, rfl, rfl⟩
  · rw [State.hostTake, State.hostContinue_of_nil (r := { r with got := r.got ++ [b] }) hrest]
    exact ⟨rfl, hw, rfl, rfl⟩
  · rw [State.hostTake, State.hostContinue_of_nil hrest]
    exact ⟨rfl, hw, rfl, rfl⟩

end Sys2Proof.Machine
end

section
/-! PROOFS. The reference device (43_device_environment.md R203 to R213): `CONSUME` and `PRODUCE`, its answers, what it
stores by itself, its schedulers and its moves in IDLE, and that the controller never overruns it. -/

namespace Sys2Proof.Machine

variable {s t : State} {e : Env} {r r' : Red} {a : VAddr} {v : Byte}

/-- Settles O42: the invariant that a write finds the inbox as its sample showed it, `step_redObeyed`. -/
theorem redNeverOverrunKept : Obligations.RedNeverOverrunKept := fun _ _ => step_redObeyed

/-! ## The internal steps (R208, R209) -/

/-- With no write-select pending `CONSUME` takes the byte as a select byte. -/
theorem Red.consume_unselected (hi : r.inbox = some v) (hw : r.wpend = none) :
    r.consume = if v.getLsbD 7 then { r with wpend := some (v.extractLsb' 0 7), inbox := none, ageConsume := 0 }
      else { r with rpend := some (v.extractLsb' 0 7), inbox := none, ageConsume := 0 } := by
  simp only [Red.consume, hi, hw]

@[simp] theorem Red.produce_rpend (r : Red) : r.produce.rpend = none := by
  rcases r.produce_cases with ⟨hr, h⟩ | ⟨_, _, h⟩ <;> rw [h]
  exact hr

/-- Settles O29: nothing to take, a data byte, or a select byte of either direction. -/
theorem consumeStep : Obligations.ConsumeStep := by
  refine ⟨fun r => Red.consume_empty, fun r v a hm hi hw => ?_, fun r v hi hw => ?_⟩
  · refine ⟨r.consume_inbox, ?_, ?_, ?_, ?_, r.consume_overrun, Red.consume_read_pending hm hw hi⟩ <;>
      rw [Red.consume_data hi hw]
  · rw [Red.consume_unselected hi hw]
    cases v.getLsbD 7
    · exact ⟨rfl, rfl, rfl, rfl, rfl, nofun, fun _ => ⟨rfl, hw⟩⟩
    · exact ⟨rfl, rfl, rfl, rfl, rfl, fun _ => ⟨rfl, rfl⟩, nofun⟩

/-- Settles O30: nothing to answer, or the result of the pending read-select. -/
theorem produceStep : Obligations.ProduceStep := by
  refine ⟨fun r => Red.produce_none, fun r a hr => ?_⟩
  rw [Red.produce_result hr]
  exact ⟨rfl, rfl, rfl, rfl, rfl, rfl, rfl⟩

/-! ## The answers (R204 to R207) -/

/-- A completed transaction has its effect on the device, and answers what the device shows just before it. -/
theorem Env.done_red {x : Tx} {b : Byte} (hm : e.mode = .red) (h : e.result x = .done b) :
    b = e.begin.red.answer x ∧ (e.after x).red = e.begin.red.effect x := by
  obtain ⟨_, c, hreply, hanswer⟩ := Env.result_done h
  exact ⟨hanswer hm, by simp only [Env.after, hm, hreply, BusReply.took, if_true]⟩

/-- Settles O31: the answer is `Red.status`, and a STATUS read has no effect. -/
theorem redStatusRead : Obligations.RedStatusRead :=
  fun e hm => ⟨e.after_status_red, fun _ h => (Env.done_red hm h).1⟩

/-- Settles O32: the answer and the effect of a READ read. -/
theorem redReadRead : Obligations.RedReadRead := fun _ _ hm h => Env.done_red hm h

/-- Settles O33: the effect of a write on an empty and on a full inbox; a run marked faulted has no step. -/
theorem redWriteReaction : Obligations.RedWriteReaction := by
  refine ⟨fun e v b hm h => ?_, fun s hm ho => step_overrun ?_⟩
  · obtain ⟨_, heffect⟩ := Env.done_red hm h
    rw [heffect]
    exact ⟨fun hi => Red.effect_write hi v, fun hi => by rw [Red.effect_write_full hi]⟩
  · simp only [Env.overrun, hm, ho]

/-! ## What the device stores by itself -/

/-- What internal steps from `r` can have stored when they reach `r'`: nothing yet, the inbox and the write-select as in
`r`; or what one `CONSUME` stores, and no byte is left in the inbox. -/
def Red.StoredFrom (r r' : Red) : Prop :=
  r'.vr = r.vr ∧ r'.inbox = r.inbox ∧ r'.wpend = r.wpend ∨ r'.vr = r.consume.vr ∧ r'.inbox = none

theorem Red.StoredFrom.vr (h : Red.StoredFrom r r') : r'.vr = r.vr ∨ r'.vr = r.consume.vr :=
  h.imp And.left And.left

theorem Red.consume_vr_unselected (hw : r.wpend = none) : r.consume.vr = r.vr := by
  cases hi : r.inbox with
  | none => rw [Red.consume_empty hi]
  | some v =>
    rw [Red.consume_unselected hi hw]
    split <;> rfl

/-- What `CONSUME` stores depends on the memory, the inbox and the pending write-select alone. -/
theorem Red.consume_vr_congr (hvr : r'.vr = r.vr) (hi : r'.inbox = r.inbox) (hw : r'.wpend = r.wpend) :
    r'.consume.vr = r.consume.vr := by
  cases hi' : r.inbox with
  | none => rw [Red.consume_empty (hi.trans hi'), Red.consume_empty hi', hvr]
  | some v =>
    cases hw' : r.wpend with
    | none => rw [Red.consume_vr_unselected (hw.trans hw'), Red.consume_vr_unselected hw', hvr]
    | some a => rw [Red.consume_data (hi.trans hi') (hw.trans hw'), Red.consume_data hi' hw', hvr]

theorem Red.StoredFrom.consume (h : Red.StoredFrom r r') : Red.StoredFrom r r'.consume := by
  rcases h with ⟨hvr, hi, hw⟩ | ⟨hvr, hi⟩
  · exact .inr ⟨Red.consume_vr_congr hvr hi hw, r'.consume_inbox⟩
  · rw [Red.consume_empty hi]
    exact .inr ⟨hvr, hi⟩

theorem Red.StoredFrom.produce (h : Red.StoredFrom r r') : Red.StoredFrom r r'.produce := by
  simpa [Red.StoredFrom] using h

theorem Red.StoredFrom.fireAll (ds : List DevStep) (h : Red.StoredFrom r r') :
    Red.StoredFrom r (Red.fireAll ds r') := by
  induction ds generalizing r' with
  | nil => exact h
  | cons d ds ih =>
    cases d with
    | consume => exact ih h.consume
    | produce => exact ih h.produce

/-- Before a transaction the virtual registers stay, or `CONSUME` has stored (R208, R209). -/
theorem Env.begin_vr (e : Env) : e.begin.red.vr = e.red.vr ∨ e.begin.red.vr = e.red.consume.vr := by
  have still : Red.StoredFrom e.red e.red := .inl ⟨rfl, rfl, rfl⟩
  unfold Env.begin Env.redBefore
  cases e.mode
  · exact .inl rfl
  · dsimp only
    split
    · exact (still.fireAll _).vr
    · exact (Red.boundary_keeps (I := Red.StoredFrom e.red) (fun _ => .consume) (fun _ => .produce)
        (fun _ _ _ h => h) e.lazyK still).vr

/-- The same of the device's move in IDLE. -/
theorem Env.drain_vr (e : Env) : e.drain.red.vr = e.red.vr ∨ e.drain.red.vr = e.red.consume.vr := by
  rcases e.drain_red with h | ⟨_, h⟩
  · exact .inl (congrArg Red.vr h)
  · rw [h]
    rcases e.redIdle_cases with h | h | h <;> rw [h]
    · exact .inl rfl
    · exact .inr rfl
    · exact .inl e.red.produce_vr

/-- In whatever phase, a step stores to the virtual registers what `CONSUME` stores, or nothing. -/
theorem step_vr (h : step s = .next t) : t.env.red.vr = s.env.red.vr ∨ t.env.red.vr = s.env.red.consume.vr := by
  rcases step_env h with henv | henv | ⟨x, henv⟩ <;> rw [henv]
  · exact .inl rfl
  · exact s.env.drain_vr
  · rw [Env.after_vr]
    exact s.env.begin_vr

/-- An address that no pending write-select with a waiting data byte names reads as before. -/
theorem Red.read_of_vr {m : Memory} {c : Nat} (h : m = r.vr ∨ m = r.consume.vr)
    (hc : ∀ p, r.wpend = some p → r.inbox ≠ none → c ≠ p.toNat) : Memory.read m c = Memory.read r.vr c := by
  rcases h with rfl | rfl
  · rfl
  · exact Red.consume_read hc

/-- A waiting data byte is stored at its write-select's address by `CONSUME`. -/
theorem Red.consume_read_selected (hm : Memory.wf r.vr = true) (hw : r.wpend = some a) (hi : r.inbox = some v) :
    Memory.read r.consume.vr a.toNat = v := by
  rw [Red.consume_read_pending hm hw hi, if_pos rfl]

/-- Where a data byte waits for its write-select, that register keeps its byte or takes the waiting one. -/
theorem Red.read_pending_of_vr {m : Memory} (h : m = r.vr ∨ m = r.consume.vr) (hm : Memory.wf r.vr = true)
    (hw : r.wpend = some a) (hi : r.inbox = some v) :
    Memory.read m a.toNat = Memory.read r.vr a.toNat ∨ Memory.read m a.toNat = v := by
  rcases h with rfl | rfl
  · exact .inl rfl
  · exact .inr (Red.consume_read_selected hm hw hi)

/-! ## The device's move in IDLE (R210) -/

theorem Env.drain_of_oracle (hm : e.mode = .oracle) : e.drain = e := by
  simp only [Env.drain, hm]

theorem Env.drain_of_red (hm : e.mode = .red) : e.drain = { e with idle := e.idle.tail, red := e.redIdle } := by
  simp only [Env.drain, hm]

theorem Env.drain_fire {d : DevStep} {ds : List (Option DevStep)} (hm : e.mode = .red) (hidle : e.idle = some d :: ds) :
    e.drain = { e with idle := ds, red := e.red.fire d } := by
  rw [Env.drain_of_red hm]
  simp only [Env.redIdle, hidle, List.tail_cons]

theorem Env.drain_rest {ds : List (Option DevStep)} (hm : e.mode = .red) (hidle : e.idle = none :: ds) :
    e.drain = { e with idle := ds } := by
  rw [Env.drain_of_red hm]
  simp only [Env.redIdle, hidle, List.tail_cons]

theorem Env.drain_unordered (hm : e.mode = .red) (hidle : e.idle = []) : e.drain = { e with red := e.red.drain } := by
  rw [Env.drain_of_red hm]
  simp only [Env.redIdle, hidle, List.tail_nil]

theorem Env.drain_drain_fire {d d' : DevStep} {ds : List (Option DevStep)} (hm : e.mode = .red)
    (hidle : e.idle = some d :: some d' :: ds) : e.drain.drain.red = (e.red.fire d).fire d' := by
  have next : e.drain.idle = some d' :: ds := by rw [Env.drain_fire hm hidle]
  rw [Env.drain_fire (e.drain_mode.trans hm) next, Env.drain_fire hm hidle]

theorem Env.drain_drain_unordered (hm : e.mode = .red) (hidle : e.idle = []) :
    e.drain.drain.red = e.red.drain.drain := by
  have next : e.drain.idle = [] := by rw [Env.drain_unordered hm hidle, hidle]
  rw [Env.drain_unordered (e.drain_mode.trans hm) next, Env.drain_unordered hm hidle]

theorem Red.drain_full (hi : r.inbox ≠ none) : r.drain = r.consume := by
  rw [Red.drain, if_pos (Option.isSome_iff_ne_none.mpr hi)]

theorem Red.drain_empty (hi : r.inbox = none) : r.drain = r.produce := by
  rw [Red.drain, hi, if_neg nofun]

/-- With a byte in the inbox `CONSUME` is the move where it is named, and where nothing is. -/
theorem Env.drain_consumes (hm : e.mode = .red) (hidle : e.idle = [] ∨ e.idle.head? = some (some .consume))
    (hi : e.red.inbox ≠ none) : e.drain.red = e.red.consume := by
  rcases hidle with hidle | hidle
  · rw [Env.drain_unordered hm hidle]
    exact Red.drain_full hi
  · obtain ⟨ds, hds⟩ := List.head?_eq_some_iff.mp hidle
    rw [Env.drain_fire hm hds]
    rfl

theorem Env.drain_red_quiescent (h : e.red.quiescent = true) : e.drain.red = e.red := by
  rcases e.drain_red with hd | ⟨_, hd⟩
  · exact hd
  · rw [hd, Env.redIdle_quiescent h]

theorem Env.drain_quiescent (h : e.red.quiescent = true) (hidle : e.idle = []) : e.drain = e := by
  cases hm : e.mode
  · exact Env.drain_of_oracle hm
  · rw [Env.drain_unordered hm hidle, Red.drain_quiescent h]

/-- Settles O28: the device's own steps store what one `CONSUME` stores, or nothing, and a step stores no more. -/
theorem boundaryStoresOnlyPendingWrite : Obligations.BoundaryStoresOnlyPendingWrite := by
  refine ⟨fun e c hc => ?_, fun e p v hwf hw hi => ?_, fun e => ?_, fun s t c _ h hc => ?_⟩
  · exact ⟨Red.read_of_vr e.begin_vr hc, Red.read_of_vr e.drain_vr hc⟩
  · refine ⟨Red.read_pending_of_vr e.begin_vr hwf hw hi, Red.read_pending_of_vr e.drain_vr hwf hw hi,
      fun hm hidle => ?_⟩
    rw [Env.drain_consumes hm hidle (by rw [hi]; nofun), Red.consume_read_selected hwf hw hi]
  · exact ⟨e.drain_mode, e.drain_script, e.drain_tx, e.drain_lazyK, e.drain_quiet.overrun, Env.drain_of_oracle,
      fun h => ⟨Env.drain_red_quiescent h, Env.drain_quiescent h⟩⟩
  · exact Red.read_of_vr (step_vr h) hc

/-! ## The schedulers (R210) -/

theorem Red.schedConsume_eager (r : Red) : r.schedConsume 0 = r.consume := by
  unfold Red.schedConsume
  split
  · exact if_pos (Nat.zero_le _)
  · next hi => rw [Red.consume_empty (by simpa using hi)]

theorem Red.schedProduce_eager (r : Red) : r.schedProduce 0 = r.produce := by
  unfold Red.schedProduce
  split
  · exact if_pos (Nat.zero_le _)
  · next hr => rw [Red.produce_none (by simpa using hr)]

/-- `PRODUCE` with an empty inbox leaves no step enabled. -/
theorem Red.produce_quiescent (hi : r.inbox = none) : r.produce.quiescent = true :=
  r.produce.quiescent_iff.mpr ⟨by rw [r.produce_inbox, hi], r.produce_rpend⟩

theorem Red.boundary_eager_quiescent (r : Red) : (r.boundary 0).quiescent = true := by
  rw [Red.boundary, Red.schedConsume_eager, Red.schedProduce_eager]
  exact Red.produce_quiescent r.consume_inbox

/-- A boundary before `CONSUME` is due lets the byte wait and counts. -/
theorem Red.boundary_waits {k : Nat} (hi : r.inbox ≠ none) (hk : r.ageConsume < k) :
    (r.boundary k).inbox = r.inbox ∧ (r.boundary k).ageConsume = r.ageConsume + 1 := by
  obtain ⟨hinbox, hage⟩ := Red.boundary_inbox k r
  have sched : r.schedConsume k = { r with ageConsume := r.ageConsume + 1 } := by
    rw [Red.schedConsume, if_pos (Option.isSome_iff_ne_none.mpr hi), if_neg (Nat.not_le.mpr hk)]
  rw [hinbox, hage, sched]
  exact ⟨rfl, rfl⟩

/-- A boundary at which `CONSUME` is due empties the inbox. -/
theorem Red.boundary_due {k : Nat} (hi : r.inbox ≠ none) (hk : k ≤ r.ageConsume) : (r.boundary k).inbox = none := by
  rw [(Red.boundary_inbox k r).1, Red.schedConsume, if_pos (Option.isSome_iff_ne_none.mpr hi), if_pos hk]
  exact r.consume_inbox

/-- A byte that has just entered the inbox waits as many boundaries as have passed, up to `k`. -/
theorem Red.iterate_boundary_waits {k j : Nat} (hi : r.inbox ≠ none) (hage : r.ageConsume = 0) (hj : j ≤ k) :
    ((Red.boundary k)^[j] r).inbox = r.inbox ∧ ((Red.boundary k)^[j] r).ageConsume = j := by
  induction j with
  | zero => exact ⟨rfl, hage⟩
  | succ j ih =>
    obtain ⟨hinbox, hcount⟩ := ih (Nat.le_of_succ_le hj)
    obtain ⟨hinbox', hcount'⟩ := Red.boundary_waits (hinbox ▸ hi) (hcount.trans_lt hj)
    rw [Function.iterate_succ_apply']
    exact ⟨hinbox'.trans hinbox, by rw [hcount', hcount]⟩

theorem Red.iterate_boundary_due {k : Nat} (hi : r.inbox ≠ none) (hage : r.ageConsume = 0) :
    ((Red.boundary k)^[k + 1] r).inbox = none := by
  obtain ⟨hinbox, hcount⟩ := Red.iterate_boundary_waits hi hage (Nat.le_refl k)
  rw [Function.iterate_succ_apply']
  exact Red.boundary_due (hinbox ▸ hi) hcount.ge

/-- Two moves with `CONSUME` first leave no step enabled. -/
theorem Red.drain_drain_quiescent (r : Red) : r.drain.drain.quiescent = true := by
  by_cases hi : r.inbox = none
  · rw [Red.drain_empty hi, Red.drain_quiescent (Red.produce_quiescent hi)]
    exact Red.produce_quiescent hi
  · rw [Red.drain_full hi, Red.drain_empty r.consume_inbox]
    exact Red.produce_quiescent r.consume_inbox

/-! ## Both steps enabled for one register (R210) -/

section
variable (hm : Memory.wf r.vr = true) (hi : r.inbox = some v) (hw : r.wpend = some a) (hr : r.rpend = some a)
include hm hi hw hr

/-- `PRODUCE` first takes the old value. -/
theorem Red.produce_consume :
    r.produce.consume.rbuf = Memory.read r.vr a.toNat ∧ Memory.read r.produce.consume.vr a.toNat = v ∧
      r.produce.consume.quiescent = true := by
  have stored : r.produce.consume = { r.produce with
      vr := Memory.write r.vr a.toNat v, wpend := none, inbox := none, ageConsume := 0 } := by
    rw [Red.consume_data (r.produce_inbox.trans hi) (r.produce_wpend.trans hw), Red.produce_vr]
  rw [Red.quiescent_iff, stored, Red.produce_result hr]
  exact ⟨rfl, by rw [Memory.read_write_wf hm, if_pos rfl], rfl, rfl⟩

/-- `CONSUME` first makes it the new one. -/
theorem Red.consume_produce :
    r.consume.produce.rbuf = v ∧ Memory.read r.consume.produce.vr a.toNat = v ∧
      r.consume.produce.quiescent = true := by
  have pending : r.consume.rpend = some a := by rw [Red.consume_data hi hw, hr]
  have stored := Red.consume_read_selected hm hw hi
  refine ⟨?_, by rw [Red.produce_vr, stored], Red.produce_quiescent r.consume_inbox⟩
  rw [Red.produce_result pending]
  exact stored

end

/-- Settles O35: the eager boundary, the wait under lazy-k, and the moves in IDLE: one, two in either order, two with no
order given; with nothing for the host to do the step is such a move. -/
theorem schedulersFire : Obligations.SchedulersFire := by
  refine ⟨Red.boundary_eager_quiescent, fun k j r hi hage hj => ?_, fun e d ds hm => ?_,
    fun e a v ds hm hwf hi hw hr => ?_, fun e hm hidle => ?_, fun s hp hport ho hreset hrun htodo => ?_⟩
  · exact ⟨(Red.iterate_boundary_waits hi hage hj).1, Red.iterate_boundary_due hi hage⟩
  · exact ⟨Env.drain_fire hm, Env.drain_rest hm⟩
  · constructor
    · intro hidle
      rw [Env.drain_drain_fire hm hidle]
      exact Red.produce_consume hwf hi hw hr
    · intro hidle
      rw [Env.drain_drain_fire hm hidle]
      exact Red.consume_produce hwf hi hw hr
  · rw [Env.drain_drain_unordered hm hidle]
    exact e.red.drain_drain_quiescent
  · rw [step_hostTurn hp hport ho hreset]
    simp only [State.hostTurn, State.tick_host, State.tick_env, hrun, htodo]

end Sys2Proof.Machine
end

section
/-! PROOFS. The two exceptions (60_exceptions.md R221 to R227): a failed transaction and the last poll allowed abort the
command, the order of a poll's checks, and TIMEOUT needs a limit. -/

namespace Sys2Proof.Machine

variable {s t : State}

/-! ## A failed transaction (R225) -/

/-- A transaction that fails records `FAIL` and takes the exception BUS_ERROR. -/
theorem State.transact_failed {x : Tx} (f : Byte → State → State) (h : s.env.result x = .failed) :
    s.transact x f = ((s.afterTx x).emit (.fail x.kind)).abort .busError := by
  simp only [State.transact, h]

/-- Settles O20: in its phases each micro-operation is a transaction, and `State.transact_failed` says how that fails. -/
theorem failureAborts : Obligations.FailureAborts := by
  refine fun s => ⟨fun hp hfail => ?_, fun hp hfail => ?_, fun hp v hfail => ?_⟩
  · obtain ⟨f, row⟩ := exec_prdStatus_samples hp
    rw [row, State.transact_failed f hfail]
    rfl
  · obtain ⟨f, row⟩ := exec_prdRead_reads hp
    rw [row, State.transact_failed f hfail]
    rfl
  · obtain ⟨f, row⟩ := exec_pwrWrite_writes v hp
    rw [row, State.transact_failed f hfail]
    rfl

/-! ## The three outcomes of a poll (R124, R226, R227) -/

theorem limitReached_of_le {limit : Option Nat} {n k : Nat} (hn : limit = some n) (hk : n ≤ k) :
    limitReached limit k = true := by
  subst hn
  exact decide_eq_true hk

section
variable {pass : Byte → Bool} {exit wait : Phase} {b : Byte}

theorem txClear_eq_true (hb : b.getLsbD 1 = false) : txClear b = true := by
  simp only [txClear, txValid, hb, Bool.not_false]

theorem txClear_eq_false (hb : b.getLsbD 1 = true) : txClear b = false := by
  simp only [txClear, txValid, hb, Bool.not_true]

theorem State.afterPoll_of_pass {u : State} (hpass : pass b = true) :
    u.afterPoll pass exit wait b = { u with stat := b, polls := u.polls + 1, phase := exit } := by
  simp only [State.afterPoll, hpass, if_true, State.goto]

theorem State.afterPoll_of_limit {u : State} (hpass : pass b = false)
    (hlimit : limitReached u.params.pollLimit (u.polls + 1) = true) :
    u.afterPoll pass exit wait b = { u with stat := b, polls := u.polls + 1 }.abort .timeout := by
  simp only [State.afterPoll, hpass, hlimit, Bool.false_eq_true, if_false, if_true]

theorem State.afterPoll_of_again {u : State} (hpass : pass b = false)
    (hlimit : limitReached u.params.pollLimit (u.polls + 1) = false) :
    u.afterPoll pass exit wait b = { u with stat := b, polls := u.polls + 1, phase := wait } := by
  simp only [State.afterPoll, hpass, hlimit, Bool.false_eq_true, if_false, State.goto]

/-- A poll that completes goes on with the checks on its sample. -/
theorem exec_prdStatus_sampled (hrow : s.phase.pollRow = some (pass, exit, wait)) (hb : s.env.result .status = .done b) :
    exec .prdStatus s = .next (((s.afterTx .status).emit (.rs b)).afterPoll pass exit wait b) := by
  rw [exec_prdStatus_poll hrow, State.transact_done _ hb, Tx.event_status]

/-- The last poll allowed, failing its test, takes the exception TIMEOUT (R226). -/
theorem exec_prdStatus_timeout {n : Nat} (hrow : s.phase.pollRow = some (pass, exit, wait))
    (hb : s.env.result .status = .done b) (hpass : pass b = false) (hn : s.params.pollLimit = some n)
    (hk : n ≤ s.polls + 1) :
    exec .prdStatus s = .next { s.afterTx .status with
      stat := b, polls := s.polls + 1, rsp := some (.err .timeout), phase := .idle
      trace := .rsp (.err .timeout) :: .rs b :: s.trace } := by
  rw [exec_prdStatus_sampled hrow hb, State.afterPoll_of_limit hpass]
  · rfl
  · exact limitReached_of_le hn hk

end

/-- Settles O21: a sample that fails the test of its phase's row, at the limit, by `exec_prdStatus_timeout`. -/
theorem timeoutAborts : Obligations.TimeoutAborts := by
  intro s b n hrow hb hn hk
  have failing : ∃ pass exit wait, s.phase.pollRow = some (pass, exit, wait) ∧ pass b = false := by
    rcases hrow with ⟨hp, hbit⟩ | ⟨hp, hbit⟩ | ⟨hp, hbit⟩ | ⟨hp, hbit⟩ <;> rw [hp] <;> refine ⟨_, _, _, rfl, ?_⟩
    · exact txClear_eq_false hbit
    · exact hbit
    · exact txClear_eq_false hbit
    · exact txClear_eq_false hbit
  obtain ⟨pass, exit, wait, hp, hpass⟩ := failing
  exact exec_prdStatus_timeout hp hb hpass hn hk

/-- Settles O22: the failure before there is a sample, then the three outcomes of `State.afterPoll`. -/
theorem pollCheckOrder : Obligations.PollCheckOrder := by
  intro s pass exit wait hrow
  refine ⟨fun hfail => ?_, fun b hb hpass => ?_, fun b n hb hpass hn hk => ?_, fun b hb hpass hk => ?_⟩
  · rw [exec_prdStatus_poll hrow, State.transact_failed _ hfail]
    exact ⟨_, rfl, rfl⟩
  · rw [exec_prdStatus_sampled hrow hb, State.afterPoll_of_pass hpass]
    exact ⟨_, rfl, rfl, rfl⟩
  · exact ⟨_, exec_prdStatus_timeout hrow hb hpass hn hk, rfl, rfl⟩
  · rw [exec_prdStatus_sampled hrow hb, State.afterPoll_of_again hpass]
    · exact ⟨_, rfl, rfl, rfl⟩
    · exact limitReached_eq_false hk

/-! ## TIMEOUT needs a limit (R222) -/

/-- How many responses of a list of events report TIMEOUT. -/
def timeouts (evs : List Event) : Nat := evs.count (.rsp (.err .timeout))

theorem timeouts_cons {e : Event} (he : e ≠ .rsp (.err .timeout)) (evs : List Event) :
    timeouts (e :: evs) = timeouts evs :=
  List.count_cons_of_ne he

/-- Row by row: only a poll at its limit reports TIMEOUT, and without a limit there is none. -/
theorem act_timeouts (hlimit : s.params.pollLimit = none) (h : act s = .next t) :
    timeouts t.trace = timeouts s.trace := by
  have one {e : Event} (he : e ≠ .rsp (.err .timeout)) : timeouts (e :: s.trace) = timeouts s.trace := timeouts_cons he _
  have two {e e' : Event} (he : e ≠ .rsp (.err .timeout)) (he' : e' ≠ .rsp (.err .timeout)) :
      timeouts (e :: e' :: s.trace) = timeouts s.trace := (timeouts_cons he _).trans (one he')
  refine act_keeps (fun t => timeouts t.trace = timeouts s.trace) (haccept := fun _ _ => one nofun)
    (hhost := fun _ => congrArg timeouts s.hostTurn_frame.trace) (hdelay := fun _ => one nofun)
    (hbad := fun _ _ => ⟨two nofun nofun, rfl⟩) (hfirst := fun b _ _ => ?firstLook) (hflush := fun _ _ => one nofun)
    (hpoll := fun pass exit wait b _ _ => ?poll) (hdata := fun _ _ => two nofun nofun) (hrsel := fun _ => one nofun)
    (hwsel := fun _ => one nofun) (hwdata := fun _ => two nofun nofun) h
  case firstLook =>
    obtain ⟨_, _, htrace, _⟩ := State.afterFirstLook_fields b ((s.afterTx .status).emit (.rs b))
    rw [htrace]
    exact one nofun
  case poll =>
    rcases State.afterPoll_cases pass exit wait b ((s.afterTx .status).emit (.rs b)) with
      ⟨_, hf⟩ | ⟨_, hl, _⟩ | ⟨_, _, hf⟩
    · rw [hf]
      exact one nofun
    · have hnone : limitReached s.params.pollLimit (s.polls + 1) = true := hl
      rw [hlimit] at hnone
      cases hnone
    · rw [hf]
      exact one nofun

/-- Settles O47: `act_timeouts`, and the reset input records no event. -/
theorem timeoutNeedsLimit : Obligations.TimeoutNeedsLimit := fun s _ hlimit h =>
  step_keeps (fun t => timeouts t.trace = timeouts s.trace) rfl (act_timeouts (s := s.tick) hlimit) h

end Sys2Proof.Machine
end

section
/-! PROOFS. Without a poll limit a loop whose flag never shows goes on for ever (60_exceptions.md R224;
40_transport_commands.md R139): the rows before an oracle that answers as listed, then the loops. -/

namespace Sys2Proof.Machine

variable {s : State} {p : Phase} {b : Byte} {bytes : List Byte} {more : List Choice} {n : Nat}

/-- A command in progress in phase `p` that has no limit and no response, before an oracle that completes its transactions
with `bytes` and then has `more`. -/
structure Unlimited (p : Phase) (bytes : List Byte) (more : List Choice) (s : State) : Prop where
  phase : s.phase = p
  busy : p ≠ .idle
  oracle : s.env.mode = .oracle
  ahead : noResetAhead s = true
  limit : s.params.pollLimit = none
  rsp : s.rsp = none
  script : s.env.script = answering bytes ++ more

/-- One step on the machine is in phase `p`, with the answers `bytes` left. -/
def StepsTo (s : State) (p : Phase) (bytes : List Byte) (more : List Choice) : Prop :=
  ∃ t, step s = .next t ∧ Unlimited p bytes more t

theorem StepsTo.stillPolling {q : Phase} (h : StepsTo s p bytes more)
    (rest : ∀ t, Unlimited p bytes more t → stillPolling n t q) : stillPolling (n + 1) s q := by
  obtain ⟨t, hstep, ht⟩ := h
  exact stillPolling_step hstep (ht.phase ▸ ht.busy) (rest t ht)

/-! ## The rows -/

/-- The state in which the next transaction, answered with `b`, leaves the sequencer to go on. -/
def State.answered (x : Tx) (b : Byte) (s : State) : State := (s.tick.afterTx x).emit (x.event b)

theorem Unlimited.step_row {t : State} (h : Unlimited p bytes more s) (row : StepCase s.tick t) : step s = .next t := by
  rw [step_act (overrun_oracle h.oracle) (resetDue_of_noResetAhead h.ahead), row.act_eq]

/-- A transaction takes the next answer and goes on in the phase that its continuation chooses. -/
theorem Unlimited.transact {x : Tx} {f : Byte → State → State} {q : Phase} {st rd : Byte}
    (h : Unlimited p (b :: bytes) more s) (row : StepCase s.tick (s.tick.transact x f))
    (hf : Continues (s.answered x b) st rd (f b (s.answered x b))) (hq : (f b (s.answered x b)).phase = q)
    (hbusy : q ≠ .idle) : StepsTo s q bytes more := by
  have hres : s.env.result x = .done b := (Env.result_script h.script rfl h.oracle x).1 b rfl
  rw [State.transact_done (s := s.tick) f hres] at row
  have hstep : step s = .next (f b (s.answered x b)) := h.step_row row
  obtain ⟨q', k, y, tr, ht, hrsp⟩ := hf
  have henv : (f b (s.answered x b)).env = s.env.after x := by rw [ht]; rfl
  refine ⟨_, hstep, hq, hbusy, ?_, noResetAhead_step h.ahead hstep, (step_params hstep).symm ▸ h.limit, ?_, ?_⟩
  · rw [henv, Env.after_mode, h.oracle]
  · rw [ht] at hq ⊢
    exact (hrsp (ne_of_eq_of_ne hq hbusy)).trans h.rsp
  · rw [henv, Env.after_script, h.script]
    rfl

theorem Unlimited.delay (h : Unlimited p bytes more s) (hp : p.waits = true) (hbusy : afterWait p ≠ .idle) :
    StepsTo s (afterWait p) bytes more := by
  have hstep := h.step_row (.delay (s := s.tick) (h.phase.symm ▸ hp))
  exact ⟨_, hstep, congrArg afterWait h.phase, hbusy, h.oracle, noResetAhead_step h.ahead hstep, h.limit, h.rsp,
    h.script⟩

section
variable {pass : Byte → Bool} {exit wait : Phase}

theorem Unlimited.poll_pass (h : Unlimited p (b :: bytes) more s) (hp : p.pollRow = some (pass, exit, wait))
    (hpass : pass b = true) : StepsTo s exit bytes more :=
  h.transact (.poll (s := s.tick) pass exit wait (h.phase.symm ▸ hp)) (afterPoll_continues pass exit wait b _)
    (congrArg State.phase (State.afterPoll_of_pass hpass)) (Phase.busy_of_pollRow hp).2.1

theorem Unlimited.poll_again (h : Unlimited p (b :: bytes) more s) (hp : p.pollRow = some (pass, exit, wait))
    (hpass : pass b = false) : StepsTo s wait bytes more := by
  have hlimit : limitReached (s.answered .status b).params.pollLimit ((s.answered .status b).polls + 1) = false :=
    limitReached_eq_false fun _ hn => absurd (h.limit.symm.trans hn) nofun
  exact h.transact (.poll (s := s.tick) pass exit wait (h.phase.symm ▸ hp)) (afterPoll_continues pass exit wait b _)
    (congrArg State.phase (State.afterPoll_of_again hpass hlimit)) (Phase.busy_of_pollRow hp).2.2

end

theorem Unlimited.firstLook (h : Unlimited .r1Stat (b :: bytes) more s) :
    StepsTo s (if rxValid b then .r1Flush else .r2Poll) bytes more := by
  obtain ⟨_, _, _, _, hphase, _⟩ := State.afterFirstLook_fields b (s.answered .status b)
  exact h.transact (.firstLook (s := s.tick) h.phase) (afterFirstLook_continues b _) hphase (by split <;> nofun)

theorem Unlimited.flush (h : Unlimited .r1Flush (b :: bytes) more s) : StepsTo s .r2Poll bytes more :=
  h.transact (.flush (s := s.tick) h.phase) (enterLoop_continues .r2Poll _) rfl nofun

theorem Unlimited.readSelect (h : Unlimited .r3Sel (b :: bytes) more s) : StepsTo s .r4Poll bytes more :=
  h.transact (.readSelect (s := s.tick) h.phase) (enterLoop_continues .r4Poll _) rfl nofun

theorem Unlimited.writeSelect (h : Unlimited .w2Sel (b :: bytes) more s) : StepsTo s .w3Poll bytes more :=
  h.transact (.writeSelect (s := s.tick) h.phase) (enterLoop_continues .w3Poll _) rfl nofun

/-- Acceptance begins a command at its first phase, the response port empty (log 14). -/
theorem stepsTo_accept {write : Bool} {a : VAddr} {d : Byte} (hp : s.phase = .idle) (ha : noResetAhead s = true)
    (hm : s.env.mode = .oracle) (hl : s.params.pollLimit = none) (hw : s.port = some (encodeCmd write a d))
    (hs : s.env.script = answering bytes) : StepsTo s (firstPhase write) bytes [] := by
  have hstep := step_accept hp hw (overrun_oracle hm) (resetDue_of_noResetAhead ha)
  exact ⟨_, hstep, congrArg firstPhase (cmdDir_encodeCmd write a d), firstPhase_ne_idle write, hm,
    noResetAhead_step ha hstep, hl, rfl, hs.trans (List.append_nil _).symm⟩

/-! ## The loops -/

/-- Each sample that fails its test leads through one delay back to the poll. -/
theorem Unlimited.stillPolling_loop {pass : Byte → Bool} {exit wait : Phase} (h : Unlimited p bytes more s)
    (hp : p.pollRow = some (pass, exit, wait)) (hfail : ∀ b ∈ bytes, pass b = false) :
    stillPolling (2 * bytes.length) s p := by
  induction bytes generalizing s with
  | nil => exact stillPolling_zero h.phase h.rsp
  | cons b bytes ih =>
    obtain ⟨hwait, hback⟩ := Phase.afterWait_of_pollRow hp
    refine (h.poll_again hp (hfail b List.mem_cons_self)).stillPolling fun t ht => ?_
    refine (ht.delay hwait (hback ▸ h.busy)).stillPolling fun u hu => ?_
    exact ih (hback ▸ hu) fun c hc => hfail c (List.mem_cons_of_mem b hc)

/-- Step 1 of a read, with its flush where RX_VALID shows, comes to step 2. -/
theorem stillPolling_read {first x : Byte} {q : Phase}
    (rest : ∀ t, Unlimited .r2Poll bytes more t → stillPolling n t q) :
    (first.getLsbD 0 = false → StepsTo s .r1Stat (first :: bytes) more → stillPolling (n + 2) s q) ∧
    (first.getLsbD 0 = true → StepsTo s .r1Stat (first :: x :: bytes) more → stillPolling (n + 3) s q) := by
  refine ⟨fun hrx h => h.stillPolling fun t ht => ?_, fun hrx h => h.stillPolling fun t ht => ?_⟩
  · have look := ht.firstLook
    rw [show rxValid first = false from hrx] at look
    exact look.stillPolling rest
  · have look := ht.firstLook
    rw [show rxValid first = true from hrx] at look
    exact look.stillPolling fun _ hu => hu.flush.stillPolling rest

/-- A first loop that ends at once, and its select, come to the second loop of a read. -/
theorem Unlimited.stillPolling_result {c y : Byte} (h : Unlimited .r2Poll (c :: y :: bytes) more s)
    (hc : c.getLsbD 1 = false) (hfail : ∀ b ∈ bytes, b.getLsbD 0 = false) :
    stillPolling (2 * bytes.length + 2) s .r4Poll :=
  (h.poll_pass rfl (txClear_eq_true hc)).stillPolling fun _ ht =>
    ht.readSelect.stillPolling fun _ hu => hu.stillPolling_loop rfl hfail

/-- The same of a write. -/
theorem Unlimited.stillPolling_data {c y : Byte} (h : Unlimited .w1Poll (c :: y :: bytes) more s)
    (hc : c.getLsbD 1 = false) (hfail : ∀ b ∈ bytes, b.getLsbD 1 = true) :
    stillPolling (2 * bytes.length + 2) s .w3Poll :=
  (h.poll_pass rfl (txClear_eq_true hc)).stillPolling fun _ ht =>
    ht.writeSelect.stillPolling fun _ hu => hu.stillPolling_loop rfl fun b hb => txClear_eq_false (hfail b hb)

/-- Settles O54: from the phase by `Unlimited.stillPolling_loop`, from the offered word by the rows that lead there. -/
theorem noLimitPollsForever : Obligations.NoLimitPollsForever := by
  constructor
  · intro s pass exit wait bytes more hrow ha hm hl hr hfail hs
    have busy : s.phase ≠ .idle := by
      intro hidle
      rw [hidle] at hrow
      cases hrow
    exact Unlimited.stillPolling_loop ⟨rfl, busy, hm, ha, hl, hr, hs⟩ hrow hfail
  · intro s a d first x c y bytes hp ha hm hl hc
    have steps {write : Bool} {l : List Byte} (hw : s.port = some (encodeCmd write a d))
        (hs : s.env.script = answering l) : StepsTo s (firstPhase write) l [] := stepsTo_accept hp ha hm hl hw hs
    have read {l : List Byte} {n : Nat} {q : Phase} (hw : s.port = some (encodeCmd false a d))
        (rest : ∀ t, Unlimited .r2Poll l [] t → stillPolling n t q) :
        (first.getLsbD 0 = false → s.env.script = answering ([first] ++ l) → stillPolling (n + 2) s q) ∧
        (first.getLsbD 0 = true → s.env.script = answering ([first, x] ++ l) → stillPolling (n + 3) s q) := by
      obtain ⟨unflushed, flushed⟩ := stillPolling_read (s := s) (first := first) (x := x) rest
      exact ⟨fun hrx hs => unflushed hrx (steps hw hs), fun hrx hs => flushed hrx (steps hw hs)⟩
    refine ⟨fun hw hfail => ⟨fun hs => ?_, fun hs => ?_⟩, fun hw hfail => ?_, fun hw hfail => ?_⟩
    · rw [Nat.add_comm]
      exact (steps hw hs).stillPolling fun t ht => ht.stillPolling_loop rfl fun b hb => txClear_eq_false (hfail b hb)
    · rw [Nat.add_comm]
      exact (steps hw hs).stillPolling fun t ht => ht.stillPolling_data hc hfail
    · rw [Nat.add_comm 2, Nat.add_comm 3]
      exact read hw fun t ht => ht.stillPolling_loop rfl fun b hb => txClear_eq_false (hfail b hb)
    · rw [Nat.add_comm 4, Nat.add_comm 5]
      exact read hw fun t ht => ht.stillPolling_result hc hfail

end Sys2Proof.Machine
end

section
/-! PROOFS. Reset and hazards (70_reset_and_hazards.md): the reset input at any step (R250, R251, R272) and in
mid-transaction (R252), and what becomes of the write-select that an aborted write leaves pending (R262). -/

namespace Sys2Proof.Machine

variable {s t u : State} {n : Nat}

/-! ## Along a run -/

theorem run_succ_cases (h : run (n + 1) s = .next t) : ∃ u, step s = .next u ∧ run n u = .next t := by
  unfold run at h
  split at h
  · next u hu => exact ⟨u, hu, h⟩
  · cases h
  · cases h

/-- What every step keeps, a run keeps. -/
theorem run_keeps {P : State → Prop} (hstep : ∀ s t, P s → step s = .next t → P t) (hs : P s) (h : run n s = .next t) :
    P t := by
  induction n generalizing s with
  | zero =>
    cases h
    exact hs
  | succ n ih =>
    obtain ⟨u, hu, hrun⟩ := run_succ_cases h
    exact ih (hstep s u hs hu) hrun

/-- Where every state of a kind has a step to another of the kind, a run goes on among them for ever. -/
theorem run_among {P : State → Prop} (hstep : ∀ s, P s → ∃ t, step s = .next t ∧ P t) (hs : P s) (n : Nat) :
    ∃ t, run n s = .next t ∧ P t := by
  induction n generalizing s with
  | zero => exact ⟨s, rfl, hs⟩
  | succ n ih =>
    obtain ⟨u, hu, hPu⟩ := hstep s hs
    obtain ⟨t, ht, hPt⟩ := ih hPu
    exact ⟨t, by rw [run_succ_of_step hu, ht], hPt⟩

/-- A run uses up one of the host's reset entries a step. -/
theorem run_resets {rs : List Bool} (hs : s.host.resets = List.replicate n false ++ rs) (h : run n s = .next t) :
    t.host.resets = rs := by
  induction n generalizing s with
  | zero =>
    cases h
    exact hs
  | succ n ih =>
    obtain ⟨u, hu, hrun⟩ := run_succ_cases h
    exact ih (by rw [step_resets hu, hs]; rfl) hrun

/-- A device whose moves in IDLE nothing orders stays so: no step adds to the list (log 10). -/
theorem step_idle_nil (hs : s.env.idle = []) (h : step s = .next t) : t.env.idle = [] := by
  rcases step_env h with henv | henv | ⟨x, henv⟩ <;> rw [henv]
  · exact hs
  · unfold Env.drain
    split
    · exact hs
    · exact congrArg List.tail hs
  · rw [Env.after_idle, hs]

/-! ## The reset input at a step (R250, R251, R272) -/

theorem State.resetDue_of_asserted (h : s.resetReq = true ∨ ∃ rs, s.host.resets = true :: rs) : s.resetDue = true := by
  obtain h | ⟨rs, h⟩ := h <;> simp [State.resetDue, h]

/-- Settles O11: the step is `State.applyReset`, and a run comes to the host's entry by `run_resets`. -/
theorem resetInputAbandonsCommand : Obligations.ResetInputAbandonsCommand := by
  refine ⟨fun s ho hr => ?_, fun s t n rs hs hrun ho => ?_⟩
  · exact ⟨_, step_reset ho (State.resetDue_of_asserted hr), rfl, rfl, rfl, rfl, rfl, rfl, rfl, rfl, rfl,
      s.tick.abandonedHost_resets⟩
  · have due := run_resets hs hrun
    have hreset := step_reset ho (State.resetDue_of_asserted (.inr ⟨rs, due⟩))
    refine ⟨_, (run_add hrun).trans (run_succ_of_step hreset), rfl, rfl, rfl, rfl, rfl, ?_⟩
    exact t.tick.abandonedHost_resets.trans (congrArg List.tail due)

/-! ## The reset input in mid-transaction (R252) -/

theorem State.transact_cut (hcut : s.env.choice.reset = true) (x : Tx) (f : Byte → State → State) :
    s.transact x f = (s.afterTx x).applyReset := by
  simp only [State.transact, (s.env.result_reset_iff x).mpr hcut]

/-- In a phase that issues it, each micro-operation is its one transaction. -/
theorem exec_transacts {i : Instr} {x : Tx}
    (h : i = .prdStatus ∧ x = .status ∧ s.phase.samples = true ∨ i = .prdRead ∧ x = .read ∧ s.phase.reads = true ∨
      (∃ v, i = .pwrWrite v ∧ x = .write v) ∧ s.phase.writes = true) :
    ∃ f, exec i s = .next (s.transact x f) := by
  obtain ⟨rfl, rfl, hp⟩ | ⟨rfl, rfl, hp⟩ | ⟨⟨v, rfl, rfl⟩, hp⟩ := h
  · exact exec_prdStatus_samples hp
  · exact exec_prdRead_reads hp
  · exact exec_pwrWrite_writes v hp

/-- Settles O12: by `State.transact_cut` and, for what the device kept of the transaction, `Env.after_red`. -/
theorem resetInFlightAbandonsCommand : Obligations.ResetInFlightAbandonsCommand := by
  intro s i x hcut h
  obtain ⟨f, hf⟩ := exec_transacts h
  rw [State.transact_cut hcut] at hf
  exact ⟨_, hf, rfl, rfl, rfl, rfl, rfl, rfl, rfl, s.env.after_red x⟩

/-! ## The device that an aborted write left (R262) -/

/-- A write-select of `a` is pending and nothing else is outstanding. The memory is `m`. -/
structure Red.Aborted (m : Memory) (a : VAddr) (r : Red) : Prop where
  vr : r.vr = m
  wpend : r.wpend = some a
  inbox : r.inbox = none
  rpend : r.rpend = none
  rxv : r.rxv = false

section
variable {m : Memory} {a b : VAddr} {k : Nat} {r : Red}

theorem Red.Aborted.boundary_eq (h : r.Aborted m a) (k : Nat) : r.boundary k = r :=
  Red.boundary_quiescent (r.quiescent_iff.mpr ⟨h.inbox, h.rpend⟩) k

/-- The next byte written, whatever select it is meant as, waits as the data byte of the aborted write. -/
theorem Red.Aborted.effect_write (h : r.Aborted m a) (v : Byte) : (r.effect (.write v)).Stored m a v false := by
  rw [Red.effect_write h.inbox]
  exact ⟨h.rpend, h.rxv, .inl ⟨rfl, h.wpend, h.vr⟩⟩

/-- Once the inbox is empty the byte is stored, and no select is pending. -/
theorem Red.Stored.done {v : Byte} {x : Bool} (h : r.Stored m a v x) (hi : r.inbox = none) :
    r.wpend = none ∧ r.rpend = none ∧ r.vr = Memory.write m a.toNat v := by
  obtain ⟨hr, _, ⟨hi', _⟩ | ⟨_, hw, hvr⟩⟩ := h
  · rw [hi] at hi'
    cases hi'
  · exact ⟨hw, hr, hvr⟩

/-- A calm machine accepts the word it is offered. -/
theorem Calm.accepts {write : Bool} {x : Byte} (hs : Calm s) (hp : s.phase = .idle)
    (hw : s.port = some (encodeCmd write b x)) :
    ∃ t, step s = .next t ∧ Calm t ∧ t.phase = firstPhase write ∧ t.vaddr = b ∧ t.wdata = x ∧ t.rsp = none ∧
      t.env = s.env := by
  have hstep := hs.step_row (.accept (s := s.tick) _ hp hw)
  exact ⟨_, hstep, hs.keeps hstep, congrArg firstPhase (cmdDir_encodeCmd write b x), cmdVaddr_encodeCmd write b x,
    cmdWdata_encodeCmd write b x, rfl, rfl⟩

/-! ## A read after it waits for ever -/

/-- A calm machine reads `b` in phase `p`, with no response yet, before the lazy-k device `r`. -/
structure Reading (b : VAddr) (k : Nat) (p : Phase) (r : Red) (s : State) : Prop where
  calm : Calm s
  phase : s.phase = p
  vaddr : s.vaddr = b
  rsp : s.rsp = none
  lazyK : s.env.lazyK = k
  red : s.env.red = r

theorem Reading.atBoundary {p : Phase} (h : Reading b k p r s) : s.atBoundary = r.boundary k := by
  rw [State.atBoundary, h.lazyK, h.red]

/-- One transaction, answered by the device, on to the phase that its continuation chooses. -/
theorem Reading.transact {p q : Phase} {x : Tx} {f : Byte → State → State} {st rd : Byte} (h : Reading b k p r s)
    (row : StepCase s.tick (s.tick.transact x f))
    (hf : Continues (s.played x) st rd (f (s.atBoundary.answer x) (s.played x)))
    (hq : (f (s.atBoundary.answer x) (s.played x)).phase = q) (hbusy : q ≠ .idle) :
    ∃ t, step s = .next t ∧ Reading b k q ((r.boundary k).effect x) t := by
  rw [h.calm.transact] at row
  have hstep := h.calm.step_row row
  obtain ⟨_, _, _, _, ht, hrsp⟩ := hf
  have henv : (f (s.atBoundary.answer x) (s.played x)).env = (s.played x).env := by rw [ht]
  refine ⟨_, hstep, h.calm.keeps hstep, hq, ?_, ?_, ?_, ?_⟩
  · rw [ht]
    exact h.vaddr
  · rw [ht] at hq ⊢
    exact (hrsp (ne_of_eq_of_ne hq hbusy)).trans h.rsp
  · rw [henv]
    exact (Env.after_lazyK s.env x).trans h.lazyK
  · rw [henv, h.calm.played_red, h.atBoundary]

/-- No stale result stands, so the read goes on to its first loop without a flush. -/
theorem Reading.look (h : Reading b k .r1Stat r s) (hr : r.Aborted m a) :
    ∃ t, step s = .next t ∧ Reading b k .r2Poll r t := by
  have noResult : rxValid s.atBoundary.status = false := by
    rw [h.atBoundary, hr.boundary_eq, Red.rxValid_status, hr.rxv]
  obtain ⟨_, _, _, _, hq, _⟩ := State.afterFirstLook_fields s.atBoundary.status (s.played .status)
  rw [noResult] at hq
  have := h.transact (.firstLook (s := s.tick) h.phase) (afterFirstLook_continues _ _) hq nofun
  rwa [hr.boundary_eq] at this

/-- The inbox is empty, so the first loop ends at once. -/
theorem Reading.clear (h : Reading b k .r2Poll r s) (hr : r.Aborted m a) :
    ∃ t, step s = .next t ∧ Reading b k .r3Sel r t := by
  have empty : txClear s.atBoundary.status = true := by
    rw [h.atBoundary, hr.boundary_eq, Red.txClear_status, hr.inbox, Option.isNone_none]
  have := h.transact (.poll (s := s.tick) txClear .r3Sel .r2Wait (by rw [State.tick_phase, h.phase]; rfl))
    (afterPoll_continues _ _ _ _ _) (congrArg State.phase (State.afterPoll_of_pass empty)) nofun
  rwa [hr.boundary_eq] at this

theorem Reading.select (h : Reading b k .r3Sel r s) (hr : r.Aborted m a) :
    ∃ t r', step s = .next t ∧ Reading b k .r4Poll r' t ∧ r'.Stored m a (selectByte false b) false := by
  obtain ⟨t, ht, hread⟩ := h.transact (.readSelect (s := s.tick) h.phase) (enterLoop_continues .r4Poll _) rfl nofun
  rw [hr.boundary_eq, State.tick_vaddr, h.vaddr] at hread
  exact ⟨t, _, ht, hread, hr.effect_write _⟩

/-- The device took the select as data: it shows no result, and the second loop waits. -/
theorem Reading.again {v : Byte} (h : Reading b k .r4Poll r s) (hr : r.Stored m a v false) :
    ∃ t, step s = .next t ∧ Reading b k .r4Wait (r.boundary k) t := by
  have noResult : rxValid s.atBoundary.status = false := by
    obtain ⟨_, hx, _⟩ := hr.boundary k
    rw [h.atBoundary, Red.rxValid_status, hx]
  have hlimit : limitReached (s.played .status).params.pollLimit ((s.played .status).polls + 1) = false :=
    limitReached_eq_false fun _ hn => absurd (h.calm.limit.symm.trans hn) nofun
  exact h.transact (.poll (s := s.tick) rxValid .r5Data .r4Wait (by rw [State.tick_phase, h.phase]; rfl))
    (afterPoll_continues _ _ _ _ _) (congrArg State.phase (State.afterPoll_of_again noResult hlimit)) nofun

theorem Reading.delay (h : Reading b k .r4Wait r s) : ∃ t, step s = .next t ∧ Reading b k .r4Poll r t := by
  have hstep := h.calm.step_row (.delay (s := s.tick) (by rw [State.tick_phase, h.phase]; rfl))
  exact ⟨_, hstep, h.calm.keeps hstep, congrArg afterWait h.phase, h.vaddr, h.rsp, h.lazyK, h.red⟩

/-- Where a read of `b` can stand after a write of `a` was aborted: on its way to its select, or in its second loop. -/
inductive Unanswered (m : Memory) (a b : VAddr) (s : State) : Prop
  | looking {k : Nat} {r : Red} (h : Reading b k .r1Stat r s) (hr : r.Aborted m a)
  | polling {k : Nat} {r : Red} (h : Reading b k .r2Poll r s) (hr : r.Aborted m a)
  | selecting {k : Nat} {r : Red} (h : Reading b k .r3Sel r s) (hr : r.Aborted m a)
  | awaiting {k : Nat} {r : Red} (h : Reading b k .r4Poll r s) (hr : r.Stored m a (selectByte false b) false)
  | delaying {k : Nat} {r : Red} (h : Reading b k .r4Wait r s) (hr : r.Stored m a (selectByte false b) false)

theorem Unanswered.busy (h : Unanswered m a b s) : s.phase ≠ .idle ∧ s.rsp = none := by
  cases h with
  | looking h _ => exact ⟨by rw [h.phase]; nofun, h.rsp⟩
  | polling h _ => exact ⟨by rw [h.phase]; nofun, h.rsp⟩
  | selecting h _ => exact ⟨by rw [h.phase]; nofun, h.rsp⟩
  | awaiting h _ => exact ⟨by rw [h.phase]; nofun, h.rsp⟩
  | delaying h _ => exact ⟨by rw [h.phase]; nofun, h.rsp⟩

theorem Unanswered.step (h : Unanswered m a b s) : ∃ t, step s = .next t ∧ Unanswered m a b t := by
  cases h with
  | looking h hr => exact (h.look hr).imp fun _ ht => ht.imp_right fun h' => .polling h' hr
  | polling h hr => exact (h.clear hr).imp fun _ ht => ht.imp_right fun h' => .selecting h' hr
  | selecting h hr =>
    obtain ⟨t, _, ht, h', hr'⟩ := h.select hr
    exact ⟨t, ht, .awaiting h' hr'⟩
  | awaiting h hr => exact (h.again hr).imp fun _ ht => ht.imp_right fun h' => .delaying h' (hr.boundary _)
  | delaying h hr => exact h.delay.imp fun _ ht => ht.imp_right fun h' => .awaiting h' hr

/-- While the loop waits, the device catches up and stores the byte. -/
theorem Reading.stores {v : Byte} (h : Reading b k .r4Poll r s) (hr : r.Stored m a v false) :
    ∃ t, Reaches s t ∧ t.env.red.vr = Memory.write m a.toNat v := by
  induction hlag : r.lag k using Nat.strong_induction_on generalizing s r with
  | _ lag ih =>
    by_cases hi : r.inbox = none
    · obtain ⟨_, _, hvr⟩ := hr.done hi
      exact ⟨s, ⟨0, rfl⟩, h.red ▸ hvr⟩
    · obtain ⟨u, hu, hwait⟩ := h.again hr
      obtain ⟨w, hw, hpoll⟩ := hwait.delay
      have waits : r.quiescent = false := by
        rw [Red.quiescent, Option.isNone_eq_false_iff.mpr (Option.isSome_iff_ne_none.mpr hi), Bool.false_and]
      obtain ⟨t, ht, hvr⟩ := ih _ (hlag ▸ Red.lag_boundary_lt k waits) hpoll (hr.boundary k) rfl
      exact ⟨t, ((Reaches.of_step hu).trans (.of_step hw)).trans ht, hvr⟩

theorem Reading.overwrites (h : Reading b k .r1Stat r s) (hr : r.Aborted m a) :
    ∃ t, Reaches s t ∧ t.env.red.vr = Memory.write m a.toNat (selectByte false b) := by
  obtain ⟨s2, h12, hs2⟩ := h.look hr
  obtain ⟨s3, h23, hs3⟩ := hs2.clear hr
  obtain ⟨s4, r4, h34, hs4, hr4⟩ := hs3.select hr
  obtain ⟨t, ht, hvr⟩ := hs4.stores hr4
  exact ⟨t, (((Reaches.of_step h12).trans (.of_step h23)).trans (.of_step h34)).trans ht, hvr⟩

/-! ## A write after it sends its data byte as a select -/

/-- The write-select is stored as data before the second loop ends. -/
theorem Calm.write_select_aborted (hs : Calm s) (hp : s.phase = .w1Poll) (hr : s.env.red.Aborted m a) :
    ∃ t, Serves s t ∧ t.phase = .w4Data ∧ t.env.red.inbox = none ∧
      t.env.red.Stored m a (selectByte true s.vaddr) false := by
  obtain ⟨u, hu, hup, hured, -⟩ := hs.poll_loop (I := Red.Aborted m a) (fun k _ hr => (hr.boundary_eq k).symm ▸ hr)
    (fun _ _ => Red.not_quiescent_of_txClear) (by rw [hp]; rfl) hr
  have hvaddr : u.tick.vaddr = s.vaddr := congrArg Context.vaddr hu.context
  have row := StepCase.writeSelect (s := u.tick) hup
  rw [hvaddr] at row
  obtain ⟨hv, hvred⟩ := hu.calm.serves_transact row rfl rfl
  rw [State.atBoundary, hured.boundary_eq] at hvred
  obtain ⟨t, ht, htp, htred, hclear⟩ := hv.calm.poll_loop (I := Red.Stored m a (selectByte true s.vaddr) false)
    (fun k _ => Red.Stored.boundary k) (fun _ _ => Red.not_quiescent_of_txClear) rfl
    (hvred ▸ hured.effect_write (selectByte true s.vaddr))
  exact ⟨t, (hu.trans hv).trans ht, htp, Red.inbox_of_txClear hclear, htred⟩

/-- Row W4_DATA before a quiescent device: the data byte goes to its inbox, and the command responds. -/
theorem Calm.write_data (hs : Calm s) (hp : s.phase = .w4Data) (hi : s.env.red.inbox = none)
    (hr : s.env.red.rpend = none) :
    ∃ t, step s = .next t ∧ t.phase = .idle ∧ t.rsp = some .okWr ∧ t.env.mode = .red ∧
      t.env.red = { s.env.red with inbox := some s.wdata } := by
  have row := StepCase.writeData (s := s.tick) hp
  rw [hs.transact] at row
  have hstep := hs.step_row row
  refine ⟨_, hstep, rfl, rfl, (hs.keeps hstep).mode, ?_⟩
  rw [State.respond_env, hs.played_red, Calm.atBoundary_quiescent hi hr, State.tick_wdata, Red.effect_write hi]

/-- The whole write: its select is stored at `a`, its data byte waits in the inbox with no select pending. -/
theorem Calm.write_aborted {x : Byte} (hs : Calm s) (hp : s.phase = .idle) (hw : s.port = some (encodeCmd true b x))
    (hr : s.env.red.Aborted m a) :
    ∃ t, Reaches s t ∧ t.phase = .idle ∧ t.rsp = some .okWr ∧ t.env.mode = .red ∧
      t.env.red.vr = Memory.write m a.toNat (selectByte true b) ∧ t.env.red.inbox = some x ∧
      t.env.red.wpend = none ∧ t.env.red.rpend = none := by
  obtain ⟨u, hu, hcalm, hup, rfl, hwdata, -, henv⟩ := hs.accepts hp hw
  obtain ⟨v, hv, hvp, hvi, hvred⟩ := hcalm.write_select_aborted hup (henv.symm ▸ hr)
  obtain ⟨hvw, hvr, hvmem⟩ := hvred.done hvi
  obtain ⟨t, ht, htp, htrsp, htmode, htred⟩ := hv.calm.write_data hvp hvi hvr
  have hdata : v.wdata = x := (congrArg Context.wdata hv.context).trans hwdata
  rw [hdata] at htred
  exact ⟨t, ((Reaches.of_step hu).trans hv.reach).trans (.of_step ht), htp, htrsp, htmode,
    (congrArg Red.vr htred).trans hvmem, congrArg Red.inbox htred, (congrArg Red.wpend htred).trans hvw,
    (congrArg Red.rpend htred).trans hvr⟩

end

/-- Settles O56: the read by `Unanswered.step` and `Reading.overwrites`, the write by `Calm.write_aborted`; the byte
that the write then sends is a select, since none is pending. -/
theorem pendingWriteSelectCorrupts : Obligations.PendingWriteSelectCorrupts := by
  intro s a b x hp hahead hlimit hmode hscript hw hi hr hx ho hwf
  have calm : Calm s := ⟨hahead, hlimit, hmode, hscript, redObeyed_of_overrun (fun _ => ho) (by rw [hp]; rfl)⟩
  have aborted : s.env.red.Aborted s.env.red.vr a := ⟨rfl, hw, hi, hr, hx⟩
  have stored (v : Byte) (c : Nat) := Memory.read_write_wf hwf a.toNat v c
  refine ⟨fun hport => ?_, fun hport => ?_⟩
  · obtain ⟨u, hu, hcalm, hup, hvaddr, -, hrsp, henv⟩ := calm.accepts hp hport
    have reading : Reading b u.env.lazyK .r1Stat s.env.red u := ⟨hcalm, hup, hvaddr, hrsp, rfl, congrArg Env.red henv⟩
    refine ⟨fun n => ?_, ?_⟩
    · obtain ⟨t, ht, hlost⟩ := run_among (fun _ => Unanswered.step) (.looking reading aborted) n
      exact ⟨t, by rw [run_succ_of_step hu, ht], hlost.busy⟩
    · obtain ⟨t, ht, hvr⟩ := reading.overwrites aborted
      obtain ⟨n, hn⟩ := (Reaches.of_step hu).trans ht
      exact ⟨n, t, hn, fun c => by rw [hvr, stored]⟩
  · obtain ⟨t, ⟨n, hn⟩, htp, hrsp, hmode, hvr, hti, htw, htr⟩ := calm.write_aborted hp hport aborted
    have select := Red.consume_unselected hti htw
    refine ⟨n, t, hn, htp, hrsp, fun c => by rw [hvr, stored], hti, htw, htr, fun h7 => ?_, fun h7 => ?_,
      fun hidle => ?_⟩
    · rw [select, if_pos h7]
    · rw [select, if_neg (by rw [h7]; nofun)]
    · have still : t.env.idle = [] := run_keeps (P := fun s => s.env.idle = []) (fun _ _ => step_idle_nil) hidle hn
      exact Env.drain_consumes hmode (.inl still) (by rw [hti]; nofun)

end Sys2Proof.Machine
end
